-- ==== Sys2Proof/Word.lean ====
section
/-! DEFINITION. The word types of TFO (00_scope.md R9, R10; 10_state.md R30, R34 to R36). -/

namespace Sys2Proof

/-- An 8-bit unsigned value (00_scope.md R9). -/
abbrev Byte := BitVec 8

/-- A host register value (00_scope.md R10). -/
abbrev Word := BitVec 32

/-- A 16-byte string whose byte 0 is the most significant one: J0REG, SREG, TAGR, HSUB, cipher blocks, tags and
elements of GF(2^128) (41_primitives.md R121, R130, R131). -/
abbrev Block := BitVec 128

/-- A 12-byte IV, byte 0 the most significant one (00_scope.md R7). -/
abbrev IvBits := BitVec 96

/-- A 32-byte key, byte 0 the most significant one (00_scope.md R7). -/
abbrev KeyBits := BitVec 256

end Sys2Proof
end

