-- ==== Sys2Proof/Machine/Bytes.lean ====
section
/-! DEFINITION. Byte strings and the fixed-width registers they fill (00_scope.md R9; 20_memory.md R53): byte 0 is the
most significant byte of the register. -/

namespace Sys2Proof.Machine

/-- The number a byte string spells, first byte most significant. -/
def beNat (l : List Byte) : Nat := l.foldl (fun n b => n * 256 + b.toNat) 0

/-- The number `v` as `n` bytes, most significant byte first. -/
def beBytes (n v : Nat) : List Byte := (List.range n).map fun i => BitVec.ofNat 8 (v >>> (8 * (n - 1 - i)))

/-- The string cut or padded with zero bytes on the right to exactly `n` bytes. -/
def padTo (n : Nat) (l : List Byte) : List Byte := l.take n ++ List.replicate (n - l.length) 0#8

/-- The block that a string of 16 bytes spells; a shorter string is padded with zero bytes (41_primitives.md R132). -/
def blockOfBytes (l : List Byte) : Block := BitVec.ofNat 128 (beNat (padTo 16 l))

/-- The 16 bytes of a block, byte 0 first. -/
def blockBytes (x : Block) : List Byte := beBytes 16 x.toNat

/-- Byte `i` of a block. -/
def blockByte (x : Block) (i : Nat) : Byte := x.extractLsb' (8 * (15 - i)) 8

/-- The block whose byte `i` is `f i`. -/
def blockOfFn (f : Nat → Byte) : Block := blockOfBytes ((List.range 16).map f)

/-- The IV register loaded from 12 bytes in memory order (40_session.md R108). -/
def ivOfBytes (l : List Byte) : IvBits := BitVec.ofNat 96 (beNat (padTo 12 l))

/-- The key register loaded from 32 bytes in memory order (40_session.md R104). -/
def keyOfBytes (l : List Byte) : KeyBits := BitVec.ofNat 256 (beNat (padTo 32 l))

/-- Bytewise exclusive-or of two strings, as long as the shorter one (00_scope.md R9). -/
def xorBytes (a b : List Byte) : List Byte := List.zipWith (· ^^^ ·) a b

end Sys2Proof.Machine
end

