-- ==== Sys2Proof/Machine/Aes.lean ====
section
/-! DEFINITION. The AES-256 single-block core (41_primitives.md R120 to R129). A state is a block whose byte `r + 4 c`
is s[r][c] (R121), so loading and unloading the state change nothing. -/

namespace Sys2Proof.Machine

/-- Multiplication by x in GF(2^8) (41_primitives.md R122). -/
def xtime (b : Byte) : Byte := (b <<< 1) ^^^ (if b.msb then 0x1B#8 else 0#8)

/-- Multiplication by 3 in GF(2^8) (41_primitives.md R122). -/
def mulBy3 (b : Byte) : Byte := xtime b ^^^ b

/-- The field product of GF(2^8) over the lowest `n` bits of `a` (41_primitives.md R122). -/
def gmulUpTo : Nat → Byte → Byte → Byte
  | 0, _, _ => 0#8
  | n + 1, a, b => (if a.getLsbD 0 then b else 0#8) ^^^ gmulUpTo n (a >>> 1) (xtime b)

/-- The field product of GF(2^8) (41_primitives.md R122). -/
def gmul (a b : Byte) : Byte := gmulUpTo 8 a b

/-- The S-box table of 41_primitives.md R123: row `h` holds the sixteen bytes of the table's row `h`, column 0 first. -/
def sboxRows : List Nat :=
  [0x637c777bf26b6fc53001672bfed7ab76,
   0xca82c97dfa5947f0add4a2af9ca472c0,
   0xb7fd9326363ff7cc34a5e5f171d83115,
   0x04c723c31896059a071280e2eb27b275,
   0x09832c1a1b6e5aa0523bd6b329e32f84,
   0x53d100ed20fcb15b6acbbe394a4c58cf,
   0xd0efaafb434d338545f9027f503c9fa8,
   0x51a3408f929d38f5bcb6da2110fff3d2] ++
  [0xcd0c13ec5f974417c4a77e3d645d1973,
   0x60814fdc222a908846eeb814de5e0bdb,
   0xe0323a0a4906245cc2d3ac629195e479,
   0xe7c8376d8dd54ea96c56f4ea657aae08,
   0xba78252e1ca6b4c6e8dd741f4bbd8b8a,
   0x703eb5664803f60e613557b986c11d9e,
   0xe1f8981169d98e949b1e87e9ce5528df,
   0x8ca1890dbfe6426841992d0fb054bb16]

/-- SBOX(a): row = high nibble, column = low nibble (41_primitives.md R123). -/
def sbox (a : Byte) : Byte :=
  BitVec.ofNat 8 (sboxRows.getD (a.toNat / 16) 0 >>> (8 * (15 - a.toNat % 16)))

/-- SubBytes (41_primitives.md R124). -/
def subBytes (x : Block) : Block := blockOfFn fun i => sbox (blockByte x i)

/-- ShiftRows: s'[r][c] = s[r][(c + r) mod 4], with i = r + 4 c (41_primitives.md R124). -/
def shiftRows (x : Block) : Block :=
  blockOfFn fun i => blockByte x (i % 4 + 4 * ((i / 4 + i % 4) % 4))

/-- MixColumns: row r of a column is 2·a_r ⊕ 3·a_(r+1) ⊕ a_(r+2) ⊕ a_(r+3), indices mod 4, which is the four lines of
41_primitives.md R124. -/
def mixColumns (x : Block) : Block :=
  blockOfFn fun i =>
    xtime (blockByte x (i / 4 * 4 + i % 4)) ^^^ mulBy3 (blockByte x (i / 4 * 4 + (i + 1) % 4))
      ^^^ blockByte x (i / 4 * 4 + (i + 2) % 4) ^^^ blockByte x (i / 4 * 4 + (i + 3) % 4)

/-- SubWord: SBOX on each byte of a key-schedule word (41_primitives.md R125). -/
def subWord (w : Word) : Word :=
  sbox (w.extractLsb' 24 8) ++ sbox (w.extractLsb' 16 8) ++ sbox (w.extractLsb' 8 8) ++ sbox (w.extractLsb' 0 8)

/-- RotWord: b0 b1 b2 b3 becomes b1 b2 b3 b0 (41_primitives.md R125). -/
def rotWord (w : Word) : Word := w.rotateLeft 8

/-- Rcon[j] ‖ 00 00 00 with Rcon[j] = x^(j-1) (41_primitives.md R125). -/
def rconWord (j : Nat) : Word := (1#32 <<< (j - 1)) <<< 24

/-- One more word of the key schedule: `ws` holds w[i-1], w[i-2], …, w[0] (41_primitives.md R125). -/
def nextKeyWord (i : Nat) (ws : List Word) : Word :=
  let t := ws.getD 0 0#32
  let t' := if i % 8 = 0 then subWord (rotWord t) ^^^ rconWord (i / 8) else if i % 8 = 4 then subWord t else t
  ws.getD 7 0#32 ^^^ t'

/-- The first eight words of the key schedule, latest first (41_primitives.md R125). -/
def firstKeyWords (k : KeyBits) : List Word :=
  (List.range 8).map fun i => k.extractLsb' (32 * i) 32

/-- The key schedule after `n` words beyond the first eight, latest word first (41_primitives.md R125). -/
def keyWords (k : KeyBits) : Nat → List Word
  | 0 => firstKeyWords k
  | n + 1 => nextKeyWord (n + 8) (keyWords k n) :: keyWords k n

/-- The 60 words w[0] … w[59] of the key schedule in order (41_primitives.md R125). -/
def keySchedule (k : KeyBits) : List Word := (keyWords k 52).reverse

/-- The block that AddRoundKey(r) adds: byte j of word w[4r + c] stands at j + 4c (41_primitives.md R124). -/
def roundKey (ws : List Word) (r : Nat) : Block :=
  ws.getD (4 * r) 0#32 ++ ws.getD (4 * r + 1) 0#32 ++ ws.getD (4 * r + 2) 0#32 ++ ws.getD (4 * r + 3) 0#32

/-- AddRoundKey (41_primitives.md R124). -/
def addRoundKey (ws : List Word) (r : Nat) (x : Block) : Block := x ^^^ roundKey ws r

/-- AddRoundKey(0) and the rounds 1 to `n` (41_primitives.md R126). -/
def aesRounds (ws : List Word) (x : Block) : Nat → Block
  | 0 => addRoundKey ws 0 x
  | n + 1 => addRoundKey ws (n + 1) (mixColumns (shiftRows (subBytes (aesRounds ws x n))))

/-- AES_K(X) (41_primitives.md R126, R127): thirteen full rounds and the last one without MixColumns. -/
def aes (k : KeyBits) (x : Block) : Block :=
  addRoundKey (keySchedule k) 14 (shiftRows (subBytes (aesRounds (keySchedule k) x 13)))

/-- The hash subkey H = AES_K(0^128) (41_primitives.md R129). -/
def hashSubkey (k : KeyBits) : Block := aes k 0#128

end Sys2Proof.Machine
end

