-- ==== Sys2Proof/Machine/Ghash.lean ====
section
/-! DEFINITION. GF(2^128), GHASH, nonce expansion, counter increment, tag mask and the constant-time comparator
(41_primitives.md R130 to R140). -/

namespace Sys2Proof.Machine

/-- R = 0xE1 ‖ 0^15 (41_primitives.md R131). -/
def ghashR : Block := 0xE1000000000000000000000000000000#128

/-- One iteration's new V (41_primitives.md R131). -/
def gf128Shift (v : Block) : Block := if v.getLsbD 0 then (v >>> 1) ^^^ ghashR else v >>> 1

/-- The loop of 41_primitives.md R131 with `n` iterations left, that is from i = 128 - n on. -/
def gf128Loop (x : Block) : Nat → Block → Block → Block
  | 0, z, _ => z
  | n + 1, z, v => gf128Loop x n (if x.getLsbD n then z ^^^ v else z) (gf128Shift v)

/-- X • Y in GF(2^128) (41_primitives.md R131). -/
def gf128Mul (x y : Block) : Block := gf128Loop x 128 0#128 y

/-- The number of zero bytes that fill `n` bytes up to a multiple of 16 (41_primitives.md R132). -/
def padLen (n : Nat) : Nat := (16 - n % 16) % 16

/-- The string M of 41_primitives.md R132. -/
def ghashInput (a c : List Byte) : List Byte :=
  a ++ List.replicate (padLen a.length) 0#8 ++ c ++ List.replicate (padLen c.length) 0#8
    ++ beBytes 8 (8 * a.length) ++ beBytes 8 (8 * c.length)

/-- A string cut into its 16-byte blocks B_1 … B_m (41_primitives.md R133). -/
def blocksOf (m : List Byte) : List Block :=
  (List.range (m.length / 16)).map fun i => blockOfBytes ((m.drop (16 * i)).take 16)

/-- Y_i = (Y_(i-1) ⊕ B_i) • H (41_primitives.md R133). -/
def ghashStep (h y b : Block) : Block := gf128Mul (y ^^^ b) h

/-- GHASH_H(A, C) (41_primitives.md R133). -/
def ghash (h : Block) (a c : List Byte) : Block := (blocksOf (ghashInput a c)).foldl (ghashStep h) 0#128

/-- J0(IV) = IV ‖ 00 00 00 01 (41_primitives.md R135). -/
def j0Of (iv : IvBits) : Block := iv ++ 1#32

/-- inc32: the rightmost 4 bytes count modulo 2^32 (41_primitives.md R136). -/
def inc32 (x : Block) : Block := x.extractLsb' 32 96 ++ (x.extractLsb' 0 32 + 1#32)

/-- The tag mask S = AES_K(J0) (41_primitives.md R137). -/
def tagMask (k : KeyBits) (j0 : Block) : Block := aes k j0

/-- The loop of CT_EQ16 over the bytes `i` on, `n` of them: it ORs every difference into `d` (41_primitives.md R138). -/
def ctEqLoop (a b : Block) : Nat → Nat → Byte → Byte
  | 0, _, d => d
  | n + 1, i, d => ctEqLoop a b n (i + 1) (d ||| (blockByte a i ^^^ blockByte b i))

/-- CT_EQ16: always 16 iterations, no early exit (41_primitives.md R138). -/
def ctEq16 (a b : Block) : Bool := ctEqLoop a b 16 0 0#8 == 0#8

end Sys2Proof.Machine
end

