-- ==== Sys2Proof/Machine/Ctr.lean ====
section
/-! DEFINITION. The AES-CTR stream-cipher controller (42_ctr_controller.md R150 to R157) and its initialisation
(40_session.md R107 to R109). -/

namespace Sys2Proof.Machine

/-- The counter block CB_i: CB_0 = J0, CB_i = inc32(CB_(i-1)) (42_ctr_controller.md R150). -/
def counterBlock (j0 : Block) : Nat → Block
  | 0 => j0
  | n + 1 => inc32 (counterBlock j0 n)

/-- The keystream for `n` data blocks: AES_K(CB_1) ‖ … ‖ AES_K(CB_n) (42_ctr_controller.md R151). -/
def keystream (k : KeyBits) (j0 : Block) (n : Nat) : List Byte :=
  (List.range n).flatMap fun i => blockBytes (aes k (counterBlock j0 (i + 1)))

/-- CTR_XFORM(K, J0, X): ⌈|X|/16⌉ blocks, the last one possibly partial (42_ctr_controller.md R151). -/
def ctrXform (k : KeyBits) (j0 : Block) (x : List Byte) : List Byte :=
  xorBytes x (keystream k j0 ((x.length + 15) / 16))

/-- CTR_TAG(K, J0, C) = GHASH_H(ε, C) ⊕ AES_K(J0) with H = AES_K(0^16) (42_ctr_controller.md R153). -/
def ctrTag (k : KeyBits) (j0 : Block) (c : List Byte) : Block := ghash (hashSubkey k) [] c ^^^ tagMask k j0

/-- What ENGINE_INIT loads into the CTR controller for one transform (40_session.md R107): nothing of it outlives the
command. The usage tag is presented and selects nothing (R109). -/
structure Engine where
  usage : Word
  iv : IvBits
  key : KeyBits
  deriving DecidableEq, Repr

/-- The controller's own pre-counter block, J0 of the IV it was given (40_session.md R108). -/
def engineJ0 (e : Engine) : Block := j0Of e.iv

/-- HW_ENC: ciphertext followed by the 16-byte tag over the ciphertext alone (42_ctr_controller.md R154). -/
def hwEnc (e : Engine) (p : List Byte) : List Byte :=
  ctrXform e.key (engineJ0 e) p ++ blockBytes (ctrTag e.key (engineJ0 e) (ctrXform e.key (engineJ0 e) p))

/-- HW_DEC: the plaintext, and whether the tag over the ciphertext alone equals `t` (42_ctr_controller.md R155). -/
def hwDec (e : Engine) (c : List Byte) (t : Block) : List Byte × Bool :=
  (ctrXform e.key (engineJ0 e) c, ctEq16 (ctrTag e.key (engineJ0 e) c) t)

end Sys2Proof.Machine
end

