-- ==== Sys2Proof/Config.lean ====
section
/-! DEFINITION. What an implementation fixes (00_scope.md R8) and the free values the spec leaves open. -/

namespace Sys2Proof

/-- The model arguments of 00_scope.md R8, constant for one system. A state carries its system's parameters, so a
statement about every state holds for every choice of them (log 3). -/
structure Params where
  /-- BASE: byte address of the register window, a multiple of 256 (D3). -/
  base : Word
  /-- N_SLOTS: number of session slots, 1 to 16 (D9). -/
  nSlots : Nat
  /-- SCRATCH_CAP: bytes of internal scratch memory, at least 16 (D17). -/
  scratchCap : Nat
  /-- DEVICE_PRESENT: the device lookup at index 0 returns a configuration (D12). -/
  devicePresent : Bool
  /-- Admitted: the addresses the platform lets the DMA port access, as ranges (first address, length); the register
  window is taken out of them by `admittedByte` (D21). -/
  dmaRanges : List (Nat × Nat)
  /-- DMA_COHERENT: DMA accesses are coherent with the host's caches (D30). The host's memory operations of this model
  include the cache maintenance that R247 asks for, so no step reads it (log 12). -/
  dmaCoherent : Bool
  deriving DecidableEq, Repr

/-- The parameters of the common start state of 95_test_vectors.md part 3; BASE, which that part leaves open, is
DESIGN CHOICE 0x40000000 (log 2). -/
def Params.standard : Params where
  base := 0x40000000#32
  nSlots := 4
  scratchCap := 76
  devicePresent := true
  dmaRanges := [(0x1000, 0xF000)]
  dmaCoherent := true

/-- The outcome of the `n`-th free draw when it decides `dma_init_ok` (40_session.md R103): free value, no body (log 4). -/
opaque Config.dmaInitOk : Nat → Bool

/-- The outcome of the `n`-th free draw when it decides `hang` (42_ctr_controller.md R158): free value, no body (log 5). -/
opaque Config.hang : Nat → Bool

/-- The `n`-th free byte: a byte that "holds any value" (42_ctr_controller.md R158, 70_reset_and_hazards.md R241): free
value, no body (log 6). -/
opaque Config.anyByte : Nat → Byte

end Sys2Proof
end

