-- ==== Sys2Proof/Machine/State.lean ====
section
/-! DEFINITION. The state of TFO as plain data (10_state.md), its reset value (R39), and the reasons a step can stop. -/

namespace Sys2Proof.Machine

/-- The error codes of 60_exceptions.md R211; the codes 9 to 15 are reserved and never written, so they have no name. -/
inductive ErrCode where
  | ok
  | badArgument
  | outOfMemory
  | deviceUnavailable
  | deviceInitFailed
  | internalCryptoFailure
  | authenticationFailure
  | illegalCommand
  | busError
  deriving DecidableEq, Repr

/-- The fields of STATUS (10_state.md R25). -/
structure Status where
  busy : Bool
  ovr : Bool
  fold : Bool
  hwx : Bool
  ghcnt : BitVec 2
  err : ErrCode
  deriving DecidableEq, Repr

/-- STATUS after reset (10_state.md R39). -/
def Status.zero : Status :=
  { busy := false, ovr := false, fold := false, hwx := false, ghcnt := 0#2, err := .ok }

/-- The twelve operand registers (10_state.md R27). -/
structure OperandRegs where
  keyAddr : Word
  keyLen : Word
  usage : Word
  ivAddr : Word
  ivLen : Word
  srcAddr : Word
  srcLen : Word
  dstAddr : Word
  aadAddr : Word
  aadLen : Word
  tagAddr : Word
  tagLen : Word
  deriving DecidableEq, Repr

/-- The operand registers after reset (10_state.md R39). -/
def OperandRegs.zero : OperandRegs where
  keyAddr := 0#32
  keyLen := 0#32
  usage := 0#32
  ivAddr := 0#32
  ivLen := 0#32
  srcAddr := 0#32
  srcLen := 0#32
  dstAddr := 0#32
  aadAddr := 0#32
  aadLen := 0#32
  tagAddr := 0#32
  tagLen := 0#32

/-- A session slot: VALID[s], KEYBUF[s], USAGE_S[s] (10_state.md R30). -/
structure Slot where
  valid : Bool
  key : KeyBits
  usage : Word
  deriving DecidableEq, Repr

/-- A slot that is not bound, its key zeroized (10_state.md R31, R39). -/
def Slot.unbound : Slot := { valid := false, key := 0#256, usage := 0#32 }

/-- The transient per-command registers (10_state.md R34 to R36). `scratch` lists SCRATCH from index 0 on; every byte of
SCRATCH beyond the list is zero (log 15). -/
structure Transients where
  ivReg : IvBits
  j0Reg : Block
  sReg : Block
  tagR : Block
  hSub : Block
  scratch : List Byte
  deriving DecidableEq, Repr

/-- The transients all zero (10_state.md R38, R39). -/
def Transients.zero : Transients :=
  { ivReg := 0#96, j0Reg := 0#128, sReg := 0#128, tagR := 0#128, hSub := 0#128, scratch := [] }

/-- A byte range of system memory (20_memory.md R51): `addr`, `addr + 1`, …, `addr + len - 1`, computed exactly. -/
structure Range where
  addr : Word
  len : Nat
  deriving DecidableEq, Repr

/-- System memory (20_memory.md R50): the bytes that are not 0x00, addresses strictly rising (log 7). -/
abbrev Memory := List Host.Cell

/-- What an unlisted byte of system memory reads as: DESIGN CHOICE 0x00 (log 7). -/
abbrev Memory.unlisted : Byte := 0#8

/-- The canonical form: addresses strictly rising, every address inside the 32-bit space (20_memory.md R50), and no
entry equal to what an unlisted address reads as. -/
abbrev Memory.wf (m : Memory) : Prop :=
  m.Pairwise (fun c d => c.1 < d.1) ∧ ∀ c ∈ m, c.1 < 2 ^ 32 ∧ c.2 ≠ Memory.unlisted

/-- The width of a host access to the register window (20_memory.md R58). -/
inductive AccessSize where
  | byte
  | half
  | word
  deriving DecidableEq, Repr

/-- One thing the host or the platform does to TFO (70_reset_and_hazards.md R244). Register accesses give the byte
offset from BASE. -/
inductive HostOp where
  /-- A write of `value` to the register window at offset `off`. -/
  | regWrite (off : BitVec 8) (size : AccessSize) (value : Word)
  /-- A read of the register window at offset `off`. -/
  | regRead (off : BitVec 8) (size : AccessSize)
  /-- The host stores bytes to system memory from address `addr` on, made visible to the DMA port (R247). -/
  | memStore (addr : Word) (bytes : List Byte)
  /-- The host reads `len` bytes of system memory from address `addr` on, not through a stale copy (R247). -/
  | memLoad (addr : Word) (len : Nat)
  /-- The platform resets TFO (R240). -/
  | reset
  /-- The host does nothing: TFO has its turn. -/
  | idle
  deriving DecidableEq, Repr

/-- The outcomes still to come of the free draws. Each list is consumed from its head; when it is empty the draw is the
opaque constant of Config at the number `next`, which then advances (log 4, log 5, log 6). -/
structure Draws where
  dmaInit : List Bool
  hang : List Bool
  next : Nat
  deriving DecidableEq, Repr

/-- The draws at `State.reset`: nothing fixed in advance (DESIGN CHOICE, log 4, log 5). -/
def Draws.free : Draws := { dmaInit := [], hang := [], next := 0 }

/-- Everything the spec gives the machine, the system's parameters, and the model's own fields at the end. -/
structure State where
  /-- The parameters of the system, constant (00_scope.md R8). -/
  params : Params
  /-- STATUS (10_state.md R25). -/
  status : Status
  /-- ERR_ADDR (10_state.md R26). -/
  errAddr : Word
  /-- The operand registers (10_state.md R27). -/
  regs : OperandRegs
  /-- The session slots (10_state.md R30); those from N_SLOTS on do not exist and stay unbound (log 16). -/
  slots : Vector Slot 16
  /-- CMD_LATCH (10_state.md R32). -/
  cmdLatch : Word
  /-- HUNG (10_state.md R33). -/
  hung : Bool
  /-- IVREG, J0REG, SREG, TAGR, HSUB, SCRATCH (10_state.md R34 to R36). -/
  trans : Transients
  /-- System memory (20_memory.md R50). -/
  mem : Memory
  /-- Model's own: the host operations still to come (log 1). -/
  inputs : List HostOp
  /-- Model's own: the ranges handed over to TFO and not yet taken back (70_reset_and_hazards.md R244, R245; log 10). -/
  handed : List Range
  /-- Model's own: what the host's last register read returned (log 20). -/
  rdReg : Word
  /-- Model's own: what the host's last memory read returned (log 20). -/
  rdMem : List Byte
  /-- Model's own: the free draws to come (log 4, log 5, log 6). -/
  draws : Draws
  deriving DecidableEq, Repr

/-- The state after reset of a system with parameters `p` (10_state.md R39), with the memory, the host's coming
operations and the draws given. -/
def State.resetOf (p : Params) (m : Memory) (ops : List HostOp) (d : Draws) : State where
  params := p
  status := Status.zero
  errAddr := 0#32
  regs := OperandRegs.zero
  slots := Vector.replicate 16 Slot.unbound
  cmdLatch := 0#32
  hung := false
  trans := Transients.zero
  mem := m
  inputs := ops
  handed := []
  rdReg := 0#32
  rdMem := []
  draws := d

/-- The state after reset of the system of 95_test_vectors.md part 3 (log 2): nothing listed in memory (log 7), no host
operation to come (log 1), every draw free (log 4, log 5). -/
def State.reset : State := State.resetOf Params.standard [] [] Draws.free

/-- Why a step faults. -/
inductive Fault where
  /-- Raised by a host memory access (`HostOp.memStore`, `HostOp.memLoad`) that passes the top of the 32-bit address space:
  such an address does not exist (20_memory.md R50). Safe: the model stops. TFO's own accesses never raise it, they end in
  BusError (R51). -/
  | noSuchAddress
  deriving DecidableEq, Repr

/-- Why a step has no meaning. -/
inductive Refusal where
  /-- Raised by `exec` for an instruction that has no meaning yet. Safe: the model stops. -/
  | notModelled (mnemonic : String)
  /-- Raised by ENCRYPT and DECRYPT when an output range overlaps another range of the command: UNPREDICTABLE, "a model
  refuses the command" (20_memory.md R57). Safe: the model stops. -/
  | overlappingRanges
  /-- Raised by a host access to the register window that is not an aligned 32-bit one, or by a host memory access that
  touches the window: UNPREDICTABLE, "a model refuses it" (20_memory.md R58). Safe: the model stops. -/
  | windowAccess
  /-- Raised by a host memory access to a range handed over to TFO (70_reset_and_hazards.md R245): "a model gives the host no
  move that breaks" the duty (R244). Unsafe: a claim holds only for hosts that keep the duty (log 10). -/
  | bufferDuty
  deriving DecidableEq, Repr

end Sys2Proof.Machine
end

