-- ==== Sys2Proof/Machine/Flags.lean ====
section
/-! DEFINITION. STATUS as a word, the error code numbers, and the instrumentation flags FOLD, HWX and GHCNT
(10_state.md R25; 60_exceptions.md R211; 43_encrypt.md R178; 44_decrypt.md R199). -/

namespace Sys2Proof.Machine

/-- The number of an error code (60_exceptions.md R211). -/
def errBits : ErrCode → BitVec 4
  | .ok => 0#4
  | .badArgument => 1#4
  | .outOfMemory => 2#4
  | .deviceUnavailable => 3#4
  | .deviceInitFailed => 4#4
  | .internalCryptoFailure => 5#4
  | .authenticationFailure => 6#4
  | .illegalCommand => 7#4
  | .busError => 8#4

/-- STATUS = BUSY | OVR<<1 | FOLD<<2 | HWX<<3 | GHCNT<<4 | ERR<<8, every other bit 0 (10_state.md R25). -/
def statusWord (st : Status) : Word :=
  0#20 ++ errBits st.err ++ 0#2 ++ st.ghcnt ++ BitVec.ofBool st.hwx ++ BitVec.ofBool st.fold
    ++ BitVec.ofBool st.ovr ++ BitVec.ofBool st.busy

/-- STATUS in the step that accepts a command (30_encoding.md R80). -/
def acceptedStatus : Status :=
  { busy := true, ovr := false, fold := false, hwx := false, ghcnt := 0#2, err := .ok }

/-- STATUS in the step that completes a command: OVR keeps its value (60_exceptions.md R210). -/
def completedStatus (st : Status) (code : ErrCode) (fold hwx : Bool) (ghcnt : BitVec 2) : Status :=
  { busy := false, ovr := st.ovr, fold := fold, hwx := hwx, ghcnt := ghcnt, err := code }

/-- GHCNT of an ENCRYPT that completes with OK: one pass iff the AAD is present (43_encrypt.md R178). -/
def encGhcnt (aad : Bool) : BitVec 2 := if aad then 1#2 else 0#2

/-- GHCNT of a DECRYPT that ran: two passes iff the AAD is present (44_decrypt.md R199). -/
def decGhcnt (aad : Bool) : BitVec 2 := if aad then 2#2 else 0#2

end Sys2Proof.Machine
end

