-- ==== Sys2Proof/Machine/Ops.lean ====
section
/-! DEFINITION. The named operations over memory, slots and registers, completion and the raising of an error
(60_exceptions.md R210), the hang (42_ctr_controller.md R158) and the free draws. -/

namespace Sys2Proof.Machine

/-- One byte of system memory. -/
def readByte : Memory → Nat → Byte
  | [], _ => Memory.unlisted
  | c :: m, a => if a < c.1 then Memory.unlisted else if a = c.1 then c.2 else readByte m a

/-- Memory with one byte written, in canonical form again. -/
def writeByte : Memory → Nat → Byte → Memory
  | [], a, v => if v = Memory.unlisted then [] else [(a, v)]
  | c :: m, a, v =>
    if a < c.1 then (if v = Memory.unlisted then c :: m else (a, v) :: c :: m)
    else if a = c.1 then (if v = Memory.unlisted then m else (a, v) :: m)
    else c :: writeByte m a v

/-- MemRead(a, n): bytes in ascending address order (00_scope.md R12; 20_memory.md R52, R53). -/
def readBytes (m : Memory) (a n : Nat) : List Byte := (List.range n).map fun i => readByte m (a + i)

/-- MemWrite: byte i of the string goes to address a + i (00_scope.md R12; 20_memory.md R52, R53). -/
def writeBytes : Memory → Nat → List Byte → Memory
  | m, _, [] => m
  | m, a, b :: bs => writeBytes (writeByte m a b) (a + 1) bs

/-- The bytes of a range (20_memory.md R51, R52). -/
def readRange (r : Range) (s : State) : List Byte := readBytes s.mem r.addr.toNat r.len

/-- The state with a byte string written from address `a` on. -/
def memWrite (a : Word) (bytes : List Byte) (s : State) : State :=
  { s with mem := writeBytes s.mem a.toNat bytes }

/-- The state with other transient registers. -/
def setTrans (t : Transients) (s : State) : State := { s with trans := t }

/-- Slot `i` (10_state.md R30). -/
def slotAt (s : State) (i : Fin 16) : Slot := s.slots[i]

/-- The state with slot `i` replaced. -/
def setSlot (i : Fin 16) (x : Slot) (s : State) : State := { s with slots := s.slots.set i x }

/-- `unbind(s)`: key and usage tag zeroized, VALID cleared (40_session.md, the helper of R101 and R106). -/
def unbindSlot (i : Fin 16) (s : State) : State := setSlot i Slot.unbound s

/-- Binding (40_session.md R104). -/
def bindSlot (i : Fin 16) (k : KeyBits) (u : Word) (s : State) : State :=
  setSlot i { valid := true, key := k, usage := u } s

/-- The end of Exec (60_exceptions.md R210): STATUS and ERR_ADDR written, every transient zeroized (10_state.md R38), BUSY
cleared. Memory, slots and operand registers stay as the command left them. -/
def complete (code : ErrCode) (fold hwx : Bool) (ghcnt : BitVec 2) (ea : Word) (s : State) : State :=
  { s with
    status := completedStatus s.status code fold hwx ghcnt
    errAddr := ea
    trans := Transients.zero }

/-- `complete(OK)` of a command without paths (40_session.md R100, R101, R106). -/
def completeOk (s : State) : State := complete .ok false false 0#2 0#32 s

/-- `raise code`: the one way an error is taken (00_scope.md R12; 60_exceptions.md R210, R223). It saves no state and transfers
no control; FOLD, HWX, GHCNT and ERR_ADDR read 0. -/
def raise (code : ErrCode) (s : State) : State := complete code false false 0#2 0#32 s

/-- `raise BusError(a)`: `raise` with ERR_ADDR set to a (00_scope.md R12; 60_exceptions.md R219). -/
def raiseBus (a : Word) (s : State) : State := complete .busError false false 0#2 a s

/-- Whether this INSTALL_KEY's DMA initialisation succeeds: the draw `dma_init_ok` (40_session.md R103; log 4). -/
def dmaInitDraw (s : State) : Bool :=
  match s.draws.dmaInit with
  | b :: _ => b
  | [] => Config.dmaInitOk s.draws.next

/-- The state after the draw `dma_init_ok` (log 4). -/
def afterDmaInitDraw (s : State) : State :=
  match s.draws.dmaInit with
  | _ :: r => { s with draws := { s.draws with dmaInit := r } }
  | [] => { s with draws := { s.draws with next := s.draws.next + 1 } }

/-- Whether this transform never completes: the draw `hang` (42_ctr_controller.md R158; log 5). -/
def hangDraw (s : State) : Bool :=
  match s.draws.hang with
  | b :: _ => b
  | [] => Config.hang s.draws.next

/-- The state after the draw `hang` (log 5). -/
def afterHangDraw (s : State) : State :=
  match s.draws.hang with
  | _ :: r => { s with draws := { s.draws with hang := r } }
  | [] => { s with draws := { s.draws with next := s.draws.next + 1 } }

/-- `n` free bytes, numbered from `k` on (log 6). -/
def anyBytes (k n : Nat) : List Byte := (List.range n).map fun i => Config.anyByte (k + i)

/-- How many bytes of a range lie inside the 32-bit address space. -/
def rangeInside (r : Range) : Nat := min r.len (2 ^ 32 - r.addr.toNat)

/-- Every byte of a range holds any value (42_ctr_controller.md R158; 70_reset_and_hazards.md R241). Bytes past the top of the
address space do not exist. -/
def havocRange (r : Range) (s : State) : State :=
  { s with
    mem := writeBytes s.mem r.addr.toNat (anyBytes s.draws.next (rangeInside r))
    draws := { s.draws with next := s.draws.next + rangeInside r } }

/-- Every byte of every listed range holds any value. -/
def havoc : List Range → State → State
  | [], s => s
  | r :: rs, s => havoc rs (havocRange r s)

/-- The hang of 42_ctr_controller.md R158: HUNG = 1 and BUSY = 1 for good, the output ranges hold any value, slots and other
memory are unchanged. -/
def hangWith (outs : List Range) (s : State) : State :=
  let t := havoc outs s
  { t with hung := true, status := { t.status with busy := true } }

end Sys2Proof.Machine
end

