-- ==== Sys2Proof/Syntax.lean ====
section
/-! DEFINITION. The commands of TFO (30_encoding.md R71): one constructor per row of spec/opcode_table.json. -/

namespace Sys2Proof

/-- A command on the session slot `slot`, the 4-bit SLOT field (30_encoding.md R70). -/
inductive Instr where
  /-- NOP s (40_session.md R100). -/
  | nop (slot : Fin 16)
  /-- INSTALL_KEY s (40_session.md R101). -/
  | installKey (slot : Fin 16)
  /-- RELEASE_KEY s (40_session.md R106). -/
  | releaseKey (slot : Fin 16)
  /-- ENCRYPT s (43_encrypt.md R170). -/
  | encrypt (slot : Fin 16)
  /-- DECRYPT s (44_decrypt.md R190). -/
  | decrypt (slot : Fin 16)
  deriving DecidableEq, Repr

end Sys2Proof
end

