-- ==== Sys2Proof/WellFormed.lean ====
section
/-! DEFINITION. Which commands and parameters are well formed (30_encoding.md R72; 00_scope.md R8). -/

namespace Sys2Proof

/-- The SLOT field of a command (30_encoding.md R70). -/
def Instr.slot : Instr → Fin 16
  | .nop s => s
  | .installKey s => s
  | .releaseKey s => s
  | .encrypt s => s
  | .decrypt s => s

/-- A command is well formed on a system with `nSlots` slots iff its slot exists; the check holds for every opcode,
NOP among them (30_encoding.md R72). -/
abbrev Instr.WellFormed (nSlots : Nat) (i : Instr) : Prop := i.slot.val < nSlots

/-- The ranges 00_scope.md R8 gives for the parameters. -/
abbrev Params.WellFormed (p : Params) : Prop :=
  p.base.toNat % 256 = 0 ∧ 1 ≤ p.nSlots ∧ p.nSlots ≤ 16 ∧ 16 ≤ p.scratchCap

end Sys2Proof
end

