-- ==== Sys2Proof/Machine/Operands.lean ====
section
/-! DEFINITION. Operand assembly (30_encoding.md R73, R74), argument validation (43_encrypt.md R171; 44_decrypt.md R191), the
ranges of each command with their admission and overlap (20_memory.md R51, R57; 43_encrypt.md R175; 44_decrypt.md R196). -/

namespace Sys2Proof.Machine

/-- The AAD is present iff AAD_LEN > 0 and AAD_ADDR ≠ 0 (43_encrypt.md R172). -/
def aadPresent (r : OperandRegs) : Bool := r.aadLen != 0#32 && r.aadAddr != 0#32

/-- ENCRYPT runs the hardware path iff SRC_LEN > 0 or the AAD is absent (43_encrypt.md R173). -/
def encHwPath (r : OperandRegs) : Bool := r.srcLen != 0#32 || !aadPresent r

/-- (KEY_ADDR, 32) (40_session.md R101). -/
def keyRange (r : OperandRegs) : Range := { addr := r.keyAddr, len := 32 }

/-- (IV_ADDR, 12). -/
def ivRange (r : OperandRegs) : Range := { addr := r.ivAddr, len := 12 }

/-- (SRC_ADDR, SRC_LEN). -/
def srcRange (r : OperandRegs) : Range := { addr := r.srcAddr, len := r.srcLen.toNat }

/-- (DST_ADDR, SRC_LEN). -/
def dstRange (r : OperandRegs) : Range := { addr := r.dstAddr, len := r.srcLen.toNat }

/-- (AAD_ADDR, AAD_LEN) when the AAD is present, else an empty range (43_encrypt.md R170, R172). -/
def aadRange (r : OperandRegs) : Range :=
  { addr := r.aadAddr, len := if aadPresent r then r.aadLen.toNat else 0 }

/-- ENCRYPT's tag output (TAG_ADDR, TAG_LEN) (43_encrypt.md R175). -/
def tagOutRange (r : OperandRegs) : Range := { addr := r.tagAddr, len := r.tagLen.toNat }

/-- DECRYPT's expected tag (TAG_ADDR, 16), whatever TAG_LEN is (44_decrypt.md R196). -/
def tagInRange (r : OperandRegs) : Range := { addr := r.tagAddr, len := 16 }

/-- The input ranges of a command (40_session.md R101; 43_encrypt.md R175; 44_decrypt.md R196). -/
def commandInputs (i : Instr) (r : OperandRegs) : List Range :=
  match i with
  | .nop _ => []
  | .installKey _ => [keyRange r]
  | .releaseKey _ => []
  | .encrypt _ => [ivRange r, srcRange r, aadRange r]
  | .decrypt _ => [ivRange r, srcRange r, aadRange r, tagInRange r]

/-- The output ranges of a command (43_encrypt.md R175; 44_decrypt.md R196; none for the session commands). -/
def commandOutputs (i : Instr) (r : OperandRegs) : List Range :=
  match i with
  | .nop _ => []
  | .installKey _ => []
  | .releaseKey _ => []
  | .encrypt _ => [dstRange r, tagOutRange r]
  | .decrypt _ => [dstRange r]

/-- ENCRYPT's ranges in the order they are checked: IV, source, destination, AAD, tag (43_encrypt.md R175). -/
def encRanges (r : OperandRegs) : List Range := [ivRange r, srcRange r, dstRange r, aadRange r, tagOutRange r]

/-- DECRYPT's ranges in the order they are checked: IV, source, destination, AAD, tag (44_decrypt.md R196). -/
def decRanges (r : OperandRegs) : List Range := [ivRange r, srcRange r, dstRange r, aadRange r, tagInRange r]

/-- Address `a` lies in the register window, BASE to BASE + 0xFF (10_state.md R22). -/
def inWindow (p : Params) (a : Nat) : Bool := p.base.toNat ≤ a && a < p.base.toNat + 256

/-- Admitted(a): the platform's predicate, false on the register window (00_scope.md R8; 20_memory.md R51). -/
def admittedByte (p : Params) (a : Nat) : Bool :=
  !inWindow p a && p.dmaRanges.any fun r => r.1 ≤ a && a < r.1 + r.2

/-- Admitted(a + i) for every i < n, the count `n` first. -/
def allAdmitted (p : Params) : Nat → Nat → Bool
  | 0, _ => true
  | n + 1, a => admittedByte p a && allAdmitted p n (a + 1)

/-- A range is admitted iff it is empty, or it does not pass 2^32 and each of its bytes is admitted (20_memory.md R51). -/
def admitted (p : Params) (r : Range) : Bool :=
  r.len == 0 || (r.addr.toNat + r.len ≤ 2 ^ 32 && allAdmitted p r.len r.addr.toNat)

/-- The start address of the first range that is not admitted (60_exceptions.md R219). -/
def firstUnadmitted (p : Params) : List Range → Option Word
  | [] => none
  | r :: rs => if admitted p r then firstUnadmitted p rs else some r.addr

/-- Two ranges overlap (20_memory.md R57). -/
def overlap (r q : Range) : Bool :=
  0 < r.len && 0 < q.len && r.addr.toNat < q.addr.toNat + q.len && q.addr.toNat < r.addr.toNat + r.len

/-- Two of the listed ranges overlap. -/
def overlapAmong : List Range → Bool
  | [] => false
  | r :: rs => rs.any (overlap r) || overlapAmong rs

/-- An output range of the command overlaps another of its ranges, input or output (20_memory.md R57). -/
def outputOverlap (i : Instr) (r : OperandRegs) : Bool :=
  (commandOutputs i r).any (fun o => (commandInputs i r).any (overlap o)) || overlapAmong (commandOutputs i r)

/-- The causes of BadArgument of ENCRYPT (43_encrypt.md R171). -/
def encBadArgument (i : Fin 16) (s : State) : Bool :=
  s.regs.ivAddr == 0#32 || s.regs.ivLen != 12#32 || s.regs.tagAddr == 0#32 || decide (16 < s.regs.tagLen.toNat)
    || (s.regs.srcLen != 0#32 && s.regs.srcAddr == 0#32) || !(slotAt s i).valid

/-- The causes of BadArgument of DECRYPT (44_decrypt.md R191). -/
def decBadArgument (i : Fin 16) (s : State) : Bool :=
  s.regs.srcAddr == 0#32 || s.regs.ivAddr == 0#32 || s.regs.tagAddr == 0#32 || s.regs.ivLen != 12#32
    || decide (s.regs.tagLen.toNat < 16) || !(slotAt s i).valid

/-- ENCRYPT's scratch allocation fails: SRC_LEN + 16 > SCRATCH_CAP, the sum exact (43_encrypt.md R174). -/
def encOutOfMemory (s : State) : Bool := encHwPath s.regs && decide (s.params.scratchCap < s.regs.srcLen.toNat + 16)

end Sys2Proof.Machine
end

