-- ==== Sys2Proof/Machine/Encrypt.lean ====
section
/-! DEFINITION. ENCRYPT (43_encrypt.md R170 to R180) and the engine initialisation both AEAD commands use (40_session.md R107). -/

namespace Sys2Proof.Machine

/-- ENGINE_INIT(s, IVREG) (40_session.md R107). -/
def engineInit (i : Fin 16) (s : State) : Engine :=
  { usage := (slotAt s i).usage, iv := s.trans.ivReg, key := (slotAt s i).key }

/-- IVREG <- MemRead(ivA, 12) ; J0REG <- J0(IVREG) (43_encrypt.md R170; 44_decrypt.md R190). -/
def loadIv (s : State) : State :=
  let iv := ivOfBytes (readRange (ivRange s.regs) s)
  setTrans { s.trans with ivReg := iv, j0Reg := j0Of iv } s

/-- Step 5's first line: SCRATCH[0 .. pL+16) <- HW_ENC(s, IVREG, plaintext) (43_encrypt.md R170; 42_ctr_controller.md R154). -/
def encTransform (i : Fin 16) (s : State) : State :=
  setTrans { s.trans with scratch := hwEnc (engineInit i s) (readRange (srcRange s.regs) s) } s

/-- Step 5: the hardware path, ciphertext and the first TAG_LEN bytes of T_cipher written from SCRATCH (43_encrypt.md R170). -/
def encHardware (i : Fin 16) (s : State) : State :=
  let t := encTransform i s
  let u := memWrite t.regs.dstAddr (t.trans.scratch.take t.regs.srcLen.toNat) t
  memWrite u.regs.tagAddr ((u.trans.scratch.drop u.regs.srcLen.toNat).take u.regs.tagLen.toNat) u

/-- Step 6, its first half: HSUB, then the first TAG_LEN bytes of GHASH_H(A, C) into the tag buffer, C read back from the
ciphertext buffer (43_encrypt.md R176 step 2b; 41_primitives.md R134). -/
def encGhashTag (i : Fin 16) (s : State) : State :=
  let h := hashSubkey (slotAt s i).key
  let g := ghash h (readRange (aadRange s.regs) s) (readRange (dstRange s.regs) s)
  memWrite s.regs.tagAddr ((blockBytes g).take s.regs.tagLen.toNat) (setTrans { s.trans with hSub := h } s)

/-- Step 6, its second half: SREG <- AES_K(J0REG) and the mask XORed into the tag buffer (43_encrypt.md R176 steps 2c, 2d;
41_primitives.md R137). -/
def encMaskTag (i : Fin 16) (s : State) : State :=
  let m := tagMask (slotAt s i).key s.trans.j0Reg
  memWrite s.regs.tagAddr (xorBytes (readRange (tagOutRange s.regs) s) ((blockBytes m).take s.regs.tagLen.toNat))
    (setTrans { s.trans with sReg := m } s)

/-- Step 6, the fold path, and the completion with OK (43_encrypt.md R170, R176, R178). -/
def encFinish (i : Fin 16) (s : State) : State :=
  let t := if aadPresent s.regs then encMaskTag i (encGhashTag i s) else s
  complete .ok (aadPresent s.regs) (encHwPath s.regs) (encGhcnt (aadPresent s.regs)) 0#32 t

/-- Steps 5 and 6 of ENCRYPT, every check passed; the transform may hang (42_ctr_controller.md R158). -/
def encRun (i : Fin 16) (s : State) : State :=
  let t := loadIv s
  if encHwPath t.regs then
    if hangDraw t then hangWith (commandOutputs (.encrypt i) t.regs) (afterHangDraw t)
    else encFinish i (encHardware i (afterHangDraw t))
  else encFinish i t

/-- ENCRYPT s (43_encrypt.md R170): BadArgument, OutOfMemory, BusError in that order, the refusal of overlapping ranges
(20_memory.md R57; log 8), then the two paths. -/
def execEncrypt (i : Fin 16) (s : State) : Host.Outcome State Fault Refusal :=
  if encBadArgument i s then .next (raise .badArgument s)
  else if encOutOfMemory s then .next (raise .outOfMemory s)
  else
    match firstUnadmitted s.params (encRanges s.regs) with
    | some a => .next (raiseBus a s)
    | none =>
      if outputOverlap (.encrypt i) s.regs then .refused .overlappingRanges else .next (encRun i s)

end Sys2Proof.Machine
end

