-- ==== Sys2Proof/Machine/Decrypt.lean ====
section
/-! DEFINITION. DECRYPT and the constant-time tag verifier (44_decrypt.md R190 to R200). -/

namespace Sys2Proof.Machine

/-- Texp: the first 16 bytes of the tag buffer (44_decrypt.md R190, R196). -/
def expectedTag (s : State) : Block := blockOfBytes (readRange (tagInRange s.regs) s)

/-- Step 4 with the AAD present: TAGR <- GHASH_H(ε, C), SREG <- AES_K(J0REG), TAGR <- TAGR ⊕ SREG (44_decrypt.md R192). -/
def decHwTag (i : Fin 16) (s : State) : State :=
  let k := (slotAt s i).key
  let h := hashSubkey k
  let m := tagMask k s.trans.j0Reg
  setTrans { s.trans with hSub := h, sReg := m, tagR := ghash h [] (readRange (srcRange s.regs) s) ^^^ m } s

/-- The lines of DECRYPT before the transform: IVREG, J0REG and, when the AAD is present, the tag for the hardware
(44_decrypt.md R190, R192). -/
def decPrepare (i : Fin 16) (s : State) : State :=
  if aadPresent s.regs then decHwTag i (loadIv s) else loadIv s

/-- The tag fed to the controller: TAGR when the AAD is present, else the caller's tag (44_decrypt.md R192). -/
def decTagForHw (s : State) : Block := if aadPresent s.regs then s.trans.tagR else expectedTag s

/-- Step 6's first lines: TAGR <- GHASH_H(A, C) ⊕ SREG with HSUB, `c` the ciphertext (44_decrypt.md R194, R200). -/
def decSoftTag (c : List Byte) (s : State) : State :=
  setTrans { s.trans with tagR := ghash s.trans.hSub (readRange (aadRange s.regs) s) c ^^^ s.trans.sReg } s

/-- The completion of a DECRYPT that ran, with its flags (44_decrypt.md R190, R199). -/
def decComplete (code : ErrCode) (s : State) : State :=
  complete code (aadPresent s.regs) true (decGhcnt (aadPresent s.regs)) 0#32 s

/-- `authfail`: the plaintext range is zeroed before completion (44_decrypt.md R195). -/
def decAuthFail (s : State) : State :=
  decComplete .authenticationFailure (memWrite s.regs.dstAddr (List.replicate s.regs.srcLen.toNat 0#8) s)

/-- Steps 5 and 6 after the transform: the plaintext written, the controller's check, the software check. `c` is the
ciphertext, `texp` the expected tag, `r` what HW_DEC returned (44_decrypt.md R190, R193, R194). -/
def decVerify (c : List Byte) (texp : Block) (r : List Byte × Bool) (s : State) : State :=
  let t := memWrite s.regs.dstAddr r.1 s
  if !r.2 then decAuthFail t
  else if aadPresent t.regs then
    let u := decSoftTag c t
    if ctEq16 texp u.trans.tagR then decComplete .ok u else decAuthFail u
  else decComplete .ok t

/-- Steps 4 to 6 of DECRYPT, every check passed; the transform may hang (42_ctr_controller.md R158). -/
def decRun (i : Fin 16) (s : State) : State :=
  let c := readRange (srcRange s.regs) s
  let texp := expectedTag s
  let t := decPrepare i s
  if hangDraw t then hangWith (commandOutputs (.decrypt i) t.regs) (afterHangDraw t)
  else decVerify c texp (hwDec (engineInit i t) c (decTagForHw t)) (afterHangDraw t)

/-- DECRYPT s (44_decrypt.md R190): BadArgument, BusError in that order, the refusal of overlapping ranges (20_memory.md R57;
log 8), then the run. -/
def execDecrypt (i : Fin 16) (s : State) : Host.Outcome State Fault Refusal :=
  if decBadArgument i s then .next (raise .badArgument s)
  else
    match firstUnadmitted s.params (decRanges s.regs) with
    | some a => .next (raiseBus a s)
    | none =>
      if outputOverlap (.decrypt i) s.regs then .refused .overlappingRanges else .next (decRun i s)

end Sys2Proof.Machine
end

