-- ==== Sys2Proof/Machine/Session.lean ====
section
/-! DEFINITION. NOP, INSTALL_KEY and RELEASE_KEY (40_session.md R100 to R106). -/

namespace Sys2Proof.Machine

/-- NOP s: `complete(OK)` (40_session.md R100). -/
def execNop (_i : Fin 16) (s : State) : Host.Outcome State Fault Refusal := .next (completeOk s)

/-- INSTALL_KEY after the device lookup: the DMA initialisation has been drawn, `s` is the state after the draw and `ok` its
outcome (40_session.md R101, R103 to R105). -/
def installAfterInit (i : Fin 16) (ok : Bool) (s : State) : State :=
  if !ok then raise .deviceInitFailed (unbindSlot i s)
  else if !admitted s.params (keyRange s.regs) then raiseBus s.regs.keyAddr (unbindSlot i s)
  else completeOk (bindSlot i (keyOfBytes (readRange (keyRange s.regs) s)) s.regs.usage s)

/-- INSTALL_KEY s (40_session.md R101): length check, device lookup (R102), DMA initialisation (R103), admission, binding
(R104); a failure after the length check unbinds the slot (R105). -/
def execInstallKey (i : Fin 16) (s : State) : Host.Outcome State Fault Refusal :=
  if s.regs.keyLen != 32#32 then .next (raise .badArgument s)
  else if !s.params.devicePresent then .next (raise .deviceUnavailable (unbindSlot i s))
  else .next (installAfterInit i (dmaInitDraw s) (afterDmaInitDraw s))

/-- RELEASE_KEY s: `unbind(s) ; complete(OK)` (40_session.md R106). -/
def execReleaseKey (i : Fin 16) (s : State) : Host.Outcome State Fault Refusal := .next (completeOk (unbindSlot i s))

end Sys2Proof.Machine
end

