-- ==== Sys2Proof/Machine/Dispatch.lean ====
section
/-! DEFINITION. The one match from a command to its meaning (30_encoding.md R71, R81). -/

namespace Sys2Proof.Machine

def exec (i : Instr) (s : State) : Host.Outcome State Fault Refusal :=
  match i with
  | .nop k => Sys2Proof.Machine.execNop k s
  | .installKey k => Sys2Proof.Machine.execInstallKey k s
  | .releaseKey k => Sys2Proof.Machine.execReleaseKey k s
  | .encrypt k => Sys2Proof.Machine.execEncrypt k s
  | .decrypt k => Sys2Proof.Machine.execDecrypt k s

end Sys2Proof.Machine
end

