-- ==== Sys2Proof/Decode.lean ====
section
/-! DEFINITION. Decoding and encoding of command words (30_encoding.md R70 to R78). -/

namespace Sys2Proof

/-- Why a word is no legal command (30_encoding.md R72, R76). Every one gives IllegalCommand. -/
inductive Reject where
  /-- RSVD, bits 31:12, is not 0. -/
  | reservedBits
  /-- OP is none of the five opcodes. -/
  | reservedOpcode
  /-- SLOT ≥ N_SLOTS. -/
  | slotOutOfRange
  deriving DecidableEq, Repr

/-- OP, bits 7:0 (30_encoding.md R70). -/
def opField (w : Word) : BitVec 8 := w.extractLsb' 0 8

/-- SLOT, bits 11:8 (30_encoding.md R70). -/
def slotField (w : Word) : Fin 16 := (w.extractLsb' 8 4).toFin

/-- RSVD, bits 31:12 (30_encoding.md R70). -/
def rsvdField (w : Word) : BitVec 20 := w.extractLsb' 12 20

/-- The command an opcode names (30_encoding.md R71), with its slot. -/
def commandOf (op : BitVec 8) (s : Fin 16) : Option Instr :=
  if op = 0x00#8 then some (.nop s)
  else if op = 0x01#8 then some (.installKey s)
  else if op = 0x02#8 then some (.releaseKey s)
  else if op = 0x10#8 then some (.encrypt s)
  else if op = 0x11#8 then some (.decrypt s)
  else none

/-- Decode an accepted word on a system with `nSlots` slots; total, rejecting by name (30_encoding.md R72). -/
def decode (nSlots : Nat) (w : Word) : Except Reject Instr :=
  if rsvdField w = 0#20 then
    match commandOf (opField w) (slotField w) with
    | none => .error .reservedOpcode
    | some i => if i.slot.val < nSlots then .ok i else .error .slotOutOfRange
  else .error .reservedBits

/-- The opcode of a command (30_encoding.md R71). -/
def Instr.opcode : Instr → BitVec 8
  | .nop _ => 0x00#8
  | .installKey _ => 0x01#8
  | .releaseKey _ => 0x02#8
  | .encrypt _ => 0x10#8
  | .decrypt _ => 0x11#8

/-- The word of a command, `(s << 8) | OP` (30_encoding.md R70). -/
def encode (i : Instr) : Word :=
  (BitVec.ofNat 32 i.slot.val <<< 8) ||| i.opcode.setWidth 32

/-- The command the decoder reads from the low `nbits` bits of `w`, every higher bit 0. A command word has 32 bits
(30_encoding.md R75) and arrives as one register value, so no byte order enters. Every value of the SLOT field is read
(`nSlots` = 16); the bound N_SLOTS of one system is the running machine's check (log 16). -/
def decodeTableWord (nbits w : Nat) : Option Instr :=
  match decode 16 (BitVec.ofNat 32 (w % 2 ^ nbits)) with
  | .ok i => some i
  | .error _ => none

end Sys2Proof
end

