-- ==== Sys2Proof/Machine/HostPort.lean ====
section
/-! DEFINITION. The host's side (10_state.md R22 to R29; 30_encoding.md R80, R82; 70_reset_and_hazards.md R240, R241, R244,
R245): the register window, acceptance of a command, host memory accesses, reset. -/

namespace Sys2Proof.Machine

/-- ID_VALUE (10_state.md R23). -/
def idValue : Word := 0x54464F07#32

/-- The word whose bit `i` is `f i` for `i` below 16 and 0 from there on. -/
def lowBitsWord (f : Fin 16 → Bool) : Word := (BitVec.ofBoolListLE ((List.finRange 16).map f)).setWidth 32

/-- SLOT_STATE: bit s is VALID[s] for s < N_SLOTS, every other bit 0 (10_state.md R28). -/
def slotState (s : State) : Word := lowBitsWord fun i => decide (i.val < s.params.nSlots) && (slotAt s i).valid

/-- What a read of the register window at offset `off` returns (10_state.md R22 to R29). -/
def readWindow (off : BitVec 8) (s : State) : Word :=
  if off = 0x00#8 then idValue
  else if off = 0x08#8 then statusWord s.status
  else if off = 0x0C#8 then s.errAddr
  else if off = 0x10#8 then s.regs.keyAddr
  else if off = 0x14#8 then s.regs.keyLen
  else if off = 0x18#8 then s.regs.usage
  else if off = 0x1C#8 then slotState s
  else if off = 0x20#8 then s.regs.ivAddr
  else if off = 0x24#8 then s.regs.ivLen
  else if off = 0x28#8 then s.regs.srcAddr
  else if off = 0x2C#8 then s.regs.srcLen
  else if off = 0x30#8 then s.regs.dstAddr
  else if off = 0x34#8 then s.regs.aadAddr
  else if off = 0x38#8 then s.regs.aadLen
  else if off = 0x3C#8 then s.regs.tagAddr
  else if off = 0x40#8 then s.regs.tagLen
  else 0#32

/-- The operand registers after a write at offset `off`: only the twelve RW offsets change one (10_state.md R22, R27). -/
def writeOperand (off : BitVec 8) (v : Word) (r : OperandRegs) : OperandRegs :=
  if off = 0x10#8 then { r with keyAddr := v }
  else if off = 0x14#8 then { r with keyLen := v }
  else if off = 0x18#8 then { r with usage := v }
  else if off = 0x20#8 then { r with ivAddr := v }
  else if off = 0x24#8 then { r with ivLen := v }
  else if off = 0x28#8 then { r with srcAddr := v }
  else if off = 0x2C#8 then { r with srcLen := v }
  else if off = 0x30#8 then { r with dstAddr := v }
  else if off = 0x34#8 then { r with aadAddr := v }
  else if off = 0x38#8 then { r with aadLen := v }
  else if off = 0x3C#8 then { r with tagAddr := v }
  else if off = 0x40#8 then { r with tagLen := v }
  else r

/-- The output ranges of the command in the word `w`; an illegal word has none. -/
def wordOutputs (p : Params) (w : Word) (r : OperandRegs) : List Range :=
  match decode p.nSlots w with
  | .ok i => commandOutputs i r
  | .error _ => []

/-- All ranges of the command in the word `w`, those the host hands over with it (70_reset_and_hazards.md R244, R245). -/
def wordRanges (p : Params) (w : Word) (r : OperandRegs) : List Range :=
  match decode p.nSlots w with
  | .ok i => commandInputs i r ++ commandOutputs i r
  | .error _ => []

/-- Acceptance of a command word (30_encoding.md R80); the command's ranges are handed over (70_reset_and_hazards.md R245). -/
def accept (w : Word) (s : State) : State :=
  { s with
    cmdLatch := w
    status := acceptedStatus
    errAddr := 0#32
    handed := wordRanges s.params w s.regs ++ s.handed }

/-- A register write was ignored because BUSY = 1: OVR <- 1 and nothing else (30_encoding.md R82). -/
def overrun (s : State) : State := { s with status := { s.status with ovr := true } }

/-- A 32-bit write to the register window (10_state.md R22, R24; 30_encoding.md R80, R82). -/
def writeWindow (off : BitVec 8) (v : Word) (s : State) : State :=
  if s.status.busy then overrun s
  else if off = 0x04#8 then accept v s
  else { s with regs := writeOperand off v s.regs }

/-- The host takes its ranges back by a read of STATUS that shows BUSY = 0 (70_reset_and_hazards.md R244, R245). -/
def handedAfterRead (off : BitVec 8) (s : State) : List Range :=
  if off = 0x08#8 && !s.status.busy then [] else s.handed

/-- A 32-bit read of the register window; it has no effect on TFO (20_memory.md R58). -/
def hostRead (off : BitVec 8) (s : State) : State :=
  { s with rdReg := readWindow off s, handed := handedAfterRead off s }

/-- The access is an aligned 32-bit one (20_memory.md R58). -/
def windowAccessDefined (off : BitVec 8) (size : AccessSize) : Bool := size == .word && off.toNat % 4 == 0

/-- The register window as a range (10_state.md R22). -/
def windowRange (p : Params) : Range := { addr := p.base, len := 256 }

/-- What stops a host memory access to the range `r`, if anything does: it passes the top of the address space (log 11), it
touches the register window (20_memory.md R58), or it touches a range handed over to TFO (70_reset_and_hazards.md R245). -/
def hostMemory (r : Range) (s t : State) : Host.Outcome State Fault Refusal :=
  if 2 ^ 32 < r.addr.toNat + r.len then .fault .noSuchAddress
  else if overlap r (windowRange s.params) then .refused .windowAccess
  else if s.handed.any (overlap r) then .refused .bufferDuty
  else .next t

/-- The memory and the draws when reset falls: the output ranges of a command in flight hold any value
(70_reset_and_hazards.md R241; log 14). -/
def cutByReset (s : State) : State :=
  if s.status.busy then havoc (wordOutputs s.params s.cmdLatch s.regs) s else s

/-- The reset event (70_reset_and_hazards.md R240, R241): every piece of TFO's state takes its reset value. The parameters, the
host's coming operations and what the host has read are not TFO's state. -/
def resetEvent (s : State) : State :=
  { State.resetOf s.params (cutByReset s).mem s.inputs (cutByReset s).draws with rdReg := s.rdReg, rdMem := s.rdMem }

/-- What one host operation does (70_reset_and_hazards.md R244); `idle` does nothing. -/
def hostAct (op : HostOp) (s : State) : Host.Outcome State Fault Refusal :=
  match op with
  | .regWrite off size v => if windowAccessDefined off size then .next (writeWindow off v s) else .refused .windowAccess
  | .regRead off size => if windowAccessDefined off size then .next (hostRead off s) else .refused .windowAccess
  | .memStore a bytes => hostMemory { addr := a, len := bytes.length } s (memWrite a bytes s)
  | .memLoad a n => hostMemory { addr := a, len := n } s { s with rdMem := readBytes s.mem a.toNat n }
  | .reset => .next (resetEvent s)
  | .idle => .next s

end Sys2Proof.Machine
end

