-- ==== Sys2Proof/Machine/Sequencer.lean ====
section
/-! DEFINITION. TFO's own step (30_encoding.md R81) and whose turn it is (log 1). -/

namespace Sys2Proof.Machine

/-- Exec: decode CMD_LATCH and perform the command, or raise IllegalCommand (30_encoding.md R72, R81; 60_exceptions.md R220). -/
def execLatched (s : State) : Host.Outcome State Fault Refusal :=
  match decode s.params.nSlots s.cmdLatch with
  | .ok i => exec i s
  | .error _ => .next (raise .illegalCommand s)

/-- TFO's turn: Exec while BUSY = 1 and HUNG = 0, otherwise nothing happens (30_encoding.md R81; 42_ctr_controller.md R158;
60_exceptions.md R233). -/
def tfoTurn (s : State) : Host.Outcome State Fault Refusal :=
  if s.status.busy && !s.hung then execLatched s else .next s

/-- The step for the host operation `op`, already taken off `inputs`: `idle` gives TFO its turn (log 1). -/
def hostTurn (op : HostOp) (s : State) : Host.Outcome State Fault Refusal :=
  if op = .idle then tfoTurn s else hostAct op s

/-- The host operations with TFO's turn put first; nothing need be put where no operation is to come (log 1). -/
def tfoFirst : List HostOp → List HostOp
  | [] => []
  | ops => .idle :: ops

end Sys2Proof.Machine
end

