-- ==== Sys2Proof/Machine/Step.lean ====
section
/-! DEFINITION. One step of the machine, and how the host's checks place a command (log 1). -/

namespace Sys2Proof.Machine

/-- One step: the next host operation, or TFO's turn when none is to come (log 1). -/
def step (s : State) : Host.Outcome State Fault Refusal :=
  match s.inputs with
  | [] => tfoTurn s
  | op :: rest => hostTurn op { s with inputs := rest }

/-- The state in which the command word in the low `nbits` bits of `w` has been accepted, TFO is not hung, and TFO has the
next turn, so that the very next step is Exec of that word (30_encoding.md R80, R81; log 1). -/
def State.withFetchWord (s : State) (nbits w : Nat) : State :=
  accept (BitVec.ofNat 32 (w % 2 ^ nbits)) { s with hung := false, inputs := tfoFirst s.inputs }

end Sys2Proof.Machine
end

