-- ==== Sys2Proof/Safety.lean ====
section
/-! DEFINITION. The terms claims are stated in: ranges and argument conditions as the spec words them, what an outcome
leaves unchanged, and the invariants of a safe run. -/

namespace Sys2Proof.Machine

/-- The AAD is present (43_encrypt.md R172). -/
abbrev AadIn (r : OperandRegs) : Prop := 0 < r.aadLen.toNat ∧ r.aadAddr ≠ 0#32

/-- ENCRYPT invokes the CTR controller (43_encrypt.md R173). -/
abbrev EncHw (r : OperandRegs) : Prop := 0 < r.srcLen.toNat ∨ ¬ AadIn r

/-- The length of the AAD a command works on: 0 when the AAD is absent (43_encrypt.md R170, R172). -/
def aadCount (r : OperandRegs) : Nat := if AadIn r then r.aadLen.toNat else 0

/-- The range is admitted (20_memory.md R51). -/
abbrev RangeAdmitted (p : Params) (a : Word) (n : Nat) : Prop :=
  n = 0 ∨ (a.toNat + n ≤ 2 ^ 32 ∧ ∀ i < n, admittedByte p (a.toNat + i) = true)

/-- Two ranges overlap (20_memory.md R57). -/
abbrev Overlaps (a : Word) (n : Nat) (b : Word) (m : Nat) : Prop :=
  0 < n ∧ 0 < m ∧ a.toNat < b.toNat + m ∧ b.toNat < a.toNat + n

/-- No cause of BadArgument of ENCRYPT holds (43_encrypt.md R171). -/
abbrev EncArgsGood (k : Fin 16) (s : State) : Prop :=
  s.regs.ivAddr ≠ 0#32 ∧ s.regs.ivLen = 12#32 ∧ s.regs.tagAddr ≠ 0#32 ∧ s.regs.tagLen.toNat ≤ 16
    ∧ (0 < s.regs.srcLen.toNat → s.regs.srcAddr ≠ 0#32) ∧ (slotAt s k).valid = true

/-- No cause of BadArgument of DECRYPT holds (44_decrypt.md R191). -/
abbrev DecArgsGood (k : Fin 16) (s : State) : Prop :=
  s.regs.srcAddr ≠ 0#32 ∧ s.regs.ivAddr ≠ 0#32 ∧ s.regs.tagAddr ≠ 0#32 ∧ s.regs.ivLen = 12#32
    ∧ 16 ≤ s.regs.tagLen.toNat ∧ (slotAt s k).valid = true

/-- ENCRYPT's scratch allocation succeeds or is not needed (43_encrypt.md R174). -/
abbrev ScratchEnough (s : State) : Prop := EncHw s.regs → s.regs.srcLen.toNat + 16 ≤ s.params.scratchCap

/-- A range given by its start and length. -/
abbrev Span := Word × Nat

/-- ENCRYPT's ranges in the order of 43_encrypt.md R175. -/
def encSpans (r : OperandRegs) : List Span :=
  [(r.ivAddr, 12), (r.srcAddr, r.srcLen.toNat), (r.dstAddr, r.srcLen.toNat), (r.aadAddr, aadCount r),
    (r.tagAddr, r.tagLen.toNat)]

/-- DECRYPT's ranges in the order of 44_decrypt.md R196. -/
def decSpans (r : OperandRegs) : List Span :=
  [(r.ivAddr, 12), (r.srcAddr, r.srcLen.toNat), (r.dstAddr, r.srcLen.toNat), (r.aadAddr, aadCount r), (r.tagAddr, 16)]

/-- Every listed range is admitted. -/
abbrev AllSpansAdmitted (p : Params) (l : List Span) : Prop := ∀ x ∈ l, RangeAdmitted p x.1 x.2

/-- An output range of ENCRYPT overlaps another of its ranges (20_memory.md R57; 43_encrypt.md R175). -/
abbrev EncOverlap (r : OperandRegs) : Prop :=
  Overlaps r.dstAddr r.srcLen.toNat r.ivAddr 12 ∨ Overlaps r.dstAddr r.srcLen.toNat r.srcAddr r.srcLen.toNat
    ∨ Overlaps r.dstAddr r.srcLen.toNat r.aadAddr (aadCount r)
    ∨ Overlaps r.dstAddr r.srcLen.toNat r.tagAddr r.tagLen.toNat
    ∨ Overlaps r.tagAddr r.tagLen.toNat r.ivAddr 12 ∨ Overlaps r.tagAddr r.tagLen.toNat r.srcAddr r.srcLen.toNat
    ∨ Overlaps r.tagAddr r.tagLen.toNat r.aadAddr (aadCount r)

/-- DECRYPT's output range overlaps another of its ranges (20_memory.md R57; 44_decrypt.md R196). -/
abbrev DecOverlap (r : OperandRegs) : Prop :=
  Overlaps r.dstAddr r.srcLen.toNat r.ivAddr 12 ∨ Overlaps r.dstAddr r.srcLen.toNat r.srcAddr r.srcLen.toNat
    ∨ Overlaps r.dstAddr r.srcLen.toNat r.aadAddr (aadCount r) ∨ Overlaps r.dstAddr r.srcLen.toNat r.tagAddr 16

/-- Every check of ENCRYPT passes and its outputs overlap nothing, so that it runs (43_encrypt.md R170). -/
abbrev EncReady (k : Fin 16) (s : State) : Prop :=
  EncArgsGood k s ∧ ScratchEnough s ∧ AllSpansAdmitted s.params (encSpans s.regs) ∧ ¬ EncOverlap s.regs

/-- Every check of DECRYPT passes and its output overlaps nothing, so that it runs (44_decrypt.md R190). -/
abbrev DecReady (k : Fin 16) (s : State) : Prop :=
  DecArgsGood k s ∧ AllSpansAdmitted s.params (decSpans s.regs) ∧ ¬ DecOverlap s.regs

/-- The key of the command's slot. -/
def keyOf (k : Fin 16) (s : State) : KeyBits := (slotAt s k).key

/-- J0(IV) of the IV in memory (41_primitives.md R135). -/
def j0In (s : State) : Block := j0Of (ivOfBytes (readBytes s.mem s.regs.ivAddr.toNat 12))

/-- The bytes of the source range: the plaintext of ENCRYPT, the ciphertext of DECRYPT. -/
def srcBytes (s : State) : List Byte := readBytes s.mem s.regs.srcAddr.toNat s.regs.srcLen.toNat

/-- The AAD if present and ε otherwise (A' of 43_encrypt.md R177 and 44_decrypt.md R198). -/
def aadBytes (s : State) : List Byte := readBytes s.mem s.regs.aadAddr.toNat (aadCount s.regs)

/-- The true GCM tag over (A, C): GHASH_H(A, C) ⊕ AES_K(J0) with H = AES_K(0^16) (41_primitives.md R137). -/
def gcmTag (k : KeyBits) (j0 : Block) (a c : List Byte) : Block := ghash (aes k 0#128) a c ^^^ aes k j0

/-- What no command changes: the parameters, the operand registers, CMD_LATCH, and the model's fields about the host
(10_state.md R40). -/
abbrev Frame (s t : State) : Prop :=
  t.params = s.params ∧ t.regs = s.regs ∧ t.cmdLatch = s.cmdLatch ∧ t.inputs = s.inputs ∧ t.handed = s.handed
    ∧ t.rdReg = s.rdReg ∧ t.rdMem = s.rdMem

/-- The command completed with this code, these flags and this ERR_ADDR: BUSY fell, OVR kept its value, every transient is
zero, HUNG kept its value (60_exceptions.md R210; 10_state.md R38). -/
abbrev Completed (s t : State) (code : ErrCode) (fold hwx : Bool) (ghcnt : BitVec 2) (ea : Word) : Prop :=
  t.status = { busy := false, ovr := s.status.ovr, fold := fold, hwx := hwx, ghcnt := ghcnt, err := code }
    ∧ t.errAddr = ea ∧ t.trans = Transients.zero ∧ t.hung = s.hung

/-- The command raised this error: completed with every flag 0 (60_exceptions.md R210). -/
abbrev Raised (s t : State) (code : ErrCode) (ea : Word) : Prop := Completed s t code false false 0#2 ea

/-- No slot changed. -/
abbrev SlotsSame (s t : State) : Prop := ∀ i, slotAt t i = slotAt s i

/-- No slot but `k` changed. -/
abbrev OtherSlotsSame (k : Fin 16) (s t : State) : Prop := ∀ i, i ≠ k → slotAt t i = slotAt s i

/-- Every byte of system memory outside the listed ranges reads as before. -/
abbrev MemSameOutside (l : List Span) (s t : State) : Prop :=
  ∀ a, (∀ x ∈ l, a < x.1.toNat ∨ x.1.toNat + x.2 ≤ a) → readByte t.mem a = readByte s.mem a

/-- The offsets of the twelve operand registers (10_state.md R22, R27). -/
def operandOffsets : List (BitVec 8) :=
  [0x10#8, 0x14#8, 0x18#8, 0x20#8, 0x24#8, 0x28#8, 0x2C#8, 0x30#8, 0x34#8, 0x38#8, 0x3C#8, 0x40#8]

/-- System memory is in its canonical form (20_memory.md R50; log 7). -/
abbrev MemCanonical (s : State) : Prop := Memory.wf s.mem

/-- A slot that is not bound holds no key and no usage tag, and a slot from N_SLOTS on is not bound (10_state.md R31, R30). -/
abbrev SlotsClean (s : State) : Prop :=
  (∀ i, (slotAt s i).valid = false → (slotAt s i).key = 0#256 ∧ (slotAt s i).usage = 0#32)
    ∧ ∀ i : Fin 16, s.params.nSlots ≤ i.val → (slotAt s i).valid = false

/-- Every transient register is zero whenever no command is in flight (10_state.md R38). -/
abbrev IdleClean (s : State) : Prop := s.status.busy = false → s.trans = Transients.zero

/-- While a command is in flight the fields that acceptance cleared stay clear, and a hung TFO is busy
(30_encoding.md R80, R83; 10_state.md R33). -/
abbrev BusyCleared (s : State) : Prop :=
  (s.status.busy = true → s.status.fold = false ∧ s.status.hwx = false ∧ s.status.ghcnt = 0#2 ∧ s.status.err = .ok
    ∧ s.errAddr = 0#32) ∧ (s.hung = true → s.status.busy = true)

/-- STATUS and ERR_ADDR hold only what a command can leave: never code 5, ERR_ADDR 0 unless the code is BusError, GHCNT 0, 1 or
2, and 0 unless the fold path ran (60_exceptions.md R211, R217; 10_state.md R25, R26). -/
abbrev StatusNamed (s : State) : Prop :=
  s.status.err ≠ .internalCryptoFailure ∧ (s.status.err ≠ .busError → s.errAddr = 0#32) ∧ s.status.ghcnt ≠ 3#2
    ∧ (s.status.fold = false → s.status.ghcnt = 0#2)

end Sys2Proof.Machine
end

