-- ==== Sys2Proof/Certificates/Slice0/Obligations.lean ====
section
/-! DEFINITION. The statements for the provers. -/

open Sys2Proof Sys2Proof.Machine

/-! ### Encoding (30_encoding.md) -/

/-- R70, R71, R72: decoding the word of a command whose slot exists gives the command back, for every command and slot. -/
def Obligations.DecodeOfEncode : Prop :=
  ∀ (n : Nat) (i : Instr), i.WellFormed n → decode n (encode i) = .ok i

/-- R70, R71, R72: a word that decodes is the word of the command it decodes to, so each legal word has one meaning, and the
command's slot exists. -/
def Obligations.EncodeOfDecode : Prop :=
  ∀ (n : Nat) (w : Word) (i : Instr), decode n w = .ok i → encode i = w ∧ i.WellFormed n

/-- R72: which words are legal. -/
def Obligations.LegalWordsAreExactly : Prop :=
  ∀ (n : Nat) (w : Word), (∃ i, decode n w = .ok i) ↔
    w.extractLsb' 12 20 = 0#20 ∧ w.extractLsb' 0 8 ∈ [0x00#8, 0x01#8, 0x02#8, 0x10#8, 0x11#8]
      ∧ (w.extractLsb' 8 4).toNat < n

/-- R78: the worked encodings, written out; an IllegalCommand word is one the decoder rejects. -/
def Obligations.WorkedEncodings : Prop :=
  decode 4 0x00000000#32 = .ok (.nop 0) ∧ decode 4 0x00000001#32 = .ok (.installKey 0)
    ∧ decode 4 0x00000102#32 = .ok (.releaseKey 1) ∧ decode 4 0x00000010#32 = .ok (.encrypt 0)
    ∧ decode 4 0x00000311#32 = .ok (.decrypt 3) ∧ decode 4 0x00001010#32 = .error .reservedBits
    ∧ decode 4 0x00000003#32 = .error .reservedOpcode ∧ decode 1 0x00000110#32 = .error .slotOutOfRange

/-! ### The step (30_encoding.md R81; log 1) -/

/-- R81, log 1: when BUSY = 1, HUNG = 0 and the latched word decodes to `i`, the step that gives TFO its turn is `exec i`: at
the state itself when no host operation is to come, and past the host's idling when one is. -/
def Obligations.StepRunsTheDecodedCommand : Prop :=
  ∀ (s : State) (i : Instr), s.status.busy = true → s.hung = false → decode s.params.nSlots s.cmdLatch = .ok i →
    (s.inputs = [] → step s = exec i s) ∧
    ∀ rest, s.inputs = .idle :: rest → step s = exec i { s with inputs := rest }

/-- R81, R158, log 1, log 17: a host operation that comes next is the step; while BUSY = 0 or HUNG = 1 a turn that TFO has, because
none is to come or because the host idles, changes nothing but that the host's idling is past. -/
def Obligations.StepWithoutExec : Prop :=
  (∀ (s : State) (op : HostOp) (rest : List HostOp), s.inputs = op :: rest → op ≠ .idle →
    step s = hostAct op { s with inputs := rest }) ∧
  ∀ s : State, (s.status.busy = false ∨ s.hung = true) →
    (s.inputs = [] → step s = .next s) ∧
    ∀ rest, s.inputs = .idle :: rest → step s = .next { s with inputs := rest }

/-- R220: a latched word with RSVD ≠ 0, a reserved OP or a SLOT ≥ N_SLOTS raises IllegalCommand and does nothing else: of the
registers only STATUS changes (the transients are zeroized, R38; ERR_ADDR is 0 in flight, R80), no slot changes, memory is
as it was. So in both turns that TFO can have (log 1): when no host operation is to come, and when the host idles. -/
def Obligations.IllegalWordRaisesIllegalCommand : Prop :=
  ∀ s : State, BusyCleared s → s.status.busy = true → s.hung = false →
    (s.cmdLatch.extractLsb' 12 20 ≠ 0#20 ∨ s.cmdLatch.extractLsb' 0 8 ∉ [0x00#8, 0x01#8, 0x02#8, 0x10#8, 0x11#8]
      ∨ s.params.nSlots ≤ (s.cmdLatch.extractLsb' 8 4).toNat) →
    (s.inputs = [] → step s = .next { s with
      status := { busy := false, ovr := s.status.ovr, fold := false, hwx := false, ghcnt := 0#2, err := .illegalCommand }
      trans := Transients.zero }) ∧
    ∀ rest, s.inputs = .idle :: rest → step s = .next { s with
      inputs := rest
      status := { busy := false, ovr := s.status.ovr, fold := false, hwx := false, ghcnt := 0#2, err := .illegalCommand }
      trans := Transients.zero }

/-! ### The host's side (10_state.md R22 to R29; 30_encoding.md R80, R82; 70_reset_and_hazards.md R244, R245) -/

/-- R80: acceptance. Nothing else changes but the model's own field `handed`, of which this statement says nothing. -/
def Obligations.CmdWriteIsAccepted : Prop :=
  ∀ (s : State) (w : Word), s.status.busy = false → ∃ h,
    hostAct (.regWrite 0x04#8 .word w) s = .next { s with
      cmdLatch := w
      status := { busy := true, ovr := false, fold := false, hwx := false, ghcnt := 0#2, err := .ok }
      errAddr := 0#32
      handed := h }

/-- R244, R245, log 10 (the model's own field `handed`): an accepted command hands over its ranges, no other register write
changes what is handed over, and the ranges are taken back by a read of STATUS that shows BUSY = 0 and by nothing else. -/
def Obligations.HandedRangesFollowTheDuty : Prop :=
  (∀ (s : State) (w : Word), s.status.busy = false → ∃ t, hostAct (.regWrite 0x04#8 .word w) s = .next t
    ∧ (∀ i, decode s.params.nSlots w = .ok i → t.handed = commandInputs i s.regs ++ commandOutputs i s.regs ++ s.handed)
    ∧ ((∀ i, decode s.params.nSlots w ≠ .ok i) → t.handed = s.handed)) ∧
  (∀ (s : State) (off : BitVec 8) (v : Word), off.toNat % 4 = 0 → (s.status.busy = true ∨ off ≠ 0x04#8) →
    ∃ t, hostAct (.regWrite off .word v) s = .next t ∧ t.handed = s.handed) ∧
  ∀ (s : State) (off : BitVec 8), off.toNat % 4 = 0 → ∃ t, hostAct (.regRead off .word) s = .next t
    ∧ t.handed = (if off = 0x08#8 ∧ s.status.busy = false then [] else s.handed)

/-- R82: a write to any offset while BUSY = 1 changes no register and sets OVR; a read returns the current value and changes
nothing, and STATUS shows BUSY = 1, OVR and the cleared fields of R80. -/
def Obligations.BusyWritesOnlySetOvr : Prop :=
  (∀ (s : State) (off : BitVec 8) (v : Word), off.toNat % 4 = 0 → s.status.busy = true →
    hostAct (.regWrite off .word v) s = .next { s with status := { s.status with ovr := true } } ∧
    hostAct (.regRead off .word) s = .next { s with rdReg := readWindow off s }) ∧
  ∀ s : State, BusyCleared s → s.status.busy = true →
    readWindow 0x08#8 s = (if s.status.ovr then 3#32 else 1#32) ∧ readWindow 0x0C#8 s = 0#32

/-- R22, R27: an operand register reads back the value last written, no other register of the window reads differently, and
nothing but the operand registers changes. -/
def Obligations.OperandRegisterReadsBack : Prop :=
  ∀ (s : State) (off : BitVec 8) (v : Word), s.status.busy = false → off ∈ operandOffsets →
    ∃ t, hostAct (.regWrite off .word v) s = .next t ∧ readWindow off t = v
      ∧ (∀ o, o ≠ off → readWindow o t = readWindow o s) ∧ t = { s with regs := t.regs }

/-- R22, R23, R24, R25, R26, R28, R29: a write while BUSY = 0 to an offset that is neither CMD nor an operand register is
ignored; ID reads 0x54464F07, CMD and the reserved offsets read 0. R58: in every state, BUSY or not, a register read returns
the current value and has no side effect on TFO (of the model's own field `handed` that clause says nothing, log 10; what the
read returned stands in `rdReg`, log 20). -/
def Obligations.FixedRegisters : Prop :=
  (∀ (s : State) (off : BitVec 8) (v : Word), s.status.busy = false → off.toNat % 4 = 0 → off ∉ operandOffsets →
    off ≠ 0x04#8 → hostAct (.regWrite off .word v) s = .next s) ∧
  (∀ (s : State) (off : BitVec 8), off.toNat % 4 = 0 →
    ∃ h, hostAct (.regRead off .word) s = .next { s with rdReg := readWindow off s, handed := h }) ∧
  ∀ s : State, readWindow 0x00#8 s = 0x54464F07#32 ∧ readWindow 0x04#8 s = 0#32
    ∧ readWindow 0x08#8 s = statusWord s.status ∧ readWindow 0x0C#8 s = s.errAddr
    ∧ ∀ off : BitVec 8, 0x44 ≤ off.toNat → readWindow off s = 0#32

/-- R25, R211: where the fields of STATUS stand, that the reserved bits read 0, and the number that each of the nine codes shows
in ERR, so that no two codes show the same one and 9 to 15 never stand there. -/
def Obligations.StatusWordLayout : Prop :=
  ∀ st : Status, (statusWord st).getLsbD 0 = st.busy ∧ (statusWord st).getLsbD 1 = st.ovr
    ∧ (statusWord st).getLsbD 2 = st.fold ∧ (statusWord st).getLsbD 3 = st.hwx
    ∧ (statusWord st).extractLsb' 4 2 = st.ghcnt ∧ (statusWord st).extractLsb' 6 2 = 0#2
    ∧ (statusWord st).extractLsb' 12 20 = 0#20
    ∧ (st.err = .ok → (statusWord st).extractLsb' 8 4 = 0#4)
    ∧ (st.err = .badArgument → (statusWord st).extractLsb' 8 4 = 1#4)
    ∧ (st.err = .outOfMemory → (statusWord st).extractLsb' 8 4 = 2#4)
    ∧ (st.err = .deviceUnavailable → (statusWord st).extractLsb' 8 4 = 3#4)
    ∧ (st.err = .deviceInitFailed → (statusWord st).extractLsb' 8 4 = 4#4)
    ∧ (st.err = .internalCryptoFailure → (statusWord st).extractLsb' 8 4 = 5#4)
    ∧ (st.err = .authenticationFailure → (statusWord st).extractLsb' 8 4 = 6#4)
    ∧ (st.err = .illegalCommand → (statusWord st).extractLsb' 8 4 = 7#4)
    ∧ (st.err = .busError → (statusWord st).extractLsb' 8 4 = 8#4)
    ∧ ((statusWord st).extractLsb' 8 4).toNat < 9

/-- R28: SLOT_STATE shows VALID, its other bits read 0, writes to it are ignored, it is 0 at reset. -/
def Obligations.SlotStateShowsValid : Prop :=
  ∀ s : State, s.params.nSlots ≤ 16 →
    (∀ i : Fin 16, i.val < s.params.nSlots → (readWindow 0x1C#8 s).getLsbD i.val = (slotAt s i).valid)
    ∧ (∀ j, s.params.nSlots ≤ j → (readWindow 0x1C#8 s).getLsbD j = false)
    ∧ (s.status.busy = false → ∀ v, hostAct (.regWrite 0x1C#8 .word v) s = .next s)
    ∧ ∀ m ops d, readWindow 0x1C#8 (State.resetOf s.params m ops d) = 0#32

/-- R50, R52, R53, R245: a host store outside the register window and outside every range handed over writes exactly its
bytes, byte i of the string at address a + i, and changes nothing else; a host load there returns the bytes that memory holds, in
address order, and changes nothing but what the host has read (log 20). -/
def Obligations.HostStoreWritesItsBytes : Prop :=
  (∀ (s : State) (a : Word) (bs : List Byte), MemCanonical s → a.toNat + bs.length ≤ 2 ^ 32 →
    ¬ Overlaps a bs.length s.params.base 256 → (∀ r ∈ s.handed, ¬ Overlaps a bs.length r.addr r.len) →
    ∃ t, hostAct (.memStore a bs) s = .next t ∧ readBytes t.mem a.toNat bs.length = bs
      ∧ MemSameOutside [(a, bs.length)] s t ∧ MemCanonical t ∧ t = { s with mem := t.mem }) ∧
  ∀ (s : State) (a : Word) (n : Nat), a.toNat + n ≤ 2 ^ 32 → ¬ Overlaps a n s.params.base 256 →
    (∀ r ∈ s.handed, ¬ Overlaps a n r.addr r.len) →
    ∃ t, hostAct (.memLoad a n) s = .next t ∧ t.rdMem.length = n
      ∧ (∀ i < n, t.rdMem.getD i 0#8 = readByte s.mem (a.toNat + i)) ∧ t = { s with rdMem := t.rdMem }

/-- R58 and the duty of R245 (logs 9, 10, 11): where a host access stops. A register access that is not an aligned 32-bit one
is refused, and so is a memory load or store that touches the register window or a range handed over; one past 2^32 faults. -/
def Obligations.HostAccessStops : Prop :=
  (∀ (s : State) (off : BitVec 8) (z : AccessSize) (v : Word), (z ≠ .word ∨ off.toNat % 4 ≠ 0) →
    hostAct (.regWrite off z v) s = .refused .windowAccess ∧ hostAct (.regRead off z) s = .refused .windowAccess) ∧
  ∀ (s : State) (a : Word) (n : Nat) (op : HostOp),
    (op = .memLoad a n ∨ ∃ bs : List Byte, bs.length = n ∧ op = .memStore a bs) →
    (2 ^ 32 < a.toNat + n → hostAct op s = .fault .noSuchAddress) ∧
    (a.toNat + n ≤ 2 ^ 32 → Overlaps a n s.params.base 256 → hostAct op s = .refused .windowAccess) ∧
    (a.toNat + n ≤ 2 ^ 32 → ¬ Overlaps a n s.params.base 256 → (∃ r ∈ s.handed, Overlaps a n r.addr r.len) →
      hostAct op s = .refused .bufferDuty)

/-! ### Session commands (40_session.md) -/

/-- R100: the word `(s << 8) | 0x00` is NOP s iff s < N_SLOTS; NOP completes with OK in every state and changes nothing else;
the transients are zeroized by completion (R38). -/
def Obligations.NopCompletes : Prop :=
  (∀ (n : Nat) (k : Fin 16), decode n (BitVec.ofNat 32 k.val <<< 8 ||| 0x00#32) = .ok (.nop k) ↔ k.val < n) ∧
  ∀ (s : State) (k : Fin 16), exec (.nop k) s = .next { s with
    status := { busy := false, ovr := s.status.ovr, fold := false, hwx := false, ghcnt := 0#2, err := .ok }
    errAddr := 0#32
    trans := Transients.zero }

/-- R106: the word `(s << 8) | 0x02` is RELEASE_KEY s iff s < N_SLOTS; RELEASE_KEY unbinds and zeroizes the slot and completes with OK in every state, leaves every other slot and memory
alone, changes no slot when the slot holds nothing, and afterwards ENCRYPT and DECRYPT on it raise BadArgument. -/
def Obligations.ReleaseKeyUnbinds : Prop :=
  (∀ (n : Nat) (k : Fin 16), decode n (BitVec.ofNat 32 k.val <<< 8 ||| 0x02#32) = .ok (.releaseKey k) ↔ k.val < n) ∧
  ∀ (s : State) (k : Fin 16), ∃ t, exec (.releaseKey k) s = .next t ∧ Completed s t .ok false false 0#2 0#32 ∧ Frame s t
    ∧ t.mem = s.mem ∧ t.draws = s.draws ∧ OtherSlotsSame k s t
    ∧ slotAt t k = { valid := false, key := 0#256, usage := 0#32 }
    ∧ (slotAt s k = { valid := false, key := 0#256, usage := 0#32 } → SlotsSame s t)
    ∧ (readWindow 0x1C#8 t).getLsbD k.val = false
    ∧ (∃ u, exec (.encrypt k) t = .next u ∧ Raised t u .badArgument 0#32)
    ∧ ∃ u, exec (.decrypt k) t = .next u ∧ Raised t u .badArgument 0#32

/-- R101, R104: INSTALL_KEY with KEY_LEN = 32, a device, a successful DMA initialisation and an admitted key range binds the
32 bytes at KEY_ADDR in address order and the usage tag, and completes with OK; memory and every other slot are as before. -/
def Obligations.InstallKeyBinds : Prop :=
  ∀ (s : State) (k : Fin 16), s.regs.keyLen = 32#32 → s.params.devicePresent = true → dmaInitDraw s = true →
    RangeAdmitted s.params s.regs.keyAddr 32 →
    ∃ t, exec (.installKey k) s = .next t ∧ Completed s t .ok false false 0#2 0#32 ∧ Frame s t ∧ t.mem = s.mem
      ∧ OtherSlotsSame k s t ∧ (slotAt t k).valid = true ∧ (slotAt t k).usage = s.regs.usage
      ∧ beBytes 32 (slotAt t k).key.toNat = readBytes s.mem s.regs.keyAddr.toNat 32

/-- R105, and R101's order of the errors (R221). A wrong KEY_LEN leaves every slot as it was; the three others unbind the slot;
every other slot is as before; INSTALL_KEY writes no memory on any outcome. -/
def Obligations.InstallKeyErrors : Prop :=
  ∀ (s : State) (k : Fin 16), (∀ t, exec (.installKey k) s = .next t → t.mem = s.mem) ∧
    (s.regs.keyLen ≠ 32#32 → ∃ t, exec (.installKey k) s = .next t ∧ Raised s t .badArgument 0#32 ∧ Frame s t
      ∧ t.mem = s.mem ∧ SlotsSame s t) ∧
    (s.regs.keyLen = 32#32 → s.params.devicePresent = false →
      ∃ t, exec (.installKey k) s = .next t ∧ Raised s t .deviceUnavailable 0#32 ∧ Frame s t ∧ t.mem = s.mem
        ∧ OtherSlotsSame k s t ∧ slotAt t k = { valid := false, key := 0#256, usage := 0#32 }) ∧
    (s.regs.keyLen = 32#32 → s.params.devicePresent = true → dmaInitDraw s = false →
      ∃ t, exec (.installKey k) s = .next t ∧ Raised s t .deviceInitFailed 0#32 ∧ Frame s t ∧ t.mem = s.mem
        ∧ OtherSlotsSame k s t ∧ slotAt t k = { valid := false, key := 0#256, usage := 0#32 }) ∧
    (s.regs.keyLen = 32#32 → s.params.devicePresent = true → dmaInitDraw s = true →
      ¬ RangeAdmitted s.params s.regs.keyAddr 32 →
      ∃ t, exec (.installKey k) s = .next t ∧ Raised s t .busError s.regs.keyAddr ∧ Frame s t ∧ t.mem = s.mem
        ∧ OtherSlotsSame k s t ∧ slotAt t k = { valid := false, key := 0#256, usage := 0#32 })

/-! ### ENCRYPT (43_encrypt.md) -/

/-- R171: ENCRYPT ends with BadArgument, with no effect but the completion and whatever memory holds, iff one of the six causes
holds. -/
def Obligations.EncryptBadArgument : Prop :=
  ∀ (s : State) (k : Fin 16),
    (¬ EncArgsGood k s → ∃ t, exec (.encrypt k) s = .next t ∧ Raised s t .badArgument 0#32 ∧ Frame s t ∧ t.mem = s.mem
      ∧ SlotsSame s t ∧ t.draws = s.draws
      ∧ ∀ m : Memory, exec (.encrypt k) { s with mem := m } = .next { t with mem := m }) ∧
    ∀ t, exec (.encrypt k) s = .next t → t.status.busy = false → t.status.err = .badArgument → ¬ EncArgsGood k s

/-- R174: ENCRYPT ends with OutOfMemory, with no effect but the completion and whatever memory holds, iff its arguments are good,
its hardware path runs and SRC_LEN + 16, computed exactly, is more than SCRATCH_CAP. -/
def Obligations.EncryptOutOfMemory : Prop :=
  ∀ (s : State) (k : Fin 16),
    (EncArgsGood k s → ¬ ScratchEnough s → ∃ t, exec (.encrypt k) s = .next t ∧ Raised s t .outOfMemory 0#32 ∧ Frame s t
      ∧ t.mem = s.mem ∧ SlotsSame s t ∧ t.draws = s.draws
      ∧ ∀ m : Memory, exec (.encrypt k) { s with mem := m } = .next { t with mem := m }) ∧
    ∀ t, exec (.encrypt k) s = .next t → t.status.busy = false → t.status.err = .outOfMemory →
      EncArgsGood k s ∧ EncHw s.regs ∧ s.params.scratchCap < s.regs.srcLen.toNat + 16

/-- R175, R219, R221: past validation and the scratch check, the first range of the order IV, source, destination, AAD, tag
that is not admitted ends ENCRYPT with BusError and its start address in ERR_ADDR; nothing else changes. -/
def Obligations.EncryptBusErrorNamesFirstRange : Prop :=
  ∀ (s : State) (k : Fin 16) (pre post : List Span) (x : Span), EncArgsGood k s → ScratchEnough s →
    encSpans s.regs = pre ++ x :: post → AllSpansAdmitted s.params pre → ¬ RangeAdmitted s.params x.1 x.2 →
    ∃ t, exec (.encrypt k) s = .next t ∧ Raised s t .busError x.1 ∧ Frame s t ∧ t.mem = s.mem ∧ SlotsSame s t
      ∧ t.draws = s.draws

/-- R177, with the flags of R178: an ENCRYPT completes with OK iff it runs and its transform does not hang; memory at
(DST_ADDR, SRC_LEN) then holds C = CTR_XFORM(K, J0, P), memory at (TAG_ADDR, TAG_LEN) the first TAG_LEN bytes of
GHASH_H(A', C) ⊕ AES_K(J0), and no other byte changed. -/
def Obligations.EncryptResult : Prop :=
  (∀ (s t : State) (k : Fin 16), exec (.encrypt k) s = .next t → t.status.busy = false → t.status.err = .ok →
    EncReady k s ∧ (EncHw s.regs → hangDraw s = false)) ∧
  ∀ (s : State) (k : Fin 16), MemCanonical s → EncReady k s → (EncHw s.regs → hangDraw s = false) →
    ∃ t, exec (.encrypt k) s = .next t
      ∧ Completed s t .ok (decide (AadIn s.regs)) (decide (EncHw s.regs)) (if AadIn s.regs then 1#2 else 0#2) 0#32
      ∧ Frame s t ∧ SlotsSame s t
      ∧ readBytes t.mem s.regs.dstAddr.toNat s.regs.srcLen.toNat = ctrXform (keyOf k s) (j0In s) (srcBytes s)
      ∧ readBytes t.mem s.regs.tagAddr.toNat s.regs.tagLen.toNat
          = (blockBytes (gcmTag (keyOf k s) (j0In s) (aadBytes s)
              (ctrXform (keyOf k s) (j0In s) (srcBytes s)))).take s.regs.tagLen.toNat
      ∧ MemSameOutside [(s.regs.dstAddr, s.regs.srcLen.toNat), (s.regs.tagAddr, s.regs.tagLen.toNat)] s t

/-- R178: the flags of every completion of ENCRYPT. -/
def Obligations.EncryptFlags : Prop :=
  ∀ (s t : State) (k : Fin 16), exec (.encrypt k) s = .next t → t.status.busy = false →
    (t.status.err = .ok → (t.status.fold = true ↔ AadIn s.regs) ∧ (t.status.hwx = true ↔ EncHw s.regs)
      ∧ t.status.ghcnt = (if AadIn s.regs then 1#2 else 0#2)) ∧
    (t.status.err ≠ .ok → t.status.fold = false ∧ t.status.hwx = false ∧ t.status.ghcnt = 0#2)

/-- R179: an ENCRYPT that ends with an error has read and written no byte of memory: whatever memory holds, it ends the same
way and memory is as it was. The error is BadArgument, OutOfMemory or BusError. -/
def Obligations.EncryptErrorTouchesNoMemory : Prop :=
  ∀ (s t : State) (k : Fin 16), exec (.encrypt k) s = .next t → t.status.busy = false → t.status.err ≠ .ok →
    (t.status.err = .badArgument ∨ t.status.err = .outOfMemory ∨ t.status.err = .busError) ∧ t.mem = s.mem ∧
    ∀ m : Memory, exec (.encrypt k) { s with mem := m } = .next { t with mem := m }

/-! ### DECRYPT (44_decrypt.md) -/

/-- R191: DECRYPT ends with BadArgument, with no effect but the completion and whatever memory holds, iff one of the six causes
holds. -/
def Obligations.DecryptBadArgument : Prop :=
  ∀ (s : State) (k : Fin 16),
    (¬ DecArgsGood k s → ∃ t, exec (.decrypt k) s = .next t ∧ Raised s t .badArgument 0#32 ∧ Frame s t ∧ t.mem = s.mem
      ∧ SlotsSame s t ∧ t.draws = s.draws
      ∧ ∀ m : Memory, exec (.decrypt k) { s with mem := m } = .next { t with mem := m }) ∧
    ∀ t, exec (.decrypt k) s = .next t → t.status.busy = false → t.status.err = .badArgument → ¬ DecArgsGood k s

/-- R196, R219, R221: past validation, the first range of the order IV, source, destination, AAD, tag (16 bytes) that is not
admitted ends DECRYPT with BusError and its start address in ERR_ADDR; nothing else changes. -/
def Obligations.DecryptBusErrorNamesFirstRange : Prop :=
  ∀ (s : State) (k : Fin 16) (pre post : List Span) (x : Span), DecArgsGood k s →
    decSpans s.regs = pre ++ x :: post → AllSpansAdmitted s.params pre → ¬ RangeAdmitted s.params x.1 x.2 →
    ∃ t, exec (.decrypt k) s = .next t ∧ Raised s t .busError x.1 ∧ Frame s t ∧ t.mem = s.mem ∧ SlotsSame s t
      ∧ t.draws = s.draws

/-- R195, R198, R199: a DECRYPT completes with OK or AuthenticationFailure iff it runs and its transform does not hang, with OK
iff the first 16 bytes of the tag buffer are the GCM tag of (K, IV, A', C), else with AuthenticationFailure. On OK the
plaintext range holds CTR_XFORM(K, J0, C); on failure it holds zeros; no other byte changed. -/
def Obligations.DecryptAcceptsExactlyTheTag : Prop :=
  (∀ (s t : State) (k : Fin 16), exec (.decrypt k) s = .next t → t.status.busy = false →
    (t.status.err = .ok ∨ t.status.err = .authenticationFailure) → DecReady k s ∧ hangDraw s = false) ∧
  ∀ (s : State) (k : Fin 16), MemCanonical s → DecReady k s → hangDraw s = false →
    ∃ t, exec (.decrypt k) s = .next t ∧ Frame s t ∧ SlotsSame s t
      ∧ MemSameOutside [(s.regs.dstAddr, s.regs.srcLen.toNat)] s t
      ∧ (readBytes s.mem s.regs.tagAddr.toNat 16 = blockBytes (gcmTag (keyOf k s) (j0In s) (aadBytes s) (srcBytes s)) →
          Completed s t .ok (decide (AadIn s.regs)) true (if AadIn s.regs then 2#2 else 0#2) 0#32
          ∧ readBytes t.mem s.regs.dstAddr.toNat s.regs.srcLen.toNat = ctrXform (keyOf k s) (j0In s) (srcBytes s))
      ∧ (readBytes s.mem s.regs.tagAddr.toNat 16 ≠ blockBytes (gcmTag (keyOf k s) (j0In s) (aadBytes s) (srcBytes s)) →
          Completed s t .authenticationFailure (decide (AadIn s.regs)) true (if AadIn s.regs then 2#2 else 0#2) 0#32
          ∧ readBytes t.mem s.regs.dstAddr.toNat s.regs.srcLen.toNat = List.replicate s.regs.srcLen.toNat 0#8)

/-- R197: with the AAD present the controller's own check passes for every ciphertext: the tag DECRYPT feeds it, in the state
in which it invokes the controller, is the controller's own tag. -/
def Obligations.HardwareCheckPassesWithAad : Prop :=
  ∀ (s : State) (k : Fin 16), AadIn s.regs →
    decTagForHw (decPrepare k s) = ctrTag (keyOf k s) (j0In s) (srcBytes s)
    ∧ (hwDec (engineInit k (decPrepare k s)) (srcBytes s) (decTagForHw (decPrepare k s))).2 = true

/-- R199: the flags of every completion of DECRYPT. -/
def Obligations.DecryptFlags : Prop :=
  ∀ (s t : State) (k : Fin 16), exec (.decrypt k) s = .next t → t.status.busy = false →
    ((t.status.err = .ok ∨ t.status.err = .authenticationFailure) → (t.status.fold = true ↔ AadIn s.regs)
      ∧ t.status.hwx = true ∧ t.status.ghcnt = (if AadIn s.regs then 2#2 else 0#2)) ∧
    ((t.status.err = .badArgument ∨ t.status.err = .busError) →
      t.status.fold = false ∧ t.status.hwx = false ∧ t.status.ghcnt = 0#2)

/-- R196, R191: DECRYPT reads 16 bytes of the tag buffer whatever TAG_LEN ≥ 16 is: another TAG_LEN ≥ 16 gives the same outcome
but for the register itself. -/
def Obligations.DecryptIgnoresTagLenAbove16 : Prop :=
  ∀ (s t : State) (k : Fin 16) (n : Word), 16 ≤ s.regs.tagLen.toNat → 16 ≤ n.toNat → exec (.decrypt k) s = .next t →
    exec (.decrypt k) { s with regs := { s.regs with tagLen := n } }
      = .next { t with regs := { t.regs with tagLen := n } }

/-! ### ENCRYPT and DECRYPT together -/

/-- R57, R175, R196, log 8: an AEAD command that passes every check and one of whose output ranges overlaps another of its
ranges is refused. -/
def Obligations.OverlappingRangesAreRefused : Prop :=
  (∀ (s : State) (k : Fin 16), EncArgsGood k s → ScratchEnough s → AllSpansAdmitted s.params (encSpans s.regs) →
    EncOverlap s.regs → exec (.encrypt k) s = .refused .overlappingRanges) ∧
  ∀ (s : State) (k : Fin 16), DecArgsGood k s → AllSpansAdmitted s.params (decSpans s.regs) → DecOverlap s.regs →
    exec (.decrypt k) s = .refused .overlappingRanges

/-- R158, R222, R226: when the draw says that the transform never completes, TFO hangs: HUNG = 1 and BUSY = 1, no error code, no
slot changes, and memory changes at most in the command's output ranges. -/
def Obligations.HangLeavesBusy : Prop :=
  (∀ (s : State) (k : Fin 16), MemCanonical s → EncReady k s → EncHw s.regs → hangDraw s = true →
    ∃ t, exec (.encrypt k) s = .next t ∧ t.hung = true ∧ t.status = { s.status with busy := true }
      ∧ t.errAddr = s.errAddr ∧ Frame s t ∧ SlotsSame s t
      ∧ MemSameOutside [(s.regs.dstAddr, s.regs.srcLen.toNat), (s.regs.tagAddr, s.regs.tagLen.toNat)] s t) ∧
  ∀ (s : State) (k : Fin 16), MemCanonical s → DecReady k s → hangDraw s = true →
    ∃ t, exec (.decrypt k) s = .next t ∧ t.hung = true ∧ t.status = { s.status with busy := true }
      ∧ t.errAddr = s.errAddr ∧ Frame s t ∧ SlotsSame s t
      ∧ MemSameOutside [(s.regs.dstAddr, s.regs.srcLen.toNat)] s t

/-- R40, R175, R196, R222: the frame of ENCRYPT and DECRYPT, whatever the outcome: only STATUS, ERR_ADDR, HUNG, the transients, the
draws and the bytes of the output ranges may change. -/
def Obligations.AeadFrame : Prop :=
  (∀ (s t : State) (k : Fin 16), MemCanonical s → exec (.encrypt k) s = .next t → Frame s t ∧ SlotsSame s t
    ∧ t.status.ovr = s.status.ovr ∧ MemCanonical t
    ∧ MemSameOutside [(s.regs.dstAddr, s.regs.srcLen.toNat), (s.regs.tagAddr, s.regs.tagLen.toNat)] s t) ∧
  ∀ (s t : State) (k : Fin 16), MemCanonical s → exec (.decrypt k) s = .next t → Frame s t ∧ SlotsSame s t
    ∧ t.status.ovr = s.status.ovr ∧ MemCanonical t
    ∧ MemSameOutside [(s.regs.dstAddr, s.regs.srcLen.toNat)] s t

/-- R198's round trip: an ENCRYPT with TAG_LEN = 16 that completes with OK, followed by a DECRYPT of its outputs with the same
slot, IV and AAD into a range `p` that overlaps none of its others, completes with OK and restores the plaintext. -/
def Obligations.EncryptThenDecryptRestores : Prop :=
  ∀ (s t u : State) (k : Fin 16) (p : Word), MemCanonical s → EncReady k s → s.regs.tagLen = 16#32 →
    exec (.encrypt k) s = .next t → t.status.busy = false →
    u = { t with regs := { t.regs with srcAddr := s.regs.dstAddr, dstAddr := p } } → DecReady k u → hangDraw u = false →
    ∃ v, exec (.decrypt k) u = .next v ∧ v.status.busy = false ∧ v.status.err = .ok
      ∧ readBytes v.mem p.toNat s.regs.srcLen.toNat = srcBytes s

/-! ### The units (41_primitives.md, 42_ctr_controller.md) -/

/-- R127, R125, R123: the known answers of AES-256 and of the key schedule, and the S-box table against its formula: SBOX(a) is the
affine image of the inverse of a, or of 0 for a = 0. -/
def Obligations.AesKnownAnswers : Prop :=
  aes 0x000102030405060708090a0b0c0d0e0f101112131415161718191a1b1c1d1e1f#256 0x00112233445566778899aabbccddeeff#128
      = 0x8ea2b7ca516745bfeafc49904b496089#128
    ∧ aes 0#256 0#128 = 0xdc95c078a2408989ad48a21492842087#128
    ∧ (keySchedule 0x000102030405060708090a0b0c0d0e0f101112131415161718191a1b1c1d1e1f#256).getD 59 0#32 = 0x6d68de36#32
    ∧ ∀ a : Byte, ∃ b : Byte, (gmul a b = 1#8 ∨ (a = 0#8 ∧ b = 0#8))
      ∧ sbox a = b ^^^ b.rotateLeft 1 ^^^ b.rotateLeft 2 ^^^ b.rotateLeft 3 ^^^ b.rotateLeft 4 ^^^ 0x63#8

/-- R131's corner cases: 0 and 1 of the field, x^1 • x^127, and the product is commutative. -/
def Obligations.FieldProductLaws : Prop :=
  (∀ x : Block, gf128Mul x 0#128 = 0#128 ∧ gf128Mul x 0x80000000000000000000000000000000#128 = x)
    ∧ gf128Mul 0x40000000000000000000000000000000#128 0x00000000000000000000000000000001#128
        = 0xe1000000000000000000000000000000#128
    ∧ ∀ x y : Block, gf128Mul x y = gf128Mul y x

/-- R132, R133, R156: the GHASH input M. With p and q the lengths of A and of C rounded up to multiples of 16, M has length
p + q + 16; A stands at its start and zeros up to p, C at p and zeros up to p + q, and, for lengths below 2^32, the two bit
lengths, 8 bytes each, at its end. GHASH is the last Y of the recurrence Y_0 = 0, Y_i = (Y_(i-1) ⊕ B_i) • H over the 16-byte
blocks of M. GHASH of nothing is 0; the known answers G_c and G_f of S3 (95_test_vectors.md 2.2); and HW_ENC of the empty
string is the tag mask. -/
def Obligations.GhashInputAndCorners : Prop :=
  (∀ (a c : List Byte) (p q : Nat), p = (a.length + 15) / 16 * 16 → q = (c.length + 15) / 16 * 16 →
    (ghashInput a c).length = p + q + 16
    ∧ (ghashInput a c).take a.length = a
    ∧ (∀ i, a.length ≤ i → i < p → (ghashInput a c)[i]? = some 0#8)
    ∧ ((ghashInput a c).drop p).take c.length = c
    ∧ (∀ i, p + c.length ≤ i → i < p + q → (ghashInput a c)[i]? = some 0#8)
    ∧ (a.length < 2 ^ 32 → c.length < 2 ^ 32 →
        (ghashInput a c).drop (p + q) = beBytes 8 (8 * a.length) ++ beBytes 8 (8 * c.length)
        ∧ beNat (beBytes 8 (8 * a.length)) = 8 * a.length ∧ beNat (beBytes 8 (8 * c.length)) = 8 * c.length))
    ∧ (∀ (h : Block) (a c : List Byte), ∃ y : Nat → Block, y 0 = 0#128
        ∧ (∀ i, 16 * i < (ghashInput a c).length →
            y (i + 1) = gf128Mul (y i ^^^ blockOfBytes (((ghashInput a c).drop (16 * i)).take 16)) h)
        ∧ ghash h a c = y ((ghashInput a c).length / 16))
    ∧ (∀ h : Block, ghash h [] [] = 0#128)
    ∧ ghash 0xacbef20579b4b8ebce889bac8732dad7#128 [] (beBytes 60 0x522dc1f099567d07f47f37a32a84427d643a8cdcbfe5c0c97598a2bd2555d1aa8cb08e48590dbb3da7b08b1056828838c5f61e6393ba7a0abcc9f662)
        = 0x16b3d37a28b641b5b0971f9c1887b531#128
    ∧ ghash 0xacbef20579b4b8ebce889bac8732dad7#128 (beBytes 20 0xfeedfacedeadbeeffeedfacedeadbeefabaddad2)
          (beBytes 60 0x522dc1f099567d07f47f37a32a84427d643a8cdcbfe5c0c97598a2bd2555d1aa8cb08e48590dbb3da7b08b1056828838c5f61e6393ba7a0abcc9f662)
        = 0x8bd0c4d8aacd391e67cca447e8c38f65#128
    ∧ ∀ e : Engine, hwEnc e [] = blockBytes (aes e.key (j0Of e.iv))
      ∧ ∀ t : Block, hwDec e [] t = ([], ctEq16 (aes e.key (j0Of e.iv)) t)

/-- R138: CT_EQ16 returns true iff its arguments are equal. -/
def Obligations.ComparatorIsEquality : Prop :=
  ∀ a b : Block, ctEq16 a b = true ↔ a = b

/-- R150, R136: the counter blocks. CB_0 = J0, CB_i = inc32(CB_(i-1)); for a 12-byte IV the counter field of CB_i holds i + 1
(modulo 2^32, which no command reaches, R152) and the other 12 bytes are the IV. -/
def Obligations.CounterSequence : Prop :=
  (∀ j : Block, counterBlock j 0 = j ∧ ∀ i, counterBlock j (i + 1) = inc32 (counterBlock j i))
    ∧ (∀ (iv : IvBits) (i : Nat), counterBlock (j0Of iv) i = iv ++ BitVec.ofNat 32 (i + 1))
    ∧ counterBlock (j0Of 0xcafebabefacedbaddecaf888#96) 1 = 0xcafebabefacedbaddecaf88800000002#128
    ∧ counterBlock (j0Of 0xcafebabefacedbaddecaf888#96) 4 = 0xcafebabefacedbaddecaf88800000005#128

/-- R151: |Y| = |X|, and Y[j] = X[j] ⊕ AES_K(CB_(⌊j/16⌋+1))[j mod 16] for every j. -/
def Obligations.KeystreamBytewise : Prop :=
  ∀ (k : KeyBits) (j0 : Block) (x : List Byte), (ctrXform k j0 x).length = x.length ∧
    ∀ j, j < x.length → (ctrXform k j0 x).getD j 0#8
      = x.getD j 0#8 ^^^ blockByte (aes k (counterBlock j0 (j / 16 + 1))) (j % 16)

/-- R159: CTR_XFORM undoes itself; HW_DEC accepts every ciphertext with its own tag; so decrypting HW_ENC's output with its own
tag gives the plaintext back and ok. -/
def Obligations.TransformLaws : Prop :=
  (∀ (k : KeyBits) (j0 : Block) (x : List Byte), ctrXform k j0 (ctrXform k j0 x) = x)
    ∧ (∀ (e : Engine) (c : List Byte), (hwDec e c (ctrTag e.key (j0Of e.iv) c)).2 = true)
    ∧ ∀ (e : Engine) (p : List Byte),
      hwDec e ((hwEnc e p).take p.length) (blockOfBytes ((hwEnc e p).drop p.length)) = (p, true)

/-! ### What cannot be learnt or carried over -/

/-- R109: no result depends on the usage tag: an AEAD command on a slot with another usage tag gives the same outcome but for
the tag itself. -/
def Obligations.UsageTagChangesNothing : Prop :=
  ∀ (s : State) (k : Fin 16) (v : Word) (i : Instr), (i = .encrypt k ∨ i = .decrypt k) →
    (∀ t, exec i s = .next t →
      exec i (setSlot k { slotAt s k with usage := v } s) = .next (setSlot k { slotAt s k with usage := v } t)) ∧
    ∀ r, exec i s = .refused r → exec i (setSlot k { slotAt s k with usage := v } s) = .refused r

/-- R110, R30: no register of the window reads differently when a slot's key or usage tag or a transient is different. -/
def Obligations.KeysAreNotReadable : Prop :=
  ∀ (s : State) (k : Fin 16) (key : KeyBits) (u : Word) (x : Transients) (off : BitVec 8),
    readWindow off (setTrans x (setSlot k { valid := (slotAt s k).valid, key := key, usage := u } s)) = readWindow off s

/-- R37: what a command computes does not depend on what an earlier one left in the transient registers: a command that
completes from one content of them completes in the very same state from any other. -/
def Obligations.NothingIsCarriedBetweenCommands : Prop :=
  ∀ (s t : State) (i : Instr) (x : Transients), exec i s = .next t → t.status.busy = false →
    exec i (setTrans x s) = .next t

/-! ### Rules of the whole machine -/

/-- R40, R30: no command writes an operand register or the latch; only INSTALL_KEY and RELEASE_KEY write a slot, and only the one they
name; NOP, INSTALL_KEY and RELEASE_KEY write no memory. -/
def Obligations.CommandsWriteOnlyTheirOwn : Prop :=
  ∀ (s t : State) (i : Instr), exec i s = .next t → Frame s t
    ∧ (∀ j, slotAt t j ≠ slotAt s j → (i = .installKey j ∨ i = .releaseKey j))
    ∧ (∀ k, (i = .nop k ∨ i = .installKey k ∨ i = .releaseKey k) → t.mem = s.mem)

/-- R210: every command ends Exec in a completion or a hang. A completion clears BUSY, keeps OVR, zeroizes the transients and
sets ERR_ADDR to 0 unless the code is BusError; NOP, INSTALL_KEY and RELEASE_KEY always complete (R261). -/
def Obligations.EveryCommandCompletesOrHangs : Prop :=
  ∀ (s t : State) (i : Instr), exec i s = .next t → t.status.ovr = s.status.ovr ∧
    ((t.status.busy = false ∧ t.hung = s.hung ∧ t.trans = Transients.zero
        ∧ (t.status.err ≠ .busError → t.errAddr = 0#32))
      ∨ (t.status.busy = true ∧ t.hung = true ∧ ∃ k, i = .encrypt k ∨ i = .decrypt k))

/-- R57: a command never faults, and the one refusal a command gives is the overlap of R57 for ENCRYPT and DECRYPT. -/
def Obligations.CommandsStopOnlyOnOverlap : Prop :=
  ∀ (s : State) (i : Instr), (∀ f, exec i s ≠ .fault f) ∧
    ∀ r, exec i s = .refused r → r = .overlappingRanges ∧ ∃ k, i = .encrypt k ∨ i = .decrypt k

/-- R33, R158, R240: while HUNG = 1 and BUSY = 1 every step that is not a reset leaves HUNG and BUSY set, and a reset clears
both. -/
def Obligations.OnlyResetEndsAHang : Prop :=
  ∀ s : State, s.hung = true → s.status.busy = true →
    (∀ t, (∀ rest, s.inputs ≠ .reset :: rest) → step s = .next t → t.hung = true ∧ t.status.busy = true) ∧
    ∀ rest, s.inputs = .reset :: rest → ∃ t, step s = .next t ∧ t.hung = false ∧ t.status.busy = false

/-- R83: while a command is in flight, nothing the host does short of a reset changes a register it can read, but for OVR. -/
def Obligations.HostSeesOnlyOvrChangeWhileBusy : Prop :=
  ∀ (s t : State) (op : HostOp), s.status.busy = true → op ≠ .reset → hostAct op s = .next t →
    (∀ off, off ≠ 0x08#8 → readWindow off t = readWindow off s)
    ∧ (t.status = s.status ∨ t.status = { s.status with ovr := true }) ∧ t.cmdLatch = s.cmdLatch

/-! ### Reset -/

/-- R39: the reset value of every piece of state, for every system's parameters and whatever memory holds. -/
def Obligations.ResetValues : Prop :=
  ∀ (p : Params) (m : Memory) (ops : List HostOp) (d : Draws),
    readWindow 0x00#8 (State.resetOf p m ops d) = 0x54464F07#32
    ∧ statusWord (State.resetOf p m ops d).status = 0#32 ∧ (State.resetOf p m ops d).errAddr = 0#32
    ∧ (∀ off ∈ operandOffsets, readWindow off (State.resetOf p m ops d) = 0#32)
    ∧ readWindow 0x1C#8 (State.resetOf p m ops d) = 0#32
    ∧ (∀ i, slotAt (State.resetOf p m ops d) i = { valid := false, key := 0#256, usage := 0#32 })
    ∧ (State.resetOf p m ops d).cmdLatch = 0#32 ∧ (State.resetOf p m ops d).hung = false
    ∧ (State.resetOf p m ops d).trans = ⟨0#96, 0#128, 0#128, 0#128, 0#128, []⟩
    ∧ (State.resetOf p m ops d).mem = m ∧ (State.resetOf p m ops d).params = p

/-- R240, R241: reset is enabled in every state and gives the reset state; system memory changes only in the output ranges of a
command in flight, and not at all when none is. -/
def Obligations.ResetEventEverywhere : Prop :=
  ∀ s : State, MemCanonical s → ∃ t, hostAct .reset s = .next t
    ∧ t = { State.resetOf s.params t.mem s.inputs t.draws with rdReg := s.rdReg, rdMem := s.rdMem } ∧ MemCanonical t
    ∧ (s.status.busy = false → t.mem = s.mem)
    ∧ (∀ i, decode s.params.nSlots s.cmdLatch = .ok i →
        MemSameOutside ((commandOutputs i s.regs).map fun r => (r.addr, r.len)) s t)
    ∧ ((∀ i, decode s.params.nSlots s.cmdLatch ≠ .ok i) → t.mem = s.mem)

/-! ### Invariants of every step -/

/-- R8, log 3: no step changes the system's parameters. -/
def Obligations.StepKeepsParams : Prop :=
  ∀ s t : State, step s = .next t → t.params = s.params

/-- R50, log 7: every step keeps system memory in its canonical form, inside the 32-bit space. -/
def Obligations.StepKeepsMemoryCanonical : Prop :=
  ∀ s t : State, MemCanonical s → step s = .next t → MemCanonical t

/-- R31: every step keeps unbound slots zeroized. Model's choice, log 16 (DESIGN CHOICE): State has sixteen slot entries whatever
N_SLOTS is, and every step keeps those from N_SLOTS on, which the spec does not give the machine, unbound. -/
def Obligations.StepKeepsSlotsClean : Prop :=
  ∀ s t : State, SlotsClean s → step s = .next t → SlotsClean t

/-- R38: every step keeps the transient registers zero whenever no command is in flight. -/
def Obligations.StepKeepsIdleTransientsZero : Prop :=
  ∀ s t : State, IdleClean s → step s = .next t → IdleClean t

/-- R80, R83, R33: every step keeps the fields that acceptance cleared clear while BUSY = 1, and a hung TFO busy. -/
def Obligations.StepKeepsBusyFieldsClear : Prop :=
  ∀ s t : State, BusyCleared s → step s = .next t → BusyCleared t

/-- R211, R217, R25, R26: every step leaves in STATUS and ERR_ADDR only what a command can leave: never InternalCryptoFailure, ERR_ADDR 0
unless BusError, GHCNT 0, 1 or 2. -/
def Obligations.StepKeepsStatusNamed : Prop :=
  ∀ s t : State, StatusNamed s → step s = .next t → StatusNamed t

/-- Every invariant above holds after reset, for every system's parameters. `State.reset` is the reset state of the parameters,
memory, host operations and draws that logs 1, 2, 4, 5 and 7 choose, and those parameters are in the ranges of R8. -/
def Obligations.InvariantsHoldAtReset : Prop :=
  (∀ (p : Params) (m : Memory) (ops : List HostOp) (d : Draws), Memory.wf m →
    MemCanonical (State.resetOf p m ops d) ∧ SlotsClean (State.resetOf p m ops d) ∧ IdleClean (State.resetOf p m ops d)
    ∧ BusyCleared (State.resetOf p m ops d) ∧ StatusNamed (State.resetOf p m ops d))
  ∧ State.reset = State.resetOf Params.standard [] [] Draws.free ∧ MemCanonical State.reset
  ∧ State.reset.params.WellFormed
end

