-- ==== Sys2Proof/Laws/Bytes.lean ====
section
/-! SUPPORT. The laws of byte strings and the registers they fill. -/

namespace Sys2Proof.Machine

theorem beNat_append_singleton (l : List Byte) (b : Byte) : beNat (l ++ [b]) = beNat l * 256 + b.toNat := by
  simp [beNat]

theorem beNat_lt (l : List Byte) : beNat l < 256 ^ l.length := by
  induction l using List.reverseRecOn with
  | nil => simp [beNat]
  | append_singleton l b ih =>
    rw [beNat_append_singleton, List.length_append, List.length_singleton, pow_succ]
    have := b.isLt
    omega

@[simp] theorem length_beBytes (n v : Nat) : (beBytes n v).length = n := by simp [beBytes]

theorem getElem_beBytes (n v i : Nat) (h : i < (beBytes n v).length) :
    (beBytes n v)[i] = BitVec.ofNat 8 (v >>> (8 * (n - 1 - i))) := by simp [beBytes]

/-- The last byte of a number's bytes is its remainder, the others are those of its quotient. -/
theorem beBytes_succ (n v : Nat) : beBytes (n + 1) v = beBytes n (v / 256) ++ [BitVec.ofNat 8 v] := by
  apply List.ext_getElem (by simp)
  intro i h1 h2
  simp only [length_beBytes] at h1
  rw [getElem_beBytes]
  by_cases hi : i < n
  · rw [List.getElem_append_left (by simpa using hi), getElem_beBytes]
    congr 1
    rw [show 8 * (n + 1 - 1 - i) = 8 + 8 * (n - 1 - i) by omega, Nat.shiftRight_add,
      Nat.shiftRight_eq_div_pow v 8]
  · have : i = n := by omega
    subst this
    simp

/-- The bytes of the number that a string spells are the string. -/
theorem beBytes_beNat (l : List Byte) : beBytes l.length (beNat l) = l := by
  induction l using List.reverseRecOn with
  | nil => rfl
  | append_singleton l b ih =>
    rw [beNat_append_singleton, List.length_append, List.length_singleton, beBytes_succ]
    have hb := b.isLt
    have h1 : (beNat l * 256 + b.toNat) / 256 = beNat l := by omega
    rw [h1, ih]
    congr 2
    apply BitVec.eq_of_toNat_eq
    simp only [BitVec.toNat_ofNat]
    omega

/-- The number that a number's bytes spell is the number. -/
theorem beNat_beBytes (n v : Nat) (h : v < 256 ^ n) : beNat (beBytes n v) = v := by
  induction n generalizing v with
  | zero => simp at h; subst h; rfl
  | succ n ih =>
    have h' : v / 256 < 256 ^ n := by rw [pow_succ] at h; omega
    rw [beBytes_succ, beNat_append_singleton, ih _ h', BitVec.toNat_ofNat]
    omega

@[simp] theorem length_padTo (n : Nat) (l : List Byte) : (padTo n l).length = n := by
  simp [padTo]
  omega

theorem padTo_self {n : Nat} {l : List Byte} (h : l.length = n) : padTo n l = l := by
  subst h
  simp [padTo]

@[simp] theorem length_blockBytes (x : Block) : (blockBytes x).length = 16 := by simp [blockBytes]

theorem beNat_padTo_lt (n : Nat) (l : List Byte) : beNat (padTo n l) < 256 ^ n := by
  have := beNat_lt (padTo n l)
  rwa [length_padTo] at this

@[simp] theorem toNat_blockOfBytes (l : List Byte) : (blockOfBytes l).toNat = beNat (padTo 16 l) := by
  have := beNat_padTo_lt 16 l
  rw [blockOfBytes, BitVec.toNat_ofNat, Nat.mod_eq_of_lt]
  simpa using this

/-- A block's bytes spell the block. -/
@[simp] theorem blockOfBytes_blockBytes (x : Block) : blockOfBytes (blockBytes x) = x := by
  apply BitVec.eq_of_toNat_eq
  rw [toNat_blockOfBytes, padTo_self (length_blockBytes x), blockBytes, beNat_beBytes]
  have := x.isLt
  simpa using this

/-- The block that 16 bytes spell has those bytes. -/
theorem blockBytes_blockOfBytes {l : List Byte} (h : l.length = 16) : blockBytes (blockOfBytes l) = l := by
  rw [blockBytes, toNat_blockOfBytes, padTo_self h]
  conv_lhs => rw [← h]
  exact beBytes_beNat l

/-- Two blocks with the same bytes are equal. -/
theorem blockBytes_injective {x y : Block} (h : blockBytes x = blockBytes y) : x = y := by
  rw [← blockOfBytes_blockBytes x, h, blockOfBytes_blockBytes]

theorem getElem_blockBytes (x : Block) (i : Nat) (h : i < (blockBytes x).length) :
    (blockBytes x)[i] = blockByte x i := by
  apply BitVec.eq_of_toNat_eq
  rw [length_blockBytes] at h
  simp only [blockBytes, blockByte]
  rw [getElem_beBytes]
  simp

/-- Byte `i` of the exclusive-or of two blocks. -/
@[simp] theorem blockByte_xor (x y : Block) (i : Nat) : blockByte (x ^^^ y) i = blockByte x i ^^^ blockByte y i := by
  simp [blockByte, BitVec.extractLsb'_xor]

@[simp] theorem length_xorBytes (a b : List Byte) : (xorBytes a b).length = min a.length b.length := by
  simp [xorBytes]

/-- The bytes of the exclusive-or of two blocks. -/
theorem blockBytes_xor (x y : Block) : blockBytes (x ^^^ y) = xorBytes (blockBytes x) (blockBytes y) := by
  apply List.ext_getElem (by simp)
  intro i h1 h2
  rw [getElem_blockBytes]
  simp only [xorBytes, List.getElem_zipWith]
  rw [getElem_blockBytes, getElem_blockBytes, blockByte_xor]

/-- Exclusive-or with the same string twice gives the string back. -/
theorem xorBytes_xorBytes (a b : List Byte) (h : a.length ≤ b.length) : xorBytes (xorBytes a b) b = a := by
  apply List.ext_getElem (by simp; omega)
  intro i h1 h2
  simp [xorBytes]

/-- The number the IV register holds. -/
theorem beBytes_ivOfBytes {l : List Byte} (h : l.length = 12) : beBytes 12 (ivOfBytes l).toNat = l := by
  have hl := beNat_lt l
  rw [h] at hl
  rw [ivOfBytes, padTo_self h, BitVec.toNat_ofNat, Nat.mod_eq_of_lt (by simpa using hl)]
  conv_lhs => rw [← h]
  exact beBytes_beNat l

/-- The key register holds the 32 bytes it was loaded with. -/
theorem beBytes_keyOfBytes {l : List Byte} (h : l.length = 32) : beBytes 32 (keyOfBytes l).toNat = l := by
  have hl := beNat_lt l
  rw [h] at hl
  rw [keyOfBytes, padTo_self h, BitVec.toNat_ofNat, Nat.mod_eq_of_lt (by simpa using hl)]
  conv_lhs => rw [← h]
  exact beBytes_beNat l

end Sys2Proof.Machine
end

