-- ==== Sys2Proof/Laws/Crypto.lean ====
section
/-! SUPPORT. The lengths of what the units produce. -/

namespace Sys2Proof.Machine

@[simp] theorem length_keystream (k : KeyBits) (j0 : Block) (n : Nat) : (keystream k j0 n).length = 16 * n := by
  simp [keystream, Nat.mul_comm]

@[simp] theorem length_ctrXform (k : KeyBits) (j0 : Block) (x : List Byte) : (ctrXform k j0 x).length = x.length := by
  rw [ctrXform, length_xorBytes, length_keystream]
  omega

@[simp] theorem length_hwEnc (e : Engine) (p : List Byte) : (hwEnc e p).length = p.length + 16 := by simp [hwEnc]

/-- The ciphertext part of what HW_ENC returns. -/
theorem hwEnc_take (e : Engine) (p : List Byte) : (hwEnc e p).take p.length = ctrXform e.key (engineJ0 e) p := by
  rw [hwEnc, List.take_left' (length_ctrXform _ _ _)]

/-- The tag part of what HW_ENC returns. -/
theorem hwEnc_drop (e : Engine) (p : List Byte) :
    (hwEnc e p).drop p.length = blockBytes (ctrTag e.key (engineJ0 e) (ctrXform e.key (engineJ0 e) p)) := by
  rw [hwEnc, List.drop_left' (length_ctrXform _ _ _)]

@[simp] theorem hwDec_fst (e : Engine) (c : List Byte) (t : Block) :
    (hwDec e c t).1 = ctrXform e.key (engineJ0 e) c := rfl

end Sys2Proof.Machine
end

