-- ==== Sys2Proof/Laws/Memory.lean ====
section
/-! SUPPORT. The laws of system memory: the canonical form is kept, a read after a write gives what was written, and a
write leaves every other byte alone. -/

namespace Sys2Proof.Machine

/-- A byte below every listed address reads as unlisted. -/
theorem readByte_below (m : Memory) (a : Nat) (h : ∀ c ∈ m, a < c.1) : readByte m a = Memory.unlisted := by
  cases m with
  | nil => rfl
  | cons c m => simp [readByte, h c (by simp)]

theorem wf_tail {c : Host.Cell} {m : Memory} (h : Memory.wf (c :: m)) : Memory.wf m :=
  ⟨(List.pairwise_cons.mp h.1).2, fun d hd => h.2 d (List.mem_cons_of_mem _ hd)⟩

theorem wf_head_lt {c : Host.Cell} {m : Memory} (h : Memory.wf (c :: m)) : ∀ d ∈ m, c.1 < d.1 :=
  (List.pairwise_cons.mp h.1).1

/-- The addresses after a write are the old ones and, at most, the written one. -/
theorem mem_writeByte {m : Memory} {a : Nat} {v : Byte} {c : Host.Cell} (h : c ∈ writeByte m a v) :
    c ∈ m ∨ (c = (a, v) ∧ v ≠ Memory.unlisted) := by
  induction m with
  | nil =>
    simp only [writeByte] at h
    split at h
    · exact absurd h (by simp)
    · exact .inr ⟨by simpa using h, ‹_›⟩
  | cons d m ih =>
    simp only [writeByte] at h
    split_ifs at h with h1 h2 h3 h4
    · exact .inl h
    · rcases List.mem_cons.mp h with h | h
      · exact .inr ⟨h, h2⟩
      · exact .inl h
    · exact .inl (List.mem_cons_of_mem _ h)
    · rcases List.mem_cons.mp h with h | h
      · exact .inr ⟨h, h4⟩
      · exact .inl (List.mem_cons_of_mem _ h)
    · rcases List.mem_cons.mp h with h | h
      · exact .inl (by simp [h])
      · exact (ih h).imp (List.mem_cons_of_mem _) id

/-- A write inside the address space keeps the canonical form. -/
theorem writeByte_wf {m : Memory} {a : Nat} (v : Byte) (hm : Memory.wf m) (ha : a < 2 ^ 32) :
    Memory.wf (writeByte m a v) := by
  refine ⟨?_, fun c hc => ?_⟩
  · induction m with
    | nil => simp only [writeByte]; split <;> simp
    | cons d m ih =>
      have hlt := wf_head_lt hm
      have hp := hm.1
      simp only [writeByte]
      split_ifs with h1 h2 h3 h4
      · exact hp
      · refine List.pairwise_cons.mpr ⟨fun c hc => ?_, hp⟩
        rcases List.mem_cons.mp hc with rfl | hc
        · exact h1
        · exact lt_trans h1 (hlt c hc)
      · exact (wf_tail hm).1
      · exact List.pairwise_cons.mpr ⟨fun c hc => h3 ▸ hlt c hc, (wf_tail hm).1⟩
      · refine List.pairwise_cons.mpr ⟨fun c hc => ?_, ih (wf_tail hm)⟩
        rcases mem_writeByte hc with hc | ⟨rfl, -⟩
        · exact hlt c hc
        · have : d.1 ≠ a := fun e => h3 e.symm
          show d.1 < a
          omega
  · rcases mem_writeByte hc with hc | ⟨rfl, hv⟩
    · exact hm.2 c hc
    · exact ⟨ha, hv⟩

/-- Reading the written byte gives the value written. -/
theorem readByte_writeByte_same {m : Memory} (a : Nat) (v : Byte) (hm : Memory.wf m) :
    readByte (writeByte m a v) a = v := by
  induction m with
  | nil => simp only [writeByte]; split <;> simp_all [readByte]
  | cons d m ih =>
    simp only [writeByte]
    split_ifs with h1 h2 h3 h4
    · simp [readByte, h1, h2]
    · simp [readByte]
    · rw [readByte_below _ _ (fun c hc => h3 ▸ wf_head_lt hm c hc), h4]
    · simp [readByte]
    · simp [readByte, h1, h3, ih (wf_tail hm)]

/-- Reading any other byte gives what it was. -/
theorem readByte_writeByte_other {m : Memory} {a b : Nat} (v : Byte) (hm : Memory.wf m) (hab : b ≠ a) :
    readByte (writeByte m a v) b = readByte m b := by
  induction m with
  | nil =>
    simp only [writeByte]
    split
    · rfl
    · simp [readByte, hab]
  | cons d m ih =>
    simp only [writeByte]
    split_ifs with h1 h2 h3 h4
    · rfl
    · by_cases hb : b < a
      · have : b < d.1 := by omega
        simp [readByte, hb, this]
      · rw [readByte]; simp [hb, hab]
    · by_cases hb : b < d.1
      · simp only [readByte, hb, if_true]
        exact readByte_below _ _ fun c hc => lt_trans hb (wf_head_lt hm c hc)
      · have : b ≠ d.1 := by omega
        simp [readByte, hb, this]
    · have hd : b ≠ d.1 := by omega
      simp [readByte, h3, hd]
    · simp only [readByte]
      rw [ih (wf_tail hm)]

/-- Writing a string inside the address space keeps the canonical form. -/
theorem writeBytes_wf (bs : List Byte) {m : Memory} {a : Nat} (hm : Memory.wf m) (h : a + bs.length ≤ 2 ^ 32) :
    Memory.wf (writeBytes m a bs) := by
  induction bs generalizing m a with
  | nil => exact hm
  | cons b bs ih =>
    simp only [List.length_cons] at h
    exact ih (writeByte_wf b hm (by omega)) (by omega)

/-- Writing a string leaves every byte outside it alone. -/
theorem readByte_writeBytes_outside (bs : List Byte) {m : Memory} {a b : Nat} (hm : Memory.wf m)
    (hs : a + bs.length ≤ 2 ^ 32) (h : b < a ∨ a + bs.length ≤ b) :
    readByte (writeBytes m a bs) b = readByte m b := by
  induction bs generalizing m a with
  | nil => rfl
  | cons c bs ih =>
    simp only [List.length_cons] at h hs
    rw [writeBytes, ih (writeByte_wf c hm (by omega)) (by omega) (by omega),
      readByte_writeByte_other c hm (by omega)]

/-- Reading a byte of a written string gives that byte. -/
theorem readByte_writeBytes_inside (bs : List Byte) {m : Memory} {a i : Nat} (hm : Memory.wf m)
    (hs : a + bs.length ≤ 2 ^ 32) (hi : i < bs.length) : readByte (writeBytes m a bs) (a + i) = bs[i] := by
  induction bs generalizing m a i with
  | nil => exact absurd hi (by simp)
  | cons c bs ih =>
    simp only [List.length_cons] at hs hi
    have hw := writeByte_wf c hm (show a < 2 ^ 32 by omega)
    cases i with
    | zero =>
      rw [writeBytes, readByte_writeBytes_outside bs hw (by omega) (by omega)]
      exact readByte_writeByte_same a c hm
    | succ i =>
      have := ih hw (a := a + 1) (i := i) (by omega) (by omega)
      rw [writeBytes, show a + (i + 1) = a + 1 + i by omega, this]
      rfl

@[simp] theorem length_readBytes (m : Memory) (a n : Nat) : (readBytes m a n).length = n := by simp [readBytes]

@[simp] theorem readBytes_zero (m : Memory) (a : Nat) : readBytes m a 0 = [] := rfl

theorem getElem_readBytes (m : Memory) (a n i : Nat) (h : i < (readBytes m a n).length) :
    (readBytes m a n)[i] = readByte m (a + i) := by simp [readBytes]

/-- Two memories that agree on a range read the same string there. -/
theorem readBytes_congr {m m' : Memory} {a n : Nat} (h : ∀ i < n, readByte m (a + i) = readByte m' (a + i)) :
    readBytes m a n = readBytes m' a n := by
  simp only [readBytes, List.map_inj_left, List.mem_range]
  exact h

/-- Reading back a written string gives the string. -/
theorem readBytes_writeBytes_same (bs : List Byte) {m : Memory} {a : Nat} (hm : Memory.wf m)
    (hs : a + bs.length ≤ 2 ^ 32) : readBytes (writeBytes m a bs) a bs.length = bs := by
  apply List.ext_getElem (by simp)
  intro i h1 h2
  rw [getElem_readBytes, readByte_writeBytes_inside bs hm hs h2]

/-- Reading a range disjoint from a written string gives what it held. -/
theorem readBytes_writeBytes_disjoint (bs : List Byte) {m : Memory} {a b n : Nat} (hm : Memory.wf m)
    (hs : a + bs.length ≤ 2 ^ 32) (h : ∀ i < n, b + i < a ∨ a + bs.length ≤ b + i) :
    readBytes (writeBytes m a bs) b n = readBytes m b n :=
  readBytes_congr fun i hi => readByte_writeBytes_outside bs hm hs (h i hi)

@[simp] theorem length_anyBytes (k n : Nat) : (anyBytes k n).length = n := by simp [anyBytes]

theorem rangeInside_le (r : Range) : r.addr.toNat + rangeInside r ≤ 2 ^ 32 := by
  have := r.addr.isLt
  unfold rangeInside
  omega

theorem rangeInside_le_len (r : Range) : rangeInside r ≤ r.len := by
  unfold rangeInside
  omega

theorem havocRange_wf (r : Range) (s : State) (hm : Memory.wf s.mem) : Memory.wf (havocRange r s).mem :=
  writeBytes_wf _ hm (by simpa using rangeInside_le r)

/-- A range that holds any value leaves every byte outside it alone. -/
theorem readByte_havocRange (r : Range) (s : State) (a : Nat) (hm : Memory.wf s.mem)
    (h : a < r.addr.toNat ∨ r.addr.toNat + r.len ≤ a) : readByte (havocRange r s).mem a = readByte s.mem a := by
  have h1 := rangeInside_le r
  have h2 := rangeInside_le_len r
  exact readByte_writeBytes_outside _ hm (by simpa using h1) (by simp; omega)

theorem havoc_wf (rs : List Range) (s : State) (hm : Memory.wf s.mem) : Memory.wf (havoc rs s).mem := by
  induction rs generalizing s with
  | nil => exact hm
  | cons r rs ih => exact ih _ (havocRange_wf r s hm)

/-- Ranges that hold any value leave every byte outside all of them alone. -/
theorem readByte_havoc (rs : List Range) (s : State) (a : Nat) (hm : Memory.wf s.mem)
    (h : ∀ r ∈ rs, a < r.addr.toNat ∨ r.addr.toNat + r.len ≤ a) :
    readByte (havoc rs s).mem a = readByte s.mem a := by
  induction rs generalizing s with
  | nil => rfl
  | cons r rs ih =>
    rw [havoc, ih _ (havocRange_wf r s hm) fun q hq => h q (List.mem_cons_of_mem _ hq),
      readByte_havocRange r s a hm (h r (by simp))]

/-- The memory of the reset state is in canonical form. -/
theorem reset_mem_wf : Memory.wf State.reset.mem := by decide

/-- The named memory write keeps the canonical form inside the address space. -/
theorem memWrite_wf (a : Word) (bs : List Byte) (s : State) (hm : Memory.wf s.mem) (h : a.toNat + bs.length ≤ 2 ^ 32) :
    Memory.wf (memWrite a bs s).mem :=
  writeBytes_wf bs hm h

end Sys2Proof.Machine
end

