-- ==== Sys2Proof/Laws/State.lean ====
section
/-! SUPPORT. One lemma per field per update: what each named update of State changes and what it leaves alone. -/

namespace Sys2Proof.Machine

@[simp] theorem memWrite_params (a : Word) (bs : List Byte) (s : State) : (memWrite a bs s).params = s.params := rfl
@[simp] theorem memWrite_status (a : Word) (bs : List Byte) (s : State) : (memWrite a bs s).status = s.status := rfl
@[simp] theorem memWrite_errAddr (a : Word) (bs : List Byte) (s : State) : (memWrite a bs s).errAddr = s.errAddr := rfl
@[simp] theorem memWrite_regs (a : Word) (bs : List Byte) (s : State) : (memWrite a bs s).regs = s.regs := rfl
@[simp] theorem memWrite_slots (a : Word) (bs : List Byte) (s : State) : (memWrite a bs s).slots = s.slots := rfl
@[simp] theorem memWrite_cmdLatch (a : Word) (bs : List Byte) (s : State) : (memWrite a bs s).cmdLatch = s.cmdLatch := rfl
@[simp] theorem memWrite_hung (a : Word) (bs : List Byte) (s : State) : (memWrite a bs s).hung = s.hung := rfl
@[simp] theorem memWrite_trans (a : Word) (bs : List Byte) (s : State) : (memWrite a bs s).trans = s.trans := rfl
@[simp] theorem memWrite_mem (a : Word) (bs : List Byte) (s : State) : (memWrite a bs s).mem = writeBytes s.mem a.toNat bs := rfl
@[simp] theorem memWrite_inputs (a : Word) (bs : List Byte) (s : State) : (memWrite a bs s).inputs = s.inputs := rfl
@[simp] theorem memWrite_handed (a : Word) (bs : List Byte) (s : State) : (memWrite a bs s).handed = s.handed := rfl
@[simp] theorem memWrite_rdReg (a : Word) (bs : List Byte) (s : State) : (memWrite a bs s).rdReg = s.rdReg := rfl
@[simp] theorem memWrite_rdMem (a : Word) (bs : List Byte) (s : State) : (memWrite a bs s).rdMem = s.rdMem := rfl
@[simp] theorem memWrite_draws (a : Word) (bs : List Byte) (s : State) : (memWrite a bs s).draws = s.draws := rfl

@[simp] theorem setTrans_params (x : Transients) (s : State) : (setTrans x s).params = s.params := rfl
@[simp] theorem setTrans_status (x : Transients) (s : State) : (setTrans x s).status = s.status := rfl
@[simp] theorem setTrans_errAddr (x : Transients) (s : State) : (setTrans x s).errAddr = s.errAddr := rfl
@[simp] theorem setTrans_regs (x : Transients) (s : State) : (setTrans x s).regs = s.regs := rfl
@[simp] theorem setTrans_slots (x : Transients) (s : State) : (setTrans x s).slots = s.slots := rfl
@[simp] theorem setTrans_cmdLatch (x : Transients) (s : State) : (setTrans x s).cmdLatch = s.cmdLatch := rfl
@[simp] theorem setTrans_hung (x : Transients) (s : State) : (setTrans x s).hung = s.hung := rfl
@[simp] theorem setTrans_trans (x : Transients) (s : State) : (setTrans x s).trans = x := rfl
@[simp] theorem setTrans_mem (x : Transients) (s : State) : (setTrans x s).mem = s.mem := rfl
@[simp] theorem setTrans_inputs (x : Transients) (s : State) : (setTrans x s).inputs = s.inputs := rfl
@[simp] theorem setTrans_handed (x : Transients) (s : State) : (setTrans x s).handed = s.handed := rfl
@[simp] theorem setTrans_rdReg (x : Transients) (s : State) : (setTrans x s).rdReg = s.rdReg := rfl
@[simp] theorem setTrans_rdMem (x : Transients) (s : State) : (setTrans x s).rdMem = s.rdMem := rfl
@[simp] theorem setTrans_draws (x : Transients) (s : State) : (setTrans x s).draws = s.draws := rfl

@[simp] theorem setSlot_params (i : Fin 16) (x : Slot) (s : State) : (setSlot i x s).params = s.params := rfl
@[simp] theorem setSlot_status (i : Fin 16) (x : Slot) (s : State) : (setSlot i x s).status = s.status := rfl
@[simp] theorem setSlot_errAddr (i : Fin 16) (x : Slot) (s : State) : (setSlot i x s).errAddr = s.errAddr := rfl
@[simp] theorem setSlot_regs (i : Fin 16) (x : Slot) (s : State) : (setSlot i x s).regs = s.regs := rfl
@[simp] theorem setSlot_slots (i : Fin 16) (x : Slot) (s : State) : (setSlot i x s).slots = s.slots.set i x := rfl
@[simp] theorem setSlot_cmdLatch (i : Fin 16) (x : Slot) (s : State) : (setSlot i x s).cmdLatch = s.cmdLatch := rfl
@[simp] theorem setSlot_hung (i : Fin 16) (x : Slot) (s : State) : (setSlot i x s).hung = s.hung := rfl
@[simp] theorem setSlot_trans (i : Fin 16) (x : Slot) (s : State) : (setSlot i x s).trans = s.trans := rfl
@[simp] theorem setSlot_mem (i : Fin 16) (x : Slot) (s : State) : (setSlot i x s).mem = s.mem := rfl
@[simp] theorem setSlot_inputs (i : Fin 16) (x : Slot) (s : State) : (setSlot i x s).inputs = s.inputs := rfl
@[simp] theorem setSlot_handed (i : Fin 16) (x : Slot) (s : State) : (setSlot i x s).handed = s.handed := rfl
@[simp] theorem setSlot_rdReg (i : Fin 16) (x : Slot) (s : State) : (setSlot i x s).rdReg = s.rdReg := rfl
@[simp] theorem setSlot_rdMem (i : Fin 16) (x : Slot) (s : State) : (setSlot i x s).rdMem = s.rdMem := rfl
@[simp] theorem setSlot_draws (i : Fin 16) (x : Slot) (s : State) : (setSlot i x s).draws = s.draws := rfl

@[simp] theorem unbindSlot_params (i : Fin 16) (s : State) : (unbindSlot i s).params = s.params := rfl
@[simp] theorem unbindSlot_status (i : Fin 16) (s : State) : (unbindSlot i s).status = s.status := rfl
@[simp] theorem unbindSlot_errAddr (i : Fin 16) (s : State) : (unbindSlot i s).errAddr = s.errAddr := rfl
@[simp] theorem unbindSlot_regs (i : Fin 16) (s : State) : (unbindSlot i s).regs = s.regs := rfl
@[simp] theorem unbindSlot_slots (i : Fin 16) (s : State) : (unbindSlot i s).slots = s.slots.set i Slot.unbound := rfl
@[simp] theorem unbindSlot_cmdLatch (i : Fin 16) (s : State) : (unbindSlot i s).cmdLatch = s.cmdLatch := rfl
@[simp] theorem unbindSlot_hung (i : Fin 16) (s : State) : (unbindSlot i s).hung = s.hung := rfl
@[simp] theorem unbindSlot_trans (i : Fin 16) (s : State) : (unbindSlot i s).trans = s.trans := rfl
@[simp] theorem unbindSlot_mem (i : Fin 16) (s : State) : (unbindSlot i s).mem = s.mem := rfl
@[simp] theorem unbindSlot_inputs (i : Fin 16) (s : State) : (unbindSlot i s).inputs = s.inputs := rfl
@[simp] theorem unbindSlot_handed (i : Fin 16) (s : State) : (unbindSlot i s).handed = s.handed := rfl
@[simp] theorem unbindSlot_rdReg (i : Fin 16) (s : State) : (unbindSlot i s).rdReg = s.rdReg := rfl
@[simp] theorem unbindSlot_rdMem (i : Fin 16) (s : State) : (unbindSlot i s).rdMem = s.rdMem := rfl
@[simp] theorem unbindSlot_draws (i : Fin 16) (s : State) : (unbindSlot i s).draws = s.draws := rfl

@[simp] theorem bindSlot_params (i : Fin 16) (k : KeyBits) (u : Word) (s : State) : (bindSlot i k u s).params = s.params := rfl
@[simp] theorem bindSlot_status (i : Fin 16) (k : KeyBits) (u : Word) (s : State) : (bindSlot i k u s).status = s.status := rfl
@[simp] theorem bindSlot_errAddr (i : Fin 16) (k : KeyBits) (u : Word) (s : State) : (bindSlot i k u s).errAddr = s.errAddr := rfl
@[simp] theorem bindSlot_regs (i : Fin 16) (k : KeyBits) (u : Word) (s : State) : (bindSlot i k u s).regs = s.regs := rfl
@[simp] theorem bindSlot_slots (i : Fin 16) (k : KeyBits) (u : Word) (s : State) : (bindSlot i k u s).slots = s.slots.set i ⟨true, k, u⟩ := rfl
@[simp] theorem bindSlot_cmdLatch (i : Fin 16) (k : KeyBits) (u : Word) (s : State) : (bindSlot i k u s).cmdLatch = s.cmdLatch := rfl
@[simp] theorem bindSlot_hung (i : Fin 16) (k : KeyBits) (u : Word) (s : State) : (bindSlot i k u s).hung = s.hung := rfl
@[simp] theorem bindSlot_trans (i : Fin 16) (k : KeyBits) (u : Word) (s : State) : (bindSlot i k u s).trans = s.trans := rfl
@[simp] theorem bindSlot_mem (i : Fin 16) (k : KeyBits) (u : Word) (s : State) : (bindSlot i k u s).mem = s.mem := rfl
@[simp] theorem bindSlot_inputs (i : Fin 16) (k : KeyBits) (u : Word) (s : State) : (bindSlot i k u s).inputs = s.inputs := rfl
@[simp] theorem bindSlot_handed (i : Fin 16) (k : KeyBits) (u : Word) (s : State) : (bindSlot i k u s).handed = s.handed := rfl
@[simp] theorem bindSlot_rdReg (i : Fin 16) (k : KeyBits) (u : Word) (s : State) : (bindSlot i k u s).rdReg = s.rdReg := rfl
@[simp] theorem bindSlot_rdMem (i : Fin 16) (k : KeyBits) (u : Word) (s : State) : (bindSlot i k u s).rdMem = s.rdMem := rfl
@[simp] theorem bindSlot_draws (i : Fin 16) (k : KeyBits) (u : Word) (s : State) : (bindSlot i k u s).draws = s.draws := rfl

@[simp] theorem complete_params (code : ErrCode) (f h : Bool) (g : BitVec 2) (ea : Word) (s : State) : (complete code f h g ea s).params = s.params := rfl
@[simp] theorem complete_status (code : ErrCode) (f h : Bool) (g : BitVec 2) (ea : Word) (s : State) : (complete code f h g ea s).status = completedStatus s.status code f h g := rfl
@[simp] theorem complete_errAddr (code : ErrCode) (f h : Bool) (g : BitVec 2) (ea : Word) (s : State) : (complete code f h g ea s).errAddr = ea := rfl
@[simp] theorem complete_regs (code : ErrCode) (f h : Bool) (g : BitVec 2) (ea : Word) (s : State) : (complete code f h g ea s).regs = s.regs := rfl
@[simp] theorem complete_slots (code : ErrCode) (f h : Bool) (g : BitVec 2) (ea : Word) (s : State) : (complete code f h g ea s).slots = s.slots := rfl
@[simp] theorem complete_cmdLatch (code : ErrCode) (f h : Bool) (g : BitVec 2) (ea : Word) (s : State) : (complete code f h g ea s).cmdLatch = s.cmdLatch := rfl
@[simp] theorem complete_hung (code : ErrCode) (f h : Bool) (g : BitVec 2) (ea : Word) (s : State) : (complete code f h g ea s).hung = s.hung := rfl
@[simp] theorem complete_trans (code : ErrCode) (f h : Bool) (g : BitVec 2) (ea : Word) (s : State) : (complete code f h g ea s).trans = Transients.zero := rfl
@[simp] theorem complete_mem (code : ErrCode) (f h : Bool) (g : BitVec 2) (ea : Word) (s : State) : (complete code f h g ea s).mem = s.mem := rfl
@[simp] theorem complete_inputs (code : ErrCode) (f h : Bool) (g : BitVec 2) (ea : Word) (s : State) : (complete code f h g ea s).inputs = s.inputs := rfl
@[simp] theorem complete_handed (code : ErrCode) (f h : Bool) (g : BitVec 2) (ea : Word) (s : State) : (complete code f h g ea s).handed = s.handed := rfl
@[simp] theorem complete_rdReg (code : ErrCode) (f h : Bool) (g : BitVec 2) (ea : Word) (s : State) : (complete code f h g ea s).rdReg = s.rdReg := rfl
@[simp] theorem complete_rdMem (code : ErrCode) (f h : Bool) (g : BitVec 2) (ea : Word) (s : State) : (complete code f h g ea s).rdMem = s.rdMem := rfl
@[simp] theorem complete_draws (code : ErrCode) (f h : Bool) (g : BitVec 2) (ea : Word) (s : State) : (complete code f h g ea s).draws = s.draws := rfl

@[simp] theorem completeOk_params (s : State) : (completeOk s).params = s.params := rfl
@[simp] theorem completeOk_status (s : State) : (completeOk s).status = completedStatus s.status .ok false false 0#2 := rfl
@[simp] theorem completeOk_errAddr (s : State) : (completeOk s).errAddr = 0#32 := rfl
@[simp] theorem completeOk_regs (s : State) : (completeOk s).regs = s.regs := rfl
@[simp] theorem completeOk_slots (s : State) : (completeOk s).slots = s.slots := rfl
@[simp] theorem completeOk_cmdLatch (s : State) : (completeOk s).cmdLatch = s.cmdLatch := rfl
@[simp] theorem completeOk_hung (s : State) : (completeOk s).hung = s.hung := rfl
@[simp] theorem completeOk_trans (s : State) : (completeOk s).trans = Transients.zero := rfl
@[simp] theorem completeOk_mem (s : State) : (completeOk s).mem = s.mem := rfl
@[simp] theorem completeOk_inputs (s : State) : (completeOk s).inputs = s.inputs := rfl
@[simp] theorem completeOk_handed (s : State) : (completeOk s).handed = s.handed := rfl
@[simp] theorem completeOk_rdReg (s : State) : (completeOk s).rdReg = s.rdReg := rfl
@[simp] theorem completeOk_rdMem (s : State) : (completeOk s).rdMem = s.rdMem := rfl
@[simp] theorem completeOk_draws (s : State) : (completeOk s).draws = s.draws := rfl

@[simp] theorem raise_params (code : ErrCode) (s : State) : (raise code s).params = s.params := rfl
@[simp] theorem raise_status (code : ErrCode) (s : State) : (raise code s).status = completedStatus s.status code false false 0#2 := rfl
@[simp] theorem raise_errAddr (code : ErrCode) (s : State) : (raise code s).errAddr = 0#32 := rfl
@[simp] theorem raise_regs (code : ErrCode) (s : State) : (raise code s).regs = s.regs := rfl
@[simp] theorem raise_slots (code : ErrCode) (s : State) : (raise code s).slots = s.slots := rfl
@[simp] theorem raise_cmdLatch (code : ErrCode) (s : State) : (raise code s).cmdLatch = s.cmdLatch := rfl
@[simp] theorem raise_hung (code : ErrCode) (s : State) : (raise code s).hung = s.hung := rfl
@[simp] theorem raise_trans (code : ErrCode) (s : State) : (raise code s).trans = Transients.zero := rfl
@[simp] theorem raise_mem (code : ErrCode) (s : State) : (raise code s).mem = s.mem := rfl
@[simp] theorem raise_inputs (code : ErrCode) (s : State) : (raise code s).inputs = s.inputs := rfl
@[simp] theorem raise_handed (code : ErrCode) (s : State) : (raise code s).handed = s.handed := rfl
@[simp] theorem raise_rdReg (code : ErrCode) (s : State) : (raise code s).rdReg = s.rdReg := rfl
@[simp] theorem raise_rdMem (code : ErrCode) (s : State) : (raise code s).rdMem = s.rdMem := rfl
@[simp] theorem raise_draws (code : ErrCode) (s : State) : (raise code s).draws = s.draws := rfl

@[simp] theorem raiseBus_params (a : Word) (s : State) : (raiseBus a s).params = s.params := rfl
@[simp] theorem raiseBus_status (a : Word) (s : State) : (raiseBus a s).status = completedStatus s.status .busError false false 0#2 := rfl
@[simp] theorem raiseBus_errAddr (a : Word) (s : State) : (raiseBus a s).errAddr = a := rfl
@[simp] theorem raiseBus_regs (a : Word) (s : State) : (raiseBus a s).regs = s.regs := rfl
@[simp] theorem raiseBus_slots (a : Word) (s : State) : (raiseBus a s).slots = s.slots := rfl
@[simp] theorem raiseBus_cmdLatch (a : Word) (s : State) : (raiseBus a s).cmdLatch = s.cmdLatch := rfl
@[simp] theorem raiseBus_hung (a : Word) (s : State) : (raiseBus a s).hung = s.hung := rfl
@[simp] theorem raiseBus_trans (a : Word) (s : State) : (raiseBus a s).trans = Transients.zero := rfl
@[simp] theorem raiseBus_mem (a : Word) (s : State) : (raiseBus a s).mem = s.mem := rfl
@[simp] theorem raiseBus_inputs (a : Word) (s : State) : (raiseBus a s).inputs = s.inputs := rfl
@[simp] theorem raiseBus_handed (a : Word) (s : State) : (raiseBus a s).handed = s.handed := rfl
@[simp] theorem raiseBus_rdReg (a : Word) (s : State) : (raiseBus a s).rdReg = s.rdReg := rfl
@[simp] theorem raiseBus_rdMem (a : Word) (s : State) : (raiseBus a s).rdMem = s.rdMem := rfl
@[simp] theorem raiseBus_draws (a : Word) (s : State) : (raiseBus a s).draws = s.draws := rfl

@[simp] theorem accept_params (w : Word) (s : State) : (accept w s).params = s.params := rfl
@[simp] theorem accept_status (w : Word) (s : State) : (accept w s).status = acceptedStatus := rfl
@[simp] theorem accept_errAddr (w : Word) (s : State) : (accept w s).errAddr = 0#32 := rfl
@[simp] theorem accept_regs (w : Word) (s : State) : (accept w s).regs = s.regs := rfl
@[simp] theorem accept_slots (w : Word) (s : State) : (accept w s).slots = s.slots := rfl
@[simp] theorem accept_cmdLatch (w : Word) (s : State) : (accept w s).cmdLatch = w := rfl
@[simp] theorem accept_hung (w : Word) (s : State) : (accept w s).hung = s.hung := rfl
@[simp] theorem accept_trans (w : Word) (s : State) : (accept w s).trans = s.trans := rfl
@[simp] theorem accept_mem (w : Word) (s : State) : (accept w s).mem = s.mem := rfl
@[simp] theorem accept_inputs (w : Word) (s : State) : (accept w s).inputs = s.inputs := rfl
@[simp] theorem accept_handed (w : Word) (s : State) : (accept w s).handed = wordRanges s.params w s.regs ++ s.handed := rfl
@[simp] theorem accept_rdReg (w : Word) (s : State) : (accept w s).rdReg = s.rdReg := rfl
@[simp] theorem accept_rdMem (w : Word) (s : State) : (accept w s).rdMem = s.rdMem := rfl
@[simp] theorem accept_draws (w : Word) (s : State) : (accept w s).draws = s.draws := rfl

@[simp] theorem overrun_params (s : State) : (overrun s).params = s.params := rfl
@[simp] theorem overrun_status (s : State) : (overrun s).status = { s.status with ovr := true } := rfl
@[simp] theorem overrun_errAddr (s : State) : (overrun s).errAddr = s.errAddr := rfl
@[simp] theorem overrun_regs (s : State) : (overrun s).regs = s.regs := rfl
@[simp] theorem overrun_slots (s : State) : (overrun s).slots = s.slots := rfl
@[simp] theorem overrun_cmdLatch (s : State) : (overrun s).cmdLatch = s.cmdLatch := rfl
@[simp] theorem overrun_hung (s : State) : (overrun s).hung = s.hung := rfl
@[simp] theorem overrun_trans (s : State) : (overrun s).trans = s.trans := rfl
@[simp] theorem overrun_mem (s : State) : (overrun s).mem = s.mem := rfl
@[simp] theorem overrun_inputs (s : State) : (overrun s).inputs = s.inputs := rfl
@[simp] theorem overrun_handed (s : State) : (overrun s).handed = s.handed := rfl
@[simp] theorem overrun_rdReg (s : State) : (overrun s).rdReg = s.rdReg := rfl
@[simp] theorem overrun_rdMem (s : State) : (overrun s).rdMem = s.rdMem := rfl
@[simp] theorem overrun_draws (s : State) : (overrun s).draws = s.draws := rfl

@[simp] theorem hostRead_params (off : BitVec 8) (s : State) : (hostRead off s).params = s.params := rfl
@[simp] theorem hostRead_status (off : BitVec 8) (s : State) : (hostRead off s).status = s.status := rfl
@[simp] theorem hostRead_errAddr (off : BitVec 8) (s : State) : (hostRead off s).errAddr = s.errAddr := rfl
@[simp] theorem hostRead_regs (off : BitVec 8) (s : State) : (hostRead off s).regs = s.regs := rfl
@[simp] theorem hostRead_slots (off : BitVec 8) (s : State) : (hostRead off s).slots = s.slots := rfl
@[simp] theorem hostRead_cmdLatch (off : BitVec 8) (s : State) : (hostRead off s).cmdLatch = s.cmdLatch := rfl
@[simp] theorem hostRead_hung (off : BitVec 8) (s : State) : (hostRead off s).hung = s.hung := rfl
@[simp] theorem hostRead_trans (off : BitVec 8) (s : State) : (hostRead off s).trans = s.trans := rfl
@[simp] theorem hostRead_mem (off : BitVec 8) (s : State) : (hostRead off s).mem = s.mem := rfl
@[simp] theorem hostRead_inputs (off : BitVec 8) (s : State) : (hostRead off s).inputs = s.inputs := rfl
@[simp] theorem hostRead_handed (off : BitVec 8) (s : State) : (hostRead off s).handed = handedAfterRead off s := rfl
@[simp] theorem hostRead_rdReg (off : BitVec 8) (s : State) : (hostRead off s).rdReg = readWindow off s := rfl
@[simp] theorem hostRead_rdMem (off : BitVec 8) (s : State) : (hostRead off s).rdMem = s.rdMem := rfl
@[simp] theorem hostRead_draws (off : BitVec 8) (s : State) : (hostRead off s).draws = s.draws := rfl

@[simp] theorem afterDmaInitDraw_params (s : State) : (afterDmaInitDraw s).params = s.params := by unfold afterDmaInitDraw; split <;> rfl
@[simp] theorem afterDmaInitDraw_status (s : State) : (afterDmaInitDraw s).status = s.status := by unfold afterDmaInitDraw; split <;> rfl
@[simp] theorem afterDmaInitDraw_errAddr (s : State) : (afterDmaInitDraw s).errAddr = s.errAddr := by unfold afterDmaInitDraw; split <;> rfl
@[simp] theorem afterDmaInitDraw_regs (s : State) : (afterDmaInitDraw s).regs = s.regs := by unfold afterDmaInitDraw; split <;> rfl
@[simp] theorem afterDmaInitDraw_slots (s : State) : (afterDmaInitDraw s).slots = s.slots := by unfold afterDmaInitDraw; split <;> rfl
@[simp] theorem afterDmaInitDraw_cmdLatch (s : State) : (afterDmaInitDraw s).cmdLatch = s.cmdLatch := by unfold afterDmaInitDraw; split <;> rfl
@[simp] theorem afterDmaInitDraw_hung (s : State) : (afterDmaInitDraw s).hung = s.hung := by unfold afterDmaInitDraw; split <;> rfl
@[simp] theorem afterDmaInitDraw_trans (s : State) : (afterDmaInitDraw s).trans = s.trans := by unfold afterDmaInitDraw; split <;> rfl
@[simp] theorem afterDmaInitDraw_mem (s : State) : (afterDmaInitDraw s).mem = s.mem := by unfold afterDmaInitDraw; split <;> rfl
@[simp] theorem afterDmaInitDraw_inputs (s : State) : (afterDmaInitDraw s).inputs = s.inputs := by unfold afterDmaInitDraw; split <;> rfl
@[simp] theorem afterDmaInitDraw_handed (s : State) : (afterDmaInitDraw s).handed = s.handed := by unfold afterDmaInitDraw; split <;> rfl
@[simp] theorem afterDmaInitDraw_rdReg (s : State) : (afterDmaInitDraw s).rdReg = s.rdReg := by unfold afterDmaInitDraw; split <;> rfl
@[simp] theorem afterDmaInitDraw_rdMem (s : State) : (afterDmaInitDraw s).rdMem = s.rdMem := by unfold afterDmaInitDraw; split <;> rfl

@[simp] theorem afterHangDraw_params (s : State) : (afterHangDraw s).params = s.params := by unfold afterHangDraw; split <;> rfl
@[simp] theorem afterHangDraw_status (s : State) : (afterHangDraw s).status = s.status := by unfold afterHangDraw; split <;> rfl
@[simp] theorem afterHangDraw_errAddr (s : State) : (afterHangDraw s).errAddr = s.errAddr := by unfold afterHangDraw; split <;> rfl
@[simp] theorem afterHangDraw_regs (s : State) : (afterHangDraw s).regs = s.regs := by unfold afterHangDraw; split <;> rfl
@[simp] theorem afterHangDraw_slots (s : State) : (afterHangDraw s).slots = s.slots := by unfold afterHangDraw; split <;> rfl
@[simp] theorem afterHangDraw_cmdLatch (s : State) : (afterHangDraw s).cmdLatch = s.cmdLatch := by unfold afterHangDraw; split <;> rfl
@[simp] theorem afterHangDraw_hung (s : State) : (afterHangDraw s).hung = s.hung := by unfold afterHangDraw; split <;> rfl
@[simp] theorem afterHangDraw_trans (s : State) : (afterHangDraw s).trans = s.trans := by unfold afterHangDraw; split <;> rfl
@[simp] theorem afterHangDraw_mem (s : State) : (afterHangDraw s).mem = s.mem := by unfold afterHangDraw; split <;> rfl
@[simp] theorem afterHangDraw_inputs (s : State) : (afterHangDraw s).inputs = s.inputs := by unfold afterHangDraw; split <;> rfl
@[simp] theorem afterHangDraw_handed (s : State) : (afterHangDraw s).handed = s.handed := by unfold afterHangDraw; split <;> rfl
@[simp] theorem afterHangDraw_rdReg (s : State) : (afterHangDraw s).rdReg = s.rdReg := by unfold afterHangDraw; split <;> rfl
@[simp] theorem afterHangDraw_rdMem (s : State) : (afterHangDraw s).rdMem = s.rdMem := by unfold afterHangDraw; split <;> rfl

@[simp] theorem havocRange_params (r : Range) (s : State) : (havocRange r s).params = s.params := rfl
@[simp] theorem havocRange_status (r : Range) (s : State) : (havocRange r s).status = s.status := rfl
@[simp] theorem havocRange_errAddr (r : Range) (s : State) : (havocRange r s).errAddr = s.errAddr := rfl
@[simp] theorem havocRange_regs (r : Range) (s : State) : (havocRange r s).regs = s.regs := rfl
@[simp] theorem havocRange_slots (r : Range) (s : State) : (havocRange r s).slots = s.slots := rfl
@[simp] theorem havocRange_cmdLatch (r : Range) (s : State) : (havocRange r s).cmdLatch = s.cmdLatch := rfl
@[simp] theorem havocRange_hung (r : Range) (s : State) : (havocRange r s).hung = s.hung := rfl
@[simp] theorem havocRange_trans (r : Range) (s : State) : (havocRange r s).trans = s.trans := rfl
@[simp] theorem havocRange_inputs (r : Range) (s : State) : (havocRange r s).inputs = s.inputs := rfl
@[simp] theorem havocRange_handed (r : Range) (s : State) : (havocRange r s).handed = s.handed := rfl
@[simp] theorem havocRange_rdReg (r : Range) (s : State) : (havocRange r s).rdReg = s.rdReg := rfl
@[simp] theorem havocRange_rdMem (r : Range) (s : State) : (havocRange r s).rdMem = s.rdMem := rfl

@[simp] theorem havoc_params (rs : List Range) (s : State) : (havoc rs s).params = s.params := by
  induction rs generalizing s with
  | nil => rfl
  | cons r rs ih => rw [havoc, ih]; rfl
@[simp] theorem havoc_status (rs : List Range) (s : State) : (havoc rs s).status = s.status := by
  induction rs generalizing s with
  | nil => rfl
  | cons r rs ih => rw [havoc, ih]; rfl
@[simp] theorem havoc_errAddr (rs : List Range) (s : State) : (havoc rs s).errAddr = s.errAddr := by
  induction rs generalizing s with
  | nil => rfl
  | cons r rs ih => rw [havoc, ih]; rfl
@[simp] theorem havoc_regs (rs : List Range) (s : State) : (havoc rs s).regs = s.regs := by
  induction rs generalizing s with
  | nil => rfl
  | cons r rs ih => rw [havoc, ih]; rfl
@[simp] theorem havoc_slots (rs : List Range) (s : State) : (havoc rs s).slots = s.slots := by
  induction rs generalizing s with
  | nil => rfl
  | cons r rs ih => rw [havoc, ih]; rfl
@[simp] theorem havoc_cmdLatch (rs : List Range) (s : State) : (havoc rs s).cmdLatch = s.cmdLatch := by
  induction rs generalizing s with
  | nil => rfl
  | cons r rs ih => rw [havoc, ih]; rfl
@[simp] theorem havoc_hung (rs : List Range) (s : State) : (havoc rs s).hung = s.hung := by
  induction rs generalizing s with
  | nil => rfl
  | cons r rs ih => rw [havoc, ih]; rfl
@[simp] theorem havoc_trans (rs : List Range) (s : State) : (havoc rs s).trans = s.trans := by
  induction rs generalizing s with
  | nil => rfl
  | cons r rs ih => rw [havoc, ih]; rfl
@[simp] theorem havoc_inputs (rs : List Range) (s : State) : (havoc rs s).inputs = s.inputs := by
  induction rs generalizing s with
  | nil => rfl
  | cons r rs ih => rw [havoc, ih]; rfl
@[simp] theorem havoc_handed (rs : List Range) (s : State) : (havoc rs s).handed = s.handed := by
  induction rs generalizing s with
  | nil => rfl
  | cons r rs ih => rw [havoc, ih]; rfl
@[simp] theorem havoc_rdReg (rs : List Range) (s : State) : (havoc rs s).rdReg = s.rdReg := by
  induction rs generalizing s with
  | nil => rfl
  | cons r rs ih => rw [havoc, ih]; rfl
@[simp] theorem havoc_rdMem (rs : List Range) (s : State) : (havoc rs s).rdMem = s.rdMem := by
  induction rs generalizing s with
  | nil => rfl
  | cons r rs ih => rw [havoc, ih]; rfl

@[simp] theorem hangWith_params (rs : List Range) (s : State) : (hangWith rs s).params = s.params := by simp [hangWith]
@[simp] theorem hangWith_errAddr (rs : List Range) (s : State) : (hangWith rs s).errAddr = s.errAddr := by simp [hangWith]
@[simp] theorem hangWith_regs (rs : List Range) (s : State) : (hangWith rs s).regs = s.regs := by simp [hangWith]
@[simp] theorem hangWith_slots (rs : List Range) (s : State) : (hangWith rs s).slots = s.slots := by simp [hangWith]
@[simp] theorem hangWith_cmdLatch (rs : List Range) (s : State) : (hangWith rs s).cmdLatch = s.cmdLatch := by simp [hangWith]
@[simp] theorem hangWith_trans (rs : List Range) (s : State) : (hangWith rs s).trans = s.trans := by simp [hangWith]
@[simp] theorem hangWith_inputs (rs : List Range) (s : State) : (hangWith rs s).inputs = s.inputs := by simp [hangWith]
@[simp] theorem hangWith_handed (rs : List Range) (s : State) : (hangWith rs s).handed = s.handed := by simp [hangWith]
@[simp] theorem hangWith_rdReg (rs : List Range) (s : State) : (hangWith rs s).rdReg = s.rdReg := by simp [hangWith]
@[simp] theorem hangWith_rdMem (rs : List Range) (s : State) : (hangWith rs s).rdMem = s.rdMem := by simp [hangWith]
@[simp] theorem hangWith_hung (rs : List Range) (s : State) : (hangWith rs s).hung = true := rfl
@[simp] theorem hangWith_status (rs : List Range) (s : State) : (hangWith rs s).status = { s.status with busy := true } := by
  simp [hangWith]
@[simp] theorem hangWith_mem (rs : List Range) (s : State) : (hangWith rs s).mem = (havoc rs s).mem := rfl

@[simp] theorem resetEvent_params (s : State) : (resetEvent s).params = s.params := rfl
@[simp] theorem resetEvent_status (s : State) : (resetEvent s).status = Status.zero := rfl
@[simp] theorem resetEvent_errAddr (s : State) : (resetEvent s).errAddr = 0#32 := rfl
@[simp] theorem resetEvent_regs (s : State) : (resetEvent s).regs = OperandRegs.zero := rfl
@[simp] theorem resetEvent_slots (s : State) : (resetEvent s).slots = Vector.replicate 16 Slot.unbound := rfl
@[simp] theorem resetEvent_cmdLatch (s : State) : (resetEvent s).cmdLatch = 0#32 := rfl
@[simp] theorem resetEvent_hung (s : State) : (resetEvent s).hung = false := rfl
@[simp] theorem resetEvent_trans (s : State) : (resetEvent s).trans = Transients.zero := rfl
@[simp] theorem resetEvent_mem (s : State) : (resetEvent s).mem = (cutByReset s).mem := rfl
@[simp] theorem resetEvent_inputs (s : State) : (resetEvent s).inputs = s.inputs := rfl
@[simp] theorem resetEvent_handed (s : State) : (resetEvent s).handed = [] := rfl
@[simp] theorem resetEvent_rdReg (s : State) : (resetEvent s).rdReg = s.rdReg := rfl
@[simp] theorem resetEvent_rdMem (s : State) : (resetEvent s).rdMem = s.rdMem := rfl
@[simp] theorem resetEvent_draws (s : State) : (resetEvent s).draws = (cutByReset s).draws := rfl

@[simp] theorem slotAt_setSlot_same (i : Fin 16) (x : Slot) (s : State) : slotAt (setSlot i x s) i = x := by
  simp [slotAt, setSlot]
theorem slotAt_setSlot_other {i j : Fin 16} (x : Slot) (s : State) (h : j ≠ i) :
    slotAt (setSlot i x s) j = slotAt s j := by
  have : ¬ i.val = j.val := fun e => h (Fin.ext e.symm)
  simp [slotAt, setSlot, this]
@[simp] theorem slotAt_unbindSlot_same (i : Fin 16) (s : State) : slotAt (unbindSlot i s) i = Slot.unbound :=
  slotAt_setSlot_same i _ s
theorem slotAt_unbindSlot_other {i j : Fin 16} (s : State) (h : j ≠ i) : slotAt (unbindSlot i s) j = slotAt s j :=
  slotAt_setSlot_other _ s h
@[simp] theorem slotAt_bindSlot_same (i : Fin 16) (k : KeyBits) (u : Word) (s : State) :
    slotAt (bindSlot i k u s) i = ⟨true, k, u⟩ :=
  slotAt_setSlot_same i _ s
theorem slotAt_bindSlot_other {i j : Fin 16} (k : KeyBits) (u : Word) (s : State) (h : j ≠ i) :
    slotAt (bindSlot i k u s) j = slotAt s j :=
  slotAt_setSlot_other _ s h
/-- Two states with the same slot file have the same slots. -/
theorem slotAt_congr {s t : State} (h : t.slots = s.slots) (i : Fin 16) : slotAt t i = slotAt s i := by
  simp [slotAt, h]

end Sys2Proof.Machine
end

