-- ==== Sys2Proof/Laws/Ops.lean ====
section
/-! SUPPORT. One lemma per shared operation over operands and ranges: the model's Bool is the condition the spec words. -/

namespace Sys2Proof.Machine

theorem pos_iff_ne_zero_word (w : Word) : 0 < w.toNat ↔ w ≠ 0#32 := by
  rw [Nat.pos_iff_ne_zero, ne_eq, ne_eq, not_iff_not]
  exact ⟨fun h => BitVec.eq_of_toNat_eq (by simpa using h), fun h => by simp [h]⟩

theorem aadPresent_iff (r : OperandRegs) : aadPresent r = true ↔ AadIn r := by
  simp [aadPresent, AadIn, pos_iff_ne_zero_word]

theorem aadPresent_eq (r : OperandRegs) : aadPresent r = decide (AadIn r) := by
  rw [Bool.eq_iff_iff, aadPresent_iff, decide_eq_true_iff]

theorem encHwPath_iff (r : OperandRegs) : encHwPath r = true ↔ EncHw r := by
  rw [encHwPath, Bool.or_eq_true, bne_iff_ne, ← pos_iff_ne_zero_word, Bool.not_eq_true', EncHw, ← aadPresent_iff,
    Bool.not_eq_true]

theorem encHwPath_eq (r : OperandRegs) : encHwPath r = decide (EncHw r) := by
  rw [Bool.eq_iff_iff, encHwPath_iff, decide_eq_true_iff]

@[simp] theorem aadRange_len (r : OperandRegs) : (aadRange r).len = aadCount r := by
  simp only [aadRange, aadCount, aadPresent_iff]

@[simp] theorem aadRange_addr (r : OperandRegs) : (aadRange r).addr = r.aadAddr := rfl

theorem allAdmitted_iff (p : Params) (n a : Nat) :
    allAdmitted p n a = true ↔ ∀ i < n, admittedByte p (a + i) = true := by
  induction n generalizing a with
  | zero => simp [allAdmitted]
  | succ n ih =>
    rw [allAdmitted, Bool.and_eq_true, ih]
    constructor
    · rintro ⟨h0, h⟩ i hi
      cases i with
      | zero => exact h0
      | succ i => rw [show a + (i + 1) = a + 1 + i by omega]; exact h i (by omega)
    · exact fun h => ⟨h 0 (by omega), fun i hi => by rw [show a + 1 + i = a + (i + 1) by omega]; exact h _ (by omega)⟩

/-- The admission of a range is the condition of 20_memory.md R51. -/
theorem admitted_iff (p : Params) (r : Range) : admitted p r = true ↔ RangeAdmitted p r.addr r.len := by
  simp [admitted, RangeAdmitted, allAdmitted_iff]

/-- No byte of the register window is admitted. -/
theorem admittedByte_outside_window {p : Params} {a : Nat} (h : admittedByte p a = true) :
    a < p.base.toNat ∨ p.base.toNat + 256 ≤ a := by
  simp only [admittedByte, inWindow, Bool.and_eq_true, Bool.not_eq_true', Bool.and_eq_false_iff, decide_eq_false_iff_not,
    not_le, not_lt] at h
  omega

theorem overlap_iff (r q : Range) : overlap r q = true ↔ Overlaps r.addr r.len q.addr q.len := by
  simp [overlap, Overlaps, and_assoc]

theorem overlaps_comm (a : Word) (n : Nat) (b : Word) (m : Nat) : Overlaps a n b m ↔ Overlaps b m a n := by
  unfold Overlaps
  omega

/-- The first range that is not admitted, or none. -/
theorem firstUnadmitted_none (p : Params) (l : List Range) :
    firstUnadmitted p l = none ↔ ∀ r ∈ l, RangeAdmitted p r.addr r.len := by
  induction l with
  | nil => simp [firstUnadmitted]
  | cons r l ih =>
    rw [firstUnadmitted]
    split <;> rename_i h
    · rw [ih, List.forall_mem_cons, ← admitted_iff]
      exact ⟨fun h' => ⟨h, h'⟩, fun h' => h'.2⟩
    · refine ⟨fun h' => by simp at h', fun h' => ?_⟩
      exact absurd ((admitted_iff p r).mpr (h' r (by simp))) h

theorem firstUnadmitted_append (p : Params) (l m : List Range) (h : ∀ r ∈ l, RangeAdmitted p r.addr r.len) :
    firstUnadmitted p (l ++ m) = firstUnadmitted p m := by
  induction l with
  | nil => rfl
  | cons r l ih =>
    rw [List.cons_append, firstUnadmitted, if_pos ((admitted_iff p r).mpr (h r (by simp))),
      ih fun q hq => h q (List.mem_cons_of_mem _ hq)]

/-- A range as the statements write it. -/
def Range.span (r : Range) : Span := (r.addr, r.len)

theorem encRanges_spans (r : OperandRegs) : (encRanges r).map Range.span = encSpans r := by
  simp [encRanges, encSpans, Range.span, ivRange, srcRange, dstRange, tagOutRange]

theorem decRanges_spans (r : OperandRegs) : (decRanges r).map Range.span = decSpans r := by
  simp [decRanges, decSpans, Range.span, ivRange, srcRange, dstRange, tagInRange]

theorem encRanges_admitted (p : Params) (r : OperandRegs) :
    firstUnadmitted p (encRanges r) = none ↔ AllSpansAdmitted p (encSpans r) := by
  rw [firstUnadmitted_none, ← encRanges_spans, AllSpansAdmitted, List.forall_mem_map]
  rfl

theorem decRanges_admitted (p : Params) (r : OperandRegs) :
    firstUnadmitted p (decRanges r) = none ↔ AllSpansAdmitted p (decSpans r) := by
  rw [firstUnadmitted_none, ← decRanges_spans, AllSpansAdmitted, List.forall_mem_map]
  rfl

theorem or_regroup (a b c d e f g : Prop) :
    ((a ∨ b ∨ c) ∨ (e ∨ f ∨ g)) ∨ d ↔ a ∨ b ∨ c ∨ d ∨ e ∨ f ∨ g := by tauto

theorem encOverlap_iff (k : Fin 16) (r : OperandRegs) : outputOverlap (.encrypt k) r = true ↔ EncOverlap r := by
  refine Iff.trans ?_ (or_regroup _ _ _ _ _ _ _)
  simp only [outputOverlap, commandOutputs, commandInputs, overlapAmong, List.any_cons, List.any_nil, Bool.or_false,
    Bool.or_eq_true, overlap_iff, aadRange_len, aadRange_addr]
  rfl

theorem decOverlap_iff (k : Fin 16) (r : OperandRegs) : outputOverlap (.decrypt k) r = true ↔ DecOverlap r := by
  simp only [outputOverlap, commandOutputs, commandInputs, overlapAmong, List.any_cons, List.any_nil, Bool.or_false,
    Bool.or_eq_true, overlap_iff, aadRange_len, aadRange_addr]
  rfl

theorem encBadArgument_iff (k : Fin 16) (s : State) : encBadArgument k s = true ↔ ¬ EncArgsGood k s := by
  have hp := pos_iff_ne_zero_word s.regs.srcLen
  have ht : 16 < s.regs.tagLen.toNat ↔ ¬ s.regs.tagLen.toNat ≤ 16 := not_le.symm
  simp only [encBadArgument, EncArgsGood, hp, ht, Bool.or_eq_true, beq_iff_eq, bne_iff_ne, decide_eq_true_iff,
    Bool.and_eq_true, Bool.not_eq_true', ← Bool.not_eq_true]
  tauto

theorem decBadArgument_iff (k : Fin 16) (s : State) : decBadArgument k s = true ↔ ¬ DecArgsGood k s := by
  simp only [decBadArgument, DecArgsGood, Bool.or_eq_true, beq_iff_eq, bne_iff_ne,
    decide_eq_true_iff, Bool.not_eq_true', ← Bool.not_eq_true, ← not_le]
  tauto

theorem encOutOfMemory_iff (s : State) : encOutOfMemory s = true ↔ ¬ ScratchEnough s := by
  simp only [encOutOfMemory, Bool.and_eq_true, encHwPath_iff, decide_eq_true_iff, ScratchEnough, Classical.not_imp, not_le]

/-- The bits of a word made of sixteen low bits. -/
theorem getLsbD_lowBitsWord (f : Fin 16 → Bool) (j : Nat) :
    (lowBitsWord f).getLsbD j = if h : j < 16 then f ⟨j, h⟩ else false := by
  simp only [lowBitsWord, BitVec.getLsbD_setWidth, BitVec.getLsbD_ofBoolListLE]
  split <;> rename_i h
  · rw [List.getD_eq_getElem _ _ (by simpa using h)]
    simp
    omega
  · rw [List.getD_eq_default _ _ (by simpa using h)]
    simp

/-- SLOT_STATE depends only on the slots and the parameters. -/
theorem slotState_congr {s t : State} (h : t.slots = s.slots) (hp : t.params = s.params) : slotState t = slotState s := by
  simp [slotState, slotAt, h, hp]

/-- The draws do not depend on anything but the draws. -/
theorem hangDraw_congr {s t : State} (h : t.draws = s.draws) : hangDraw t = hangDraw s := by simp [hangDraw, h]

theorem dmaInitDraw_congr {s t : State} (h : t.draws = s.draws) : dmaInitDraw t = dmaInitDraw s := by
  simp [dmaInitDraw, h]

end Sys2Proof.Machine
end

