-- ==== Sys2Proof/Laws/Exec.lean ====
section
/-! SUPPORT. Said once: what each command and each step can do. -/

namespace Sys2Proof.Machine

/-- What INSTALL_KEY can answer (40_session.md R101). -/
theorem execInstallKey_cases {k : Fin 16} {s t : State} (h : execInstallKey k s = .next t) :
    (s.regs.keyLen ≠ 32#32 ∧ t = raise .badArgument s)
    ∨ (s.regs.keyLen = 32#32 ∧ s.params.devicePresent = false ∧ t = raise .deviceUnavailable (unbindSlot k s))
    ∨ (s.regs.keyLen = 32#32 ∧ s.params.devicePresent = true ∧ dmaInitDraw s = false
        ∧ t = raise .deviceInitFailed (unbindSlot k (afterDmaInitDraw s)))
    ∨ (s.regs.keyLen = 32#32 ∧ s.params.devicePresent = true ∧ dmaInitDraw s = true
        ∧ ¬ RangeAdmitted s.params s.regs.keyAddr 32
        ∧ t = raiseBus s.regs.keyAddr (unbindSlot k (afterDmaInitDraw s)))
    ∨ (s.regs.keyLen = 32#32 ∧ s.params.devicePresent = true ∧ dmaInitDraw s = true
        ∧ RangeAdmitted s.params s.regs.keyAddr 32
        ∧ t = completeOk (bindSlot k (keyOfBytes (readBytes s.mem s.regs.keyAddr.toNat 32)) s.regs.usage
            (afterDmaInitDraw s))) := by
  have ha := admitted_iff s.params (keyRange s.regs)
  simp only [execInstallKey, installAfterInit, bne_iff_ne, Bool.not_eq_true', afterDmaInitDraw_params,
    afterDmaInitDraw_regs] at h
  split_ifs at h with h1 h2 h3 h4 <;> injection h with h
  · exact .inl ⟨h1, h.symm⟩
  · exact .inr (.inl ⟨not_not.mp h1, h2, h.symm⟩)
  · exact .inr (.inr (.inl ⟨not_not.mp h1, Bool.not_eq_false _ ▸ h2, h3, h.symm⟩))
  · refine .inr (.inr (.inr (.inl ⟨not_not.mp h1, by simpa using h2, by simpa using h3, ?_, h.symm⟩)))
    exact fun h' => by simp [ha.mpr h'] at h4
  · refine .inr (.inr (.inr (.inr ⟨not_not.mp h1, by simpa using h2, by simpa using h3, ?_, ?_⟩)))
    · exact ha.mp (by simpa using h4)
    · rw [← h]
      simp [readRange, keyRange]

/-- What ENCRYPT can answer with a next state (43_encrypt.md R170). -/
theorem execEncrypt_cases {k : Fin 16} {s t : State} (h : execEncrypt k s = .next t) :
    (¬ EncArgsGood k s ∧ t = raise .badArgument s)
    ∨ (EncArgsGood k s ∧ ¬ ScratchEnough s ∧ t = raise .outOfMemory s)
    ∨ (EncArgsGood k s ∧ ScratchEnough s ∧ ∃ a, firstUnadmitted s.params (encRanges s.regs) = some a ∧ t = raiseBus a s)
    ∨ (EncReady k s ∧ t = encRun k s) := by
  rw [execEncrypt] at h
  by_cases h1 : encBadArgument k s = true
  · rw [if_pos h1] at h
    injection h with h
    exact .inl ⟨(encBadArgument_iff k s).mp h1, h.symm⟩
  have g1 := not_not.mp (mt (encBadArgument_iff k s).mpr h1)
  rw [if_neg h1] at h
  by_cases h2 : encOutOfMemory s = true
  · rw [if_pos h2] at h
    injection h with h
    exact .inr (.inl ⟨g1, (encOutOfMemory_iff s).mp h2, h.symm⟩)
  have g2 := not_not.mp (mt (encOutOfMemory_iff s).mpr h2)
  rw [if_neg h2] at h
  cases h3 : firstUnadmitted s.params (encRanges s.regs) with
  | some a =>
    rw [h3] at h
    injection h with h
    exact .inr (.inr (.inl ⟨g1, g2, a, rfl, h.symm⟩))
  | none =>
    simp only [h3] at h
    split_ifs at h with h4
    injection h with h
    exact .inr (.inr (.inr ⟨⟨g1, g2, (encRanges_admitted _ _).mp h3, mt (encOverlap_iff k _).mpr h4⟩, h.symm⟩))

/-- What DECRYPT can answer with a next state (44_decrypt.md R190). -/
theorem execDecrypt_cases {k : Fin 16} {s t : State} (h : execDecrypt k s = .next t) :
    (¬ DecArgsGood k s ∧ t = raise .badArgument s)
    ∨ (DecArgsGood k s ∧ ∃ a, firstUnadmitted s.params (decRanges s.regs) = some a ∧ t = raiseBus a s)
    ∨ (DecReady k s ∧ t = decRun k s) := by
  rw [execDecrypt] at h
  by_cases h1 : decBadArgument k s = true
  · rw [if_pos h1] at h
    injection h with h
    exact .inl ⟨(decBadArgument_iff k s).mp h1, h.symm⟩
  have g1 := not_not.mp (mt (decBadArgument_iff k s).mpr h1)
  rw [if_neg h1] at h
  cases h3 : firstUnadmitted s.params (decRanges s.regs) with
  | some a =>
    rw [h3] at h
    injection h with h
    exact .inr (.inl ⟨g1, a, rfl, h.symm⟩)
  | none =>
    simp only [h3] at h
    split_ifs at h with h4
    injection h with h
    exact .inr (.inr ⟨⟨g1, (decRanges_admitted _ _).mp h3, mt (decOverlap_iff k _).mpr h4⟩, h.symm⟩)

/-- ENCRYPT past its checks: it hangs, or it finishes after the hardware path, or it finishes without one. -/
theorem encRun_cases (k : Fin 16) (s : State) :
    (EncHw s.regs ∧ hangDraw s = true
      ∧ encRun k s = hangWith [dstRange s.regs, tagOutRange s.regs] (afterHangDraw (loadIv s)))
    ∨ (EncHw s.regs ∧ hangDraw s = false ∧ encRun k s = encFinish k (encHardware k (afterHangDraw (loadIv s))))
    ∨ (¬ EncHw s.regs ∧ encRun k s = encFinish k (loadIv s)) := by
  have hd : hangDraw (loadIv s) = hangDraw s := hangDraw_congr rfl
  have hp := encHwPath_iff s.regs
  rw [encRun]
  simp only [show (loadIv s).regs = s.regs from rfl, hd]
  by_cases h1 : encHwPath s.regs = true
  · rw [if_pos h1]
    cases h2 : hangDraw s with
    | true => exact .inl ⟨hp.mp h1, rfl, rfl⟩
    | false => exact .inr (.inl ⟨hp.mp h1, rfl, rfl⟩)
  · rw [if_neg h1]
    exact .inr (.inr ⟨mt hp.mpr h1, rfl⟩)

/-- DECRYPT after its transform: accepted, or failed with the plaintext range zeroed. `m` is the memory after the plaintext
was written. -/
theorem decVerify_cases (c : List Byte) (texp : Block) (r : List Byte × Bool) (s : State) :
    ∃ x, (decVerify c texp r s = decComplete .ok (setTrans x (memWrite s.regs.dstAddr r.1 s))
        ∨ decVerify c texp r s = decAuthFail (setTrans x (memWrite s.regs.dstAddr r.1 s))) := by
  rw [decVerify]
  simp only
  split_ifs
  · exact ⟨s.trans, .inr rfl⟩
  · exact ⟨_, .inl rfl⟩
  · exact ⟨_, .inr rfl⟩
  · exact ⟨s.trans, .inl rfl⟩

theorem decPrepare_eq_setTrans (k : Fin 16) (s : State) : ∃ x, decPrepare k s = setTrans x s := by
  rw [decPrepare]
  split
  · exact ⟨_, rfl⟩
  · exact ⟨_, rfl⟩

/-- What a step can do: the next host operation, TFO's Exec, or nothing (30_encoding.md R81; log 1). -/
theorem step_cases {s t : State} (h : step s = .next t) :
    (∃ op rest, s.inputs = op :: rest ∧ op ≠ .idle ∧ hostAct op { s with inputs := rest } = .next t)
    ∨ (∃ rest, (s.inputs = rest ∨ s.inputs = .idle :: rest) ∧
        ((s.status.busy = true ∧ s.hung = false ∧ ∃ i, decode s.params.nSlots s.cmdLatch = .ok i
            ∧ exec i { s with inputs := rest } = .next t)
          ∨ (s.status.busy = true ∧ s.hung = false ∧ (∀ i, decode s.params.nSlots s.cmdLatch ≠ .ok i)
            ∧ t = raise .illegalCommand { s with inputs := rest })
          ∨ (¬ (s.status.busy = true ∧ s.hung = false) ∧ t = { s with inputs := rest }))) := by
  have turn : ∀ rest, tfoTurn { s with inputs := rest } = .next t →
      ((s.status.busy = true ∧ s.hung = false ∧ ∃ i, decode s.params.nSlots s.cmdLatch = .ok i
          ∧ exec i { s with inputs := rest } = .next t)
        ∨ (s.status.busy = true ∧ s.hung = false ∧ (∀ i, decode s.params.nSlots s.cmdLatch ≠ .ok i)
          ∧ t = raise .illegalCommand { s with inputs := rest })
        ∨ (¬ (s.status.busy = true ∧ s.hung = false) ∧ t = { s with inputs := rest })) := by
    intro rest h
    rw [tfoTurn] at h
    split_ifs at h with hb
    · have hb' : s.status.busy = true ∧ s.hung = false := by simpa using hb
      rw [execLatched] at h
      split at h
      · rename_i i hi
        exact .inl ⟨hb'.1, hb'.2, i, hi, h⟩
      · rename_i e he
        injection h with h
        refine .inr (.inl ⟨hb'.1, hb'.2, ?_, h.symm⟩)
        intro i hi
        cases hi.symm.trans he
    · injection h with h
      exact .inr (.inr ⟨fun h' => hb (by simp [h'.1, h'.2]), h.symm⟩)
  rw [step] at h
  split at h
  · rename_i hs
    refine .inr ⟨[], .inl hs, turn [] ?_⟩
    rw [← h]
    congr 1
    rw [← hs]
  · rename_i op rest hs
    rw [hostTurn] at h
    split_ifs at h with ho
    · exact .inr ⟨rest, .inr (by rw [hs, ho]), turn rest h⟩
    · exact .inl ⟨op, rest, hs, ho, h⟩

/-- ENCRYPT with a cause of BadArgument (43_encrypt.md R171). -/
theorem exec_encrypt_of_bad_args {k : Fin 16} {s : State} (h : ¬ EncArgsGood k s) :
    exec (.encrypt k) s = .next (raise .badArgument s) := by
  change execEncrypt k s = _
  rw [execEncrypt, if_pos ((encBadArgument_iff k s).mpr h)]

/-- ENCRYPT without enough scratch (43_encrypt.md R174). -/
theorem exec_encrypt_of_no_scratch {k : Fin 16} {s : State} (h : EncArgsGood k s) (h2 : ¬ ScratchEnough s) :
    exec (.encrypt k) s = .next (raise .outOfMemory s) := by
  change execEncrypt k s = _
  rw [execEncrypt, if_neg (mt (encBadArgument_iff k s).mp (not_not.mpr h)), if_pos ((encOutOfMemory_iff s).mpr h2)]

/-- ENCRYPT with a range that is not admitted (43_encrypt.md R175). -/
theorem exec_encrypt_of_unadmitted {k : Fin 16} {s : State} (h : EncArgsGood k s) (h2 : ScratchEnough s) {a : Word}
    (h3 : firstUnadmitted s.params (encRanges s.regs) = some a) : exec (.encrypt k) s = .next (raiseBus a s) := by
  change execEncrypt k s = _
  rw [execEncrypt, if_neg (mt (encBadArgument_iff k s).mp (not_not.mpr h)),
    if_neg (mt (encOutOfMemory_iff s).mp (not_not.mpr h2)), h3]

/-- ENCRYPT that runs (43_encrypt.md R170). -/
theorem exec_encrypt_of_ready {k : Fin 16} {s : State} (h : EncReady k s) :
    exec (.encrypt k) s = .next (encRun k s) := by
  obtain ⟨h1, h2, h3, h4⟩ := h
  change execEncrypt k s = _
  rw [execEncrypt, if_neg (mt (encBadArgument_iff k s).mp (not_not.mpr h1)),
    if_neg (mt (encOutOfMemory_iff s).mp (not_not.mpr h2)), (encRanges_admitted _ _).mpr h3]
  simp only
  rw [if_neg (mt (encOverlap_iff k _).mp h4)]

/-- DECRYPT with a cause of BadArgument (44_decrypt.md R191). -/
theorem exec_decrypt_of_bad_args {k : Fin 16} {s : State} (h : ¬ DecArgsGood k s) :
    exec (.decrypt k) s = .next (raise .badArgument s) := by
  change execDecrypt k s = _
  rw [execDecrypt, if_pos ((decBadArgument_iff k s).mpr h)]

/-- DECRYPT with a range that is not admitted (44_decrypt.md R196). -/
theorem exec_decrypt_of_unadmitted {k : Fin 16} {s : State} (h : DecArgsGood k s) {a : Word}
    (h3 : firstUnadmitted s.params (decRanges s.regs) = some a) : exec (.decrypt k) s = .next (raiseBus a s) := by
  change execDecrypt k s = _
  rw [execDecrypt, if_neg (mt (decBadArgument_iff k s).mp (not_not.mpr h)), h3]

/-- DECRYPT that runs (44_decrypt.md R190). -/
theorem exec_decrypt_of_ready {k : Fin 16} {s : State} (h : DecReady k s) :
    exec (.decrypt k) s = .next (decRun k s) := by
  obtain ⟨h1, h3, h4⟩ := h
  change execDecrypt k s = _
  rw [execDecrypt, if_neg (mt (decBadArgument_iff k s).mp (not_not.mpr h1)), (decRanges_admitted _ _).mpr h3]
  simp only
  rw [if_neg (mt (decOverlap_iff k _).mp h4)]

/-- What the completion of an ENCRYPT leaves in every field but memory (43_encrypt.md R170, R178). -/
theorem encFinish_fields (k : Fin 16) (s : State) :
    (encFinish k s).status
        = completedStatus s.status .ok (aadPresent s.regs) (encHwPath s.regs) (encGhcnt (aadPresent s.regs))
      ∧ Frame s (encFinish k s) ∧ (encFinish k s).slots = s.slots ∧ (encFinish k s).hung = s.hung
      ∧ (encFinish k s).trans = Transients.zero ∧ (encFinish k s).errAddr = 0#32
      ∧ (encFinish k s).draws = s.draws := by
  simp only [encFinish]
  split <;> exact ⟨rfl, ⟨rfl, rfl, rfl, rfl, rfl, rfl, rfl⟩, rfl, rfl, rfl, rfl, rfl⟩

/-- What a hang leaves alone (42_ctr_controller.md R158). -/
theorem hangWith_frame (rs : List Range) (s : State) (hm : MemCanonical s) :
    Frame s (hangWith rs s) ∧ SlotsSame s (hangWith rs s) ∧ MemCanonical (hangWith rs s)
      ∧ MemSameOutside (rs.map Range.span) s (hangWith rs s) := by
  refine ⟨by simp [Frame], fun i => slotAt_congr (by simp) i, havoc_wf rs s hm, fun a ha => ?_⟩
  exact readByte_havoc rs s a hm fun r hr => ha r.span (List.mem_map_of_mem hr)

/-- DECRYPT past its checks: it hangs, or the transform completes and the tag is verified. -/
theorem decRun_cases (k : Fin 16) (s : State) :
    ∃ x, decPrepare k s = setTrans x s ∧
      ((hangDraw s = true ∧ decRun k s = hangWith [dstRange s.regs] (afterHangDraw (setTrans x s)))
        ∨ (hangDraw s = false ∧ decRun k s = decVerify (srcBytes s) (expectedTag s)
            (hwDec (engineInit k (setTrans x s)) (srcBytes s) (decTagForHw (setTrans x s)))
            (afterHangDraw (setTrans x s)))) := by
  obtain ⟨x, hx⟩ := decPrepare_eq_setTrans k s
  have hd : hangDraw (setTrans x s) = hangDraw s := hangDraw_congr rfl
  refine ⟨x, hx, ?_⟩
  rw [decRun]
  simp only [hx, hd]
  cases hangDraw s
  · exact .inr ⟨rfl, rfl⟩
  · exact .inl ⟨rfl, rfl⟩

/-- A host memory access that does not stop. -/
theorem hostMemory_next {r : Range} {s t u : State} (h : hostMemory r s t = .next u) :
    u = t ∧ r.addr.toNat + r.len ≤ 2 ^ 32 := by
  unfold hostMemory at h
  split_ifs at h with h1
  injection h with h
  exact ⟨h.symm, by omega⟩

/-- What one host operation can do (70_reset_and_hazards.md R244). -/
theorem hostAct_cases {op : HostOp} {s t : State} (h : hostAct op s = .next t) :
    (∃ off z v, op = .regWrite off z v ∧ ((s.status.busy = true ∧ t = overrun s)
        ∨ (s.status.busy = false ∧ off = 0x04#8 ∧ t = accept v s)
        ∨ (s.status.busy = false ∧ off ≠ 0x04#8 ∧ t = { s with regs := writeOperand off v s.regs })))
    ∨ (∃ off z, op = .regRead off z ∧ t = hostRead off s)
    ∨ (∃ a bs, op = .memStore a bs ∧ t = memWrite a bs s ∧ a.toNat + bs.length ≤ 2 ^ 32)
    ∨ (∃ a n, op = .memLoad a n ∧ t = { s with rdMem := readBytes s.mem a.toNat n } ∧ a.toNat + n ≤ 2 ^ 32)
    ∨ (op = .reset ∧ t = resetEvent s)
    ∨ (op = .idle ∧ t = s) := by
  cases op with
  | regWrite off z v =>
    simp only [hostAct] at h
    split_ifs at h
    injection h with h
    refine .inl ⟨off, z, v, rfl, ?_⟩
    rw [← h, writeWindow]
    cases hb : s.status.busy
    · simp only [Bool.false_eq_true, if_false]
      split
      · exact .inr (.inl ⟨trivial, ‹_›, rfl⟩)
      · exact .inr (.inr ⟨trivial, ‹_›, rfl⟩)
    · exact .inl ⟨rfl, rfl⟩
  | regRead off z =>
    simp only [hostAct] at h
    split_ifs at h
    injection h with h
    exact .inr (.inl ⟨off, z, rfl, h.symm⟩)
  | memStore a bs =>
    obtain ⟨h1, h2⟩ := hostMemory_next h
    exact .inr (.inr (.inl ⟨a, bs, rfl, h1, h2⟩))
  | memLoad a n =>
    obtain ⟨h1, h2⟩ := hostMemory_next h
    exact .inr (.inr (.inr (.inl ⟨a, n, rfl, h1, h2⟩)))
  | reset =>
    injection h with h
    exact .inr (.inr (.inr (.inr (.inl ⟨rfl, h.symm⟩))))
  | idle =>
    injection h with h
    exact .inr (.inr (.inr (.inr (.inr ⟨rfl, h.symm⟩))))

end Sys2Proof.Machine
end

