-- ==== Sys2Proof/Laws/PerInstr.lean ====
section
/-! SUPPORT. Statements about every command, one lemma per constructor. -/

namespace Sys2Proof.Laws

/-- The three fields of a command's word hold 0, the command's opcode and its slot (30_encoding.md R70, R71). -/
def EncodeFields.Statement (i : Instr) : Prop :=
  rsvdField (encode i) = 0#20 ∧ opField (encode i) = i.opcode ∧ slotField (encode i) = i.slot

theorem EncodeFields.nop (slot : Fin 16) : EncodeFields.Statement (.nop slot) := by
  revert slot; unfold EncodeFields.Statement; decide

theorem EncodeFields.installKey (slot : Fin 16) : EncodeFields.Statement (.installKey slot) := by
  revert slot; unfold EncodeFields.Statement; decide

theorem EncodeFields.releaseKey (slot : Fin 16) : EncodeFields.Statement (.releaseKey slot) := by
  revert slot; unfold EncodeFields.Statement; decide

theorem EncodeFields.encrypt (slot : Fin 16) : EncodeFields.Statement (.encrypt slot) := by
  revert slot; unfold EncodeFields.Statement; decide

theorem EncodeFields.decrypt (slot : Fin 16) : EncodeFields.Statement (.decrypt slot) := by
  revert slot; unfold EncodeFields.Statement; decide

end Sys2Proof.Laws
end

