-- ==== Sys2Proof/Tests/Slice0.lean ====
section
/-! SUPPORT. Tests whose expected results come from spec/, and one witness per statement that has hypotheses. -/

namespace Sys2Proof.Tests

open Sys2Proof.Machine

/-! ### Well-formedness: an ill-formed term for each check -/

/-- 30_encoding.md R72, the last legal slot and the first illegal one. -/
theorem test_slot_bound : (Instr.nop 3).WellFormed 4 ∧ ¬ (Instr.nop 4).WellFormed 4 ∧ ¬ (Instr.installKey 1).WellFormed 1
    ∧ ¬ (Instr.releaseKey 15).WellFormed 15 ∧ ¬ (Instr.encrypt 4).WellFormed 4 ∧ ¬ (Instr.decrypt 4).WellFormed 4 := by
  decide

/-- 00_scope.md R8, one violation for each range. -/
theorem test_params_ranges : Params.standard.WellFormed
    ∧ ¬ { Params.standard with base := 0x40000080#32 }.WellFormed ∧ ¬ { Params.standard with nSlots := 0 }.WellFormed
    ∧ ¬ { Params.standard with nSlots := 17 }.WellFormed ∧ ¬ { Params.standard with scratchCap := 15 }.WellFormed := by
  decide

/-! ### Decoding: words written out as RSVD (20 bits), SLOT (4 bits), OP (8 bits) (30_encoding.md R70, R71) -/

theorem test_decode_nop :
    decode 4 0b00000000000000000000_0010_00000000#32 = .ok (.nop 2) := by decide

theorem test_decode_installKey :
    decode 4 0b00000000000000000000_0001_00000001#32 = .ok (.installKey 1) := by decide

theorem test_decode_releaseKey :
    decode 16 0b00000000000000000000_1111_00000010#32 = .ok (.releaseKey 15) := by decide

theorem test_decode_encrypt :
    decode 4 0b00000000000000000000_0011_00010000#32 = .ok (.encrypt 3) := by decide

theorem test_decode_decrypt :
    decode 4 0b00000000000000000000_0010_00010001#32 = .ok (.decrypt 2) := by decide

/-- 95_test_vectors.md 2.1: the rejected words, and the lowest and highest RSVD bit. -/
theorem test_decode_rejects : decode 4 0x00001010#32 = .error .reservedBits ∧ decode 4 0x80000011#32 = .error .reservedBits
    ∧ decode 4 0x00000003#32 = .error .reservedOpcode ∧ decode 4 0x000000FF#32 = .error .reservedOpcode
    ∧ decode 4 0x00000410#32 = .error .slotOutOfRange ∧ decode 4 0x00000400#32 = .error .slotOutOfRange := by decide

theorem test_decodeTableWord : decodeTableWord 32 0x00000102 = some (.releaseKey 1)
    ∧ decodeTableWord 32 0x00000F11 = some (.decrypt 15) ∧ decodeTableWord 32 0x00000012 = none := by decide

/-! ### The units (95_test_vectors.md 2.2) -/

/-- The first word of the key schedule past the key, and SubBytes' table at both ends. -/
theorem test_key_schedule :
    (keySchedule 0x000102030405060708090a0b0c0d0e0f101112131415161718191a1b1c1d1e1f#256).getD 8 0#32 = 0xa573c29f#32
    ∧ (keySchedule 0x000102030405060708090a0b0c0d0e0f101112131415161718191a1b1c1d1e1f#256).getD 11 0#32 = 0xa572c09c#32
    ∧ sbox 0x00#8 = 0x63#8 ∧ sbox 0xFF#8 = 0x16#8 ∧ sbox 0x53#8 = 0xed#8 := by decide +kernel

/-- The pre-counter block of S3 under S3's key is its tag mask. -/
theorem test_aes_tag_mask :
    aes 0xfeffe9928665731c6d6a8f9467308308feffe9928665731c6d6a8f9467308308#256 0xcafebabefacedbaddecaf88800000001#128
      = 0xfd2caa16a5832e76aa132c1453eeda7e#128 := by decide +kernel

theorem test_gf128Mul : gf128Mul 0x0388dace60b6a392f328c2b971b2fe78#128 0xdc95c078a2408989ad48a21492842087#128
      = 0xb7c209370da436bd105e3e01b6c1d39a#128
    ∧ gf128Mul 1#128 1#128 = 0xe6080000000000000000000000000003#128 := by decide +kernel

/-- S2's ciphertext without AAD, and S3's AAD without ciphertext. -/
theorem test_ghash : ghash 0xdc95c078a2408989ad48a21492842087#128 [] (beBytes 16 0xcea7403d4d606b6e074ec5d3baf39d18)
      = 0x83de425c5edc5d498f382c441041ca92#128
    ∧ ghash 0xacbef20579b4b8ebce889bac8732dad7#128 (beBytes 20 0xfeedfacedeadbeeffeedfacedeadbeefabaddad2) []
      = 0x62474a60a6439ecbb861a954300713c4#128 := by decide +kernel

theorem test_inc32 : inc32 0xcafebabefacedbaddecaf888ffffffff#128 = 0xcafebabefacedbaddecaf88800000000#128
    ∧ inc32 0xcafebabefacedbaddecaf888000000ff#128 = 0xcafebabefacedbaddecaf88800000100#128 := by decide

/-- A difference in byte 0 only, and in byte 15 only. -/
theorem test_ctEq16 : ctEq16 5#128 5#128 = true ∧ ctEq16 (1#128 <<< 120) 0#128 = false ∧ ctEq16 1#128 0#128 = false := by
  decide

/-! ### States the tests start from (95_test_vectors.md 2.4 to 2.6) -/

/-- What holds of the next state, false where there is none. -/
def after (o : Host.Outcome State Fault Refusal) (p : State → Bool) : Bool :=
  match o with
  | .next t => p t
  | _ => false

/-- The refusal, if the outcome is one. -/
def refusalOf (o : Host.Outcome State Fault Refusal) : Option Refusal :=
  match o with
  | .refused r => some r
  | _ => none

/-- Memory holding the strings at their addresses. -/
def memOf (l : List (Nat × List Byte)) : Memory := l.foldl (fun m c => writeBytes m c.1 c.2) []

/-- The common start state: the draws say that the next DMA initialisation succeeds and the next transform completes. -/
def start (l : List (Nat × List Byte)) (r : OperandRegs) : State :=
  { State.resetOf Params.standard (memOf l) [] { dmaInit := [true], hang := [false], next := 0 } with regs := r }

def s3Key : Nat := 0xfeffe9928665731c6d6a8f9467308308feffe9928665731c6d6a8f9467308308
def s3Iv : List Byte := beBytes 12 0xcafebabefacedbaddecaf888
def s3Aad : List Byte := beBytes 20 0xfeedfacedeadbeeffeedfacedeadbeefabaddad2
def s3Plain : List Byte :=
  beBytes 60 0xd9313225f88406e5a55909c5aff5269a86a7a9531534f7da2e4c303d8a318a721c3c0c95956809532fcf0e2449a6b525b16aedf5aa0de657ba637b39
def s3Cipher : List Byte :=
  beBytes 60 0x522dc1f099567d07f47f37a32a84427d643a8cdcbfe5c0c97598a2bd2555d1aa8cb08e48590dbb3da7b08b1056828838c5f61e6393ba7a0abcc9f662

/-- The registers of 95_test_vectors.md 2.5, 60 bytes of plaintext, 20 of AAD, a tag of 16. -/
def encRegs : OperandRegs :=
  { OperandRegs.zero with
    ivAddr := 0x1040#32, ivLen := 12#32, srcAddr := 0x1100#32, srcLen := 60#32, dstAddr := 0x1200#32
    aadAddr := 0x1300#32, aadLen := 20#32, tagAddr := 0x1400#32, tagLen := 16#32 }

/-- ENCRYPT's start: slot 0 bound to S3's key. -/
def encStart (r : OperandRegs) : State :=
  bindSlot 0 (BitVec.ofNat 256 s3Key) 0#32
    (start [(0x1040, s3Iv), (0x1100, s3Plain), (0x1300, s3Aad), (0x1400, List.replicate 16 0xEE#8)] r)

/-- The registers of 95_test_vectors.md 2.6. -/
def decRegs : OperandRegs := { encRegs with srcAddr := 0x1200#32, dstAddr := 0x1500#32 }

/-- DECRYPT's start: slot 0 bound to S3's key, the tag `t` in the tag buffer. -/
def decStart (t : Nat) (r : OperandRegs) : State :=
  bindSlot 0 (BitVec.ofNat 256 s3Key) 0#32
    (start [(0x1040, s3Iv), (0x1200, s3Cipher), (0x1300, s3Aad), (0x1400, beBytes 16 t), (0x1500, List.replicate 60 0x55#8)]
      r)

/-- The registers of 95_test_vectors.md 2.4. -/
def keyRegs : OperandRegs := { OperandRegs.zero with keyAddr := 0x1000#32, keyLen := 32#32, usage := 7#32 }

/-- INSTALL_KEY's start, slot 0 not bound. -/
def keyStart (r : OperandRegs) : State := start [(0x1000, beBytes 32 s3Key)] r

/-- The word `w` accepted, TFO's turn next. -/
def accepted (w : Word) : State := accept w (start [] OperandRegs.zero)

/-- TFO hung with an ENCRYPT latched. -/
def hungState : State := { accepted 0x10#32 with hung := true }

/-! ### One step of each command -/

/-- NOP after an error clears the code (95_test_vectors.md 2.4). -/
theorem test_nop : after (step (State.withFetchWord (raise .badArgument (start [] OperandRegs.zero)) 32 0x0)) (fun t =>
    statusWord t.status == 0#32) = true := by decide

/-- INSTALL_KEY 0 binds S3's key (95_test_vectors.md 2.4, first row). -/
theorem test_installKey : after (step (State.withFetchWord (keyStart keyRegs) 32 0x1)) (fun t =>
    statusWord t.status == 0#32 && readWindow 0x1C#8 t == 1#32
      && slotAt t 0 == { valid := true, key := BitVec.ofNat 256 s3Key, usage := 7#32 }) = true := by decide +kernel

/-- KEY_ADDR = 0xFFFFFFF0 with a bound slot: BusError, the slot is lost (95_test_vectors.md 2.4). -/
theorem test_installKey_busError :
    after (exec (.installKey 0) (bindSlot 0 5#256 1#32 (keyStart { keyRegs with keyAddr := 0xFFFFFFF0#32 }))) (fun t =>
      statusWord t.status == 0x800#32 && t.errAddr == 0xFFFFFFF0#32 && slotAt t 0 == Slot.unbound) = true := by
  decide +kernel

/-- RELEASE_KEY 1 of a bound slot leaves slot 0 bound (95_test_vectors.md P3, step 10). -/
theorem test_releaseKey :
    after (step (State.withFetchWord (bindSlot 1 9#256 7#32 (bindSlot 0 5#256 1#32 (start [] OperandRegs.zero))) 32 0x102))
      (fun t => statusWord t.status == 0#32 && readWindow 0x1C#8 t == 1#32 && slotAt t 1 == Slot.unbound) = true := by
  decide +kernel

/-- E1 of 95_test_vectors.md 2.5 (S3): both paths of ENCRYPT. -/
theorem test_encrypt : after (step (State.withFetchWord (encStart encRegs) 32 0x10)) (fun t =>
    statusWord t.status == 0x1C#32 && readBytes t.mem 0x1200 60 == s3Cipher
      && beNat (readBytes t.mem 0x1400 16) == 0x76fc6ece0f4e1768cddf8853bb2d551b) = true := by decide +kernel

/-- E7 of 95_test_vectors.md 2.5: no plaintext, no hardware path, a tag of 12 bytes. -/
theorem test_encrypt_truncated_tag :
    after (exec (.encrypt 0) (encStart { encRegs with srcLen := 0#32, srcAddr := 0#32, tagLen := 12#32 })) (fun t =>
      statusWord t.status == 0x14#32 && beNat (readBytes t.mem 0x1400 16) == 0x9f6be07603c0b0bd12728540eeeeeeee) = true := by
  decide +kernel

/-- X15 of 95_test_vectors.md 2.6: the software check accepts. -/
theorem test_decrypt :
    after (step (State.withFetchWord (decStart 0x9f6be07603c0b0bd1272854063e9c9ba { decRegs with srcLen := 0#32 }) 32 0x11))
      (fun t => statusWord t.status == 0x2C#32 && readBytes t.mem 0x1500 2 == [0x55#8, 0x55#8]) = true := by decide +kernel

/-- The one-byte row of 95_test_vectors.md 2.3 (ciphertext 52, plaintext d9) with a tag that is not its CTR_TAG: the hardware
check fails and the plaintext byte is zeroed, the byte after it is not (44_decrypt.md R195). -/
theorem test_decrypt_zeroes :
    after (exec (.decrypt 0) (decStart 0xb5520a1f1294a0416faea89b143ae140 { decRegs with srcLen := 1#32, aadLen := 0#32 }))
      (fun t => statusWord t.status == 0x608#32 && readBytes t.mem 0x1500 2 == [0x00#8, 0x55#8]) = true := by decide +kernel

/-! ### The host's side (95_test_vectors.md 2.7) -/

/-- A write to KEY_LEN while a NOP waits: ignored, STATUS reads 3, then 2 after Exec. -/
theorem test_write_while_busy : after (hostAct (.regWrite 0x14#8 .word 5#32) (accepted 0#32)) (fun t =>
    readWindow 0x08#8 t == 3#32 && readWindow 0x14#8 t == 0#32
      && after (step t) (fun u => readWindow 0x08#8 u == 2#32)) = true := by decide

/-- CMD and 0x80 read 0; a write to STATUS with BUSY = 0 changes nothing. -/
theorem test_window : readWindow 0x04#8 (accepted 0x10#32) = 0#32 ∧ readWindow 0x80#8 (accepted 0x10#32) = 0#32
    ∧ after (hostAct (.regWrite 0x08#8 .word 0xFFFFFFFF#32) State.reset) (fun t => t == State.reset) = true := by decide

/-- A reset into a hang: STATUS reads 0 and memory outside the outputs is as it was (70_reset_and_hazards.md R240, R241). -/
theorem test_reset_ends_hang : after (hostAct .reset hungState) (fun t =>
    readWindow 0x08#8 t == 0#32 && t.hung == false && t.mem == []) = true := by decide

/-! ### Witnesses: a state and operands that meet the hypotheses of each statement -/

/-- Slot 0 bound to the zero key, nothing listed in memory. -/
def bare (r : OperandRegs) : State := bindSlot 0 0#256 0#32 (start [] r)

/-- `bare` with S1's tag of 95_test_vectors.md part 1 in the tag buffer. -/
def bareTag (r : OperandRegs) : State :=
  bindSlot 0 0#256 0#32 (start [(0x1400, beBytes 16 0x530f8afbc74536b9a963b4f1c4cb738b)] r)

theorem encReady_bare : EncReady 0 (bare encRegs) :=
  ⟨by decide, by decide, (encRanges_admitted _ _).mp (by decide +kernel), by decide⟩

theorem decReady_bare : DecReady 0 (bare decRegs) :=
  ⟨by decide, (decRanges_admitted _ _).mp (by decide +kernel), by decide⟩

theorem witness_DecodeOfEncode : (Instr.encrypt 3).WellFormed 4 ∧ (Instr.nop 15).WellFormed 16 := by decide

theorem witness_EncodeOfDecode : decode 4 0x311#32 = .ok (.decrypt 3) := by decide

theorem witness_StepRunsTheDecodedCommand :
    ((accepted 0x102#32).status.busy = true ∧ (accepted 0x102#32).hung = false
      ∧ decode (accepted 0x102#32).params.nSlots (accepted 0x102#32).cmdLatch = .ok (.releaseKey 1)
      ∧ (accepted 0x102#32).inputs = [])
    ∧ { accepted 0x102#32 with inputs := [.idle, .reset] }.inputs = .idle :: [.reset] := by decide

theorem witness_StepWithoutExec :
    ({ State.reset with inputs := [.regRead 0x08#8 .word] }.inputs = [.regRead 0x08#8 .word]
      ∧ HostOp.regRead 0x08#8 .word ≠ .idle)
    ∧ (State.reset.inputs = [] ∧ State.reset.status.busy = false) ∧ (hungState.inputs = [] ∧ hungState.hung = true)
    ∧ ({ State.reset with inputs := [.idle] }.inputs = .idle :: [] ∧ { State.reset with inputs := [.idle] }.status.busy = false)
    ∧ ({ hungState with inputs := [.idle, .reset] }.inputs = .idle :: [.reset]
      ∧ { hungState with inputs := [.idle, .reset] }.hung = true) := by decide

/-- One word for each way a word can be illegal: RSVD bit 12, an OP of 0x12, SLOT = N_SLOTS. -/
theorem witness_IllegalWordRaisesIllegalCommand :
    (BusyCleared (accepted 0x1010#32) ∧ (accepted 0x1010#32).inputs = [] ∧ (accepted 0x1010#32).status.busy = true
      ∧ (accepted 0x1010#32).hung = false)
    ∧ (BusyCleared { accepted 0x1010#32 with inputs := [.idle] }
      ∧ { accepted 0x1010#32 with inputs := [.idle] }.inputs = .idle :: [])
    ∧ (accepted 0x1010#32).cmdLatch.extractLsb' 12 20 ≠ 0#20
    ∧ (accepted 0x12#32).cmdLatch.extractLsb' 0 8 ∉ [0x00#8, 0x01#8, 0x02#8, 0x10#8, 0x11#8]
    ∧ (accepted 0x410#32).params.nSlots ≤ ((accepted 0x410#32).cmdLatch.extractLsb' 8 4).toNat := by decide

theorem witness_CmdWriteIsAccepted : State.reset.status.busy = false := by decide

/-- A legal word and an illegal one; a busy TFO and an idle one; STATUS and another register. -/
theorem witness_HandedRangesFollowTheDuty : State.reset.status.busy = false
    ∧ decode State.reset.params.nSlots 0x311#32 = .ok (.decrypt 3)
    ∧ (∀ i, decode State.reset.params.nSlots 0x411#32 ≠ .ok i)
    ∧ (0x04#8).toNat % 4 = 0 ∧ (accepted 0x10#32).status.busy = true ∧ 0x08#8 ≠ 0x04#8 ∧ (0x08#8).toNat % 4 = 0 :=
  ⟨by decide, by decide, fun _ => nofun, by decide, by decide, by decide, by decide⟩

/-- The first and the last offset of the window. -/
theorem witness_BusyWritesOnlySetOvr : (0x00#8).toNat % 4 = 0 ∧ (0xFC#8).toNat % 4 = 0
    ∧ (accepted 0x10#32).status.busy = true ∧ BusyCleared (accepted 0x10#32) := by decide

theorem witness_OperandRegisterReadsBack :
    State.reset.status.busy = false ∧ 0x10#8 ∈ operandOffsets ∧ 0x40#8 ∈ operandOffsets ∧ 0x3C#8 ≠ 0x40#8 := by decide

/-- Read-only offsets at both ends of the window, and the first reserved one. -/
theorem witness_FixedRegisters : State.reset.status.busy = false
    ∧ (0x00#8).toNat % 4 = 0 ∧ 0x00#8 ∉ operandOffsets ∧ (0x44#8).toNat % 4 = 0 ∧ 0x44#8 ∉ operandOffsets
    ∧ (0xFC#8).toNat % 4 = 0 ∧ 0xFC#8 ∉ operandOffsets ∧ 0x44 ≤ (0x44#8).toNat ∧ 0x44 ≤ (0xFC#8).toNat
    ∧ (accepted 0x10#32).status.busy = true := by decide

theorem witness_SlotStateShowsValid : (bare encRegs).params.nSlots ≤ 16
    ∧ (0 : Fin 16).val < (bare encRegs).params.nSlots ∧ (slotAt (bare encRegs) 0).valid = true
    ∧ (bare encRegs).params.nSlots ≤ 4 ∧ (bare encRegs).status.busy = false := by decide

/-- A range handed over, 12 bytes at 0x1040. -/
def handedState : State := { State.reset with handed := [{ addr := 0x1040#32, len := 12 }] }

/-- For a store and for a load: just past a handed range, just below the window, the last byte of the address space. -/
theorem witness_HostStoreWritesItsBytes : MemCanonical handedState
    ∧ ((0x104C#32).toNat + [0xAB#8].length ≤ 2 ^ 32 ∧ ¬ Overlaps 0x104C#32 1 handedState.params.base 256
      ∧ ∀ r ∈ handedState.handed, ¬ Overlaps 0x104C#32 1 r.addr r.len)
    ∧ ((0x3FFFFFFF#32).toNat + [0xAB#8].length ≤ 2 ^ 32 ∧ ¬ Overlaps 0x3FFFFFFF#32 1 handedState.params.base 256
      ∧ ∀ r ∈ handedState.handed, ¬ Overlaps 0x3FFFFFFF#32 1 r.addr r.len)
    ∧ ((0xFFFFFFFF#32).toNat + [0xAB#8].length ≤ 2 ^ 32 ∧ ¬ Overlaps 0xFFFFFFFF#32 1 handedState.params.base 256
      ∧ ∀ r ∈ handedState.handed, ¬ Overlaps 0xFFFFFFFF#32 1 r.addr r.len) :=
  ⟨by decide, by decide, by decide, by decide⟩

/-- Each clause at its boundary: a misaligned word, a half word, one byte past the top, the window's last byte, the last
byte of a handed range; a store of as many bytes as the load. -/
theorem witness_HostAccessStops : (0x09#8).toNat % 4 ≠ 0 ∧ AccessSize.half ≠ .word
    ∧ ([0xAB#8].length = 1 ∧ HostOp.memStore 0x104B#32 [0xAB#8] = .memStore 0x104B#32 [0xAB#8])
    ∧ 2 ^ 32 < (0xFFFFFFFF#32).toNat + 2
    ∧ ((0x400000FF#32).toNat + 1 ≤ 2 ^ 32 ∧ Overlaps 0x400000FF#32 1 handedState.params.base 256)
    ∧ ((0x104B#32).toNat + 1 ≤ 2 ^ 32 ∧ ¬ Overlaps 0x104B#32 1 handedState.params.base 256
      ∧ ∃ r ∈ handedState.handed, Overlaps 0x104B#32 1 r.addr r.len) := by decide

theorem witness_ReleaseKeyUnbinds : slotAt State.reset 2 = { valid := false, key := 0#256, usage := 0#32 } := by decide

/-- The key range ends at the last admitted byte. -/
theorem witness_InstallKeyBinds :
    (keyStart { keyRegs with keyAddr := 0xFFE0#32 }).regs.keyLen = 32#32
    ∧ (keyStart { keyRegs with keyAddr := 0xFFE0#32 }).params.devicePresent = true
    ∧ dmaInitDraw (keyStart { keyRegs with keyAddr := 0xFFE0#32 }) = true
    ∧ RangeAdmitted (keyStart { keyRegs with keyAddr := 0xFFE0#32 }).params 0xFFE0#32 32 := by decide +kernel

/-- No device; a failing draw; a key range that starts one byte too early or passes the top of the address space. -/
theorem witness_InstallKeyErrors : (keyStart { keyRegs with keyLen := 16#32 }).regs.keyLen ≠ 32#32
    ∧ { keyStart keyRegs with params := { Params.standard with devicePresent := false } }.params.devicePresent = false
    ∧ ((keyStart keyRegs).regs.keyLen = 32#32 ∧ (keyStart keyRegs).params.devicePresent = true
      ∧ dmaInitDraw { keyStart keyRegs with draws := { dmaInit := [false], hang := [], next := 0 } } = false)
    ∧ (dmaInitDraw (keyStart keyRegs) = true ∧ ¬ RangeAdmitted Params.standard 0x0FFF#32 32
      ∧ ¬ RangeAdmitted Params.standard 0xFFFFFFF0#32 32) := by decide +kernel

/-- Each cause of BadArgument on its own (E4, E11 to E15 of 95_test_vectors.md 2.5), and a command that ends with it. -/
theorem witness_EncryptBadArgument : ¬ EncArgsGood 0 (bare { encRegs with tagLen := 17#32 })
    ∧ ¬ EncArgsGood 0 (bare { encRegs with ivLen := 8#32 }) ∧ ¬ EncArgsGood 0 (bare { encRegs with ivAddr := 0#32 })
    ∧ ¬ EncArgsGood 0 (bare { encRegs with tagAddr := 0#32 })
    ∧ ¬ EncArgsGood 0 (bare { encRegs with srcAddr := 0#32 }) ∧ ¬ EncArgsGood 1 (bare encRegs)
    ∧ after (exec (.encrypt 1) (bare encRegs)) (fun t => t.status.busy == false && t.status.err == .badArgument) = true := by
  decide +kernel

/-- E16 of 95_test_vectors.md 2.5: 61 + 16 > 76. -/
theorem witness_EncryptOutOfMemory : EncArgsGood 0 (bare { encRegs with srcLen := 61#32 })
    ∧ ¬ ScratchEnough (bare { encRegs with srcLen := 61#32 }) ∧ ScratchEnough (bare encRegs)
    ∧ after (exec (.encrypt 0) (bare { encRegs with srcLen := 61#32 }))
        (fun t => t.status.busy == false && t.status.err == .outOfMemory) = true := by decide +kernel

/-- E19 of 95_test_vectors.md 2.5: the destination is the first range that is not admitted. -/
theorem witness_EncryptBusErrorNamesFirstRange :
    EncArgsGood 0 (bare { encRegs with dstAddr := 0xFFF0#32 })
    ∧ ScratchEnough (bare { encRegs with dstAddr := 0xFFF0#32 })
    ∧ encSpans (bare { encRegs with dstAddr := 0xFFF0#32 }).regs
        = [(0x1040#32, 12), (0x1100#32, 60)] ++ (0xFFF0#32, 60) :: [(0x1300#32, 20), (0x1400#32, 16)]
    ∧ AllSpansAdmitted Params.standard [(0x1040#32, 12), (0x1100#32, 60)]
    ∧ ¬ RangeAdmitted Params.standard 0xFFF0#32 60 := by decide +kernel

/-- Scratch used to the last byte (E17); no hardware path (E7); a hardware path of length 0 (E8). A completion with OK stands in
`witness_EncryptFlags`. -/
theorem witness_EncryptResult :
    (MemCanonical (bare encRegs) ∧ EncReady 0 (bare encRegs) ∧ EncHw encRegs ∧ hangDraw (bare encRegs) = false)
    ∧ (EncReady 0 (bare { encRegs with srcLen := 0#32 }) ∧ ¬ EncHw { encRegs with srcLen := 0#32 })
    ∧ (EncReady 0 (bare { encRegs with srcLen := 0#32, aadLen := 0#32 })
      ∧ EncHw { encRegs with srcLen := 0#32, aadLen := 0#32 }) :=
  ⟨⟨by decide, encReady_bare, by decide, by decide⟩,
    ⟨⟨by decide, by decide, (encRanges_admitted _ _).mp (by decide +kernel), by decide⟩, by decide⟩,
    ⟨⟨by decide, by decide, (encRanges_admitted _ _).mp (by decide +kernel), by decide⟩, by decide⟩⟩

/-- A completion with OK and one with an error. -/
theorem witness_EncryptFlags :
    (exec (.encrypt 0) (bare encRegs) = .next (encRun 0 (bare encRegs))
      ∧ (encRun 0 (bare encRegs)).status.busy = false ∧ (encRun 0 (bare encRegs)).status.err = .ok)
    ∧ after (exec (.encrypt 1) (bare encRegs)) (fun t => t.status.busy == false && t.status.err != .ok) = true :=
  ⟨⟨exec_encrypt_of_ready encReady_bare, by decide +kernel, by decide +kernel⟩, by decide +kernel⟩

/-- BadArgument, OutOfMemory and BusError. -/
theorem witness_EncryptErrorTouchesNoMemory :
    after (exec (.encrypt 1) (bare encRegs)) (fun t => t.status.busy == false && t.status.err == .badArgument) = true
    ∧ after (exec (.encrypt 0) (bare { encRegs with srcLen := 61#32 }))
        (fun t => t.status.busy == false && t.status.err == .outOfMemory) = true
    ∧ after (exec (.encrypt 0) (bare { encRegs with ivAddr := 0xFFFFFFF8#32 }))
        (fun t => t.status.busy == false && t.status.err == .busError) = true := by decide +kernel

/-- Each cause of BadArgument on its own (X7 to X10, X16 of 95_test_vectors.md 2.6), and a command that ends with it. -/
theorem witness_DecryptBadArgument : ¬ DecArgsGood 0 (bare { decRegs with tagLen := 15#32 })
    ∧ ¬ DecArgsGood 0 (bare { decRegs with srcAddr := 0#32, srcLen := 0#32 })
    ∧ ¬ DecArgsGood 0 (bare { decRegs with ivLen := 8#32 }) ∧ ¬ DecArgsGood 0 (bare { decRegs with ivAddr := 0#32 })
    ∧ ¬ DecArgsGood 0 (bare { decRegs with tagAddr := 0#32 }) ∧ ¬ DecArgsGood 1 (bare decRegs)
    ∧ after (exec (.decrypt 1) (bare decRegs)) (fun t => t.status.busy == false && t.status.err == .badArgument)
      = true := by decide +kernel

/-- X11 of 95_test_vectors.md 2.6: the tag, last in the order. -/
theorem witness_DecryptBusErrorNamesFirstRange : DecArgsGood 0 (bare { decRegs with tagAddr := 0xFFF8#32 })
    ∧ decSpans { decRegs with tagAddr := 0xFFF8#32 }
        = [(0x1040#32, 12), (0x1200#32, 60), (0x1500#32, 60), (0x1300#32, 20)] ++ (0xFFF8#32, 16) :: []
    ∧ AllSpansAdmitted Params.standard [(0x1040#32, 12), (0x1200#32, 60), (0x1500#32, 60), (0x1300#32, 20)]
    ∧ ¬ RangeAdmitted Params.standard 0xFFF8#32 16 := by decide +kernel

/-- No ciphertext and no AAD. -/
def emptyRegs : OperandRegs := { decRegs with srcLen := 0#32, aadLen := 0#32 }

/-- S1's tag accepted; a tag of zeros rejected. The completions stand in `witness_DecryptFlags`. -/
theorem witness_DecryptAcceptsExactlyTheTag :
    (MemCanonical (bareTag emptyRegs) ∧ DecReady 0 (bareTag emptyRegs) ∧ hangDraw (bareTag emptyRegs) = false)
    ∧ readBytes (bareTag emptyRegs).mem 0x1400 16
        = blockBytes (gcmTag 0#256 (j0In (bareTag emptyRegs)) (aadBytes (bareTag emptyRegs)) [])
    ∧ (DecReady 0 (bare emptyRegs) ∧ readBytes (bare emptyRegs).mem 0x1400 16
        ≠ blockBytes (gcmTag 0#256 (j0In (bare emptyRegs)) (aadBytes (bare emptyRegs)) [])) :=
  ⟨by decide +kernel, by decide +kernel, by decide +kernel⟩

/-- An AAD of one byte. -/
theorem witness_HardwareCheckPassesWithAad : AadIn { decRegs with aadLen := 1#32 } := by decide

/-- A completion that ran and one with an error. -/
theorem witness_DecryptFlags :
    (exec (.decrypt 0) (bare emptyRegs) = .next (decRun 0 (bare emptyRegs))
      ∧ (decRun 0 (bare emptyRegs)).status.busy = false
      ∧ (decRun 0 (bare emptyRegs)).status.err = .authenticationFailure)
    ∧ after (exec (.decrypt 0) (bareTag emptyRegs))
        (fun t => t.status.busy == false && t.status.err == .ok) = true
    ∧ after (exec (.decrypt 0) (bare { decRegs with tagAddr := 0xFFF8#32 }))
        (fun t => t.status.busy == false && t.status.err == .busError) = true :=
  ⟨⟨exec_decrypt_of_ready (by decide +kernel), by decide +kernel, by decide +kernel⟩, by decide +kernel, by decide +kernel⟩

/-- TAG_LEN at its bound and above (X6 of 95_test_vectors.md 2.6). -/
theorem witness_DecryptIgnoresTagLenAbove16 : 16 ≤ (bare decRegs).regs.tagLen.toNat ∧ 16 ≤ (20#32).toNat
    ∧ exec (.decrypt 0) (bare decRegs) = .next (decRun 0 (bare decRegs)) :=
  ⟨by decide, by decide, exec_decrypt_of_ready decReady_bare⟩

/-- E23 of 95_test_vectors.md 2.5; and a plaintext range whose last byte is the first of the tag. -/
theorem witness_OverlappingRangesAreRefused :
    (EncArgsGood 0 (bare { encRegs with dstAddr := 0x1100#32 }) ∧ ScratchEnough (bare { encRegs with dstAddr := 0x1100#32 })
      ∧ AllSpansAdmitted Params.standard (encSpans { encRegs with dstAddr := 0x1100#32 })
      ∧ EncOverlap { encRegs with dstAddr := 0x1100#32 })
    ∧ (DecArgsGood 0 (bare { decRegs with dstAddr := 0x13C5#32 })
      ∧ AllSpansAdmitted Params.standard (decSpans { decRegs with dstAddr := 0x13C5#32 })
      ∧ DecOverlap { decRegs with dstAddr := 0x13C5#32 }) :=
  ⟨by decide +kernel, by decide +kernel⟩

/-- A draw that hangs. -/
def willHang (s : State) : State := { s with draws := { dmaInit := [], hang := [true], next := 0 } }

theorem witness_HangLeavesBusy :
    (MemCanonical (willHang (bare encRegs)) ∧ EncReady 0 (willHang (bare encRegs)) ∧ EncHw (willHang (bare encRegs)).regs
      ∧ hangDraw (willHang (bare encRegs)) = true)
    ∧ (MemCanonical (willHang (bare decRegs)) ∧ DecReady 0 (willHang (bare decRegs))
      ∧ hangDraw (willHang (bare decRegs)) = true) :=
  ⟨⟨by decide, encReady_bare, by decide, by decide⟩, ⟨by decide, decReady_bare, by decide⟩⟩

theorem witness_AeadFrame :
    (MemCanonical (bare encRegs) ∧ exec (.encrypt 0) (bare encRegs) = .next (encRun 0 (bare encRegs)))
    ∧ (MemCanonical (bare decRegs) ∧ exec (.decrypt 0) (bare decRegs) = .next (decRun 0 (bare decRegs))) :=
  ⟨⟨by decide, exec_encrypt_of_ready encReady_bare⟩,
    ⟨by decide +kernel, exec_decrypt_of_ready decReady_bare⟩⟩

/-- Program P1 of 95_test_vectors.md with a tag of 16 bytes: ENCRYPT to 0x1200, then DECRYPT to 0x1500. -/
def roundTripStart : State :=
  { bare encRegs with draws := { dmaInit := [], hang := [false, false], next := 0 } }

/-- Between the two commands. -/
def roundTripMiddle : State :=
  { encRun 0 roundTripStart with
    regs := { (encRun 0 roundTripStart).regs with srcAddr := roundTripStart.regs.dstAddr, dstAddr := 0x1500#32 } }

theorem roundTrip_ready : EncReady 0 roundTripStart := encReady_bare

theorem witness_EncryptThenDecryptRestores : MemCanonical roundTripStart ∧ EncReady 0 roundTripStart
    ∧ roundTripStart.regs.tagLen = 16#32 ∧ exec (.encrypt 0) roundTripStart = .next (encRun 0 roundTripStart)
    ∧ (encRun 0 roundTripStart).status.busy = false ∧ DecReady 0 roundTripMiddle ∧ hangDraw roundTripMiddle = false :=
  ⟨by decide +kernel, roundTrip_ready, by decide, exec_encrypt_of_ready roundTrip_ready, by decide +kernel,
    by decide +kernel, by decide +kernel⟩

/-- The last byte of a full block and the first of the next. -/
theorem witness_KeystreamBytewise : 15 < s3Plain.length ∧ 16 < s3Plain.length := by decide

/-- S3's lengths: p = 32 with padding from 20 on, q = 64 with padding from 32 + 60 on; the first and the last block of M. -/
theorem witness_GhashInputAndCorners : s3Aad.length < 2 ^ 32 ∧ s3Cipher.length < 2 ^ 32
    ∧ 32 = (s3Aad.length + 15) / 16 * 16 ∧ 64 = (s3Cipher.length + 15) / 16 * 16
    ∧ (s3Aad.length ≤ 20 ∧ 20 < 32) ∧ (32 + s3Cipher.length ≤ 92 ∧ 92 < 32 + 64)
    ∧ 16 * 0 < (ghashInput s3Aad s3Cipher).length ∧ 16 * 6 < (ghashInput s3Aad s3Cipher).length := by decide +kernel

/-- A command that completes and one that is refused. -/
theorem witness_UsageTagChangesNothing :
    (Instr.encrypt 0 = .encrypt 0 ∨ Instr.encrypt 0 = .decrypt 0)
    ∧ exec (.encrypt 0) (bare encRegs) = .next (encRun 0 (bare encRegs))
    ∧ refusalOf (exec (.encrypt 0) (bare { encRegs with dstAddr := 0x1100#32 })) = some .overlappingRanges :=
  ⟨.inl rfl, exec_encrypt_of_ready encReady_bare, by decide +kernel⟩

theorem witness_NothingIsCarriedBetweenCommands :
    exec (.encrypt 0) (bare encRegs) = .next (encRun 0 (bare encRegs))
    ∧ (encRun 0 (bare encRegs)).status.busy = false :=
  ⟨exec_encrypt_of_ready encReady_bare, by decide +kernel⟩

/-- A slot that changes, and a command that writes no memory. -/
theorem witness_CommandsWriteOnlyTheirOwn :
    after (exec (.releaseKey 0) (bare encRegs)) (fun t => slotAt t 0 != slotAt (bare encRegs) 0) = true
    ∧ after (exec (.nop 0) (bare encRegs)) (fun t => t.mem == (bare encRegs).mem) = true := by decide +kernel

/-- A completion and a hang. -/
theorem witness_EveryCommandCompletesOrHangs :
    after (exec (.nop 0) State.reset) (fun t => t.status.busy == false) = true
    ∧ after (exec (.encrypt 0) (willHang (bare encRegs))) (fun t => t.status.busy && t.hung) = true := by decide +kernel

theorem witness_CommandsStopOnlyOnOverlap :
    refusalOf (exec (.decrypt 0) (bare { decRegs with dstAddr := 0x1200#32 })) = some .overlappingRanges := by
  decide +kernel

/-- A hung TFO that is polled, and one that is reset. -/
theorem witness_OnlyResetEndsAHang : hungState.hung = true ∧ hungState.status.busy = true
    ∧ after (step { hungState with inputs := [.regRead 0x08#8 .word] }) (fun t => t.rdReg == 1#32) = true
    ∧ { hungState with inputs := [.reset, .idle] }.inputs = .reset :: [.idle] := by decide

theorem witness_HostSeesOnlyOvrChangeWhileBusy : (accepted 0x10#32).status.busy = true
    ∧ HostOp.regWrite 0x04#8 .word 0#32 ≠ .reset
    ∧ after (hostAct (.regWrite 0x04#8 .word 0#32) (accepted 0x10#32)) (fun t => t.status.ovr) = true := by decide

/-- A legal word in flight, an illegal one, and none. -/
theorem witness_ResetEventEverywhere : MemCanonical (accepted 0x10#32)
    ∧ decode (accepted 0x10#32).params.nSlots (accepted 0x10#32).cmdLatch = .ok (.encrypt 0)
    ∧ (∀ i, decode (accepted 0x1010#32).params.nSlots (accepted 0x1010#32).cmdLatch ≠ .ok i)
    ∧ State.reset.status.busy = false :=
  ⟨by decide, by decide, fun _ => nofun, by decide⟩

/-- One state for the six statements about every step: a bound slot, memory listed, a command in flight. -/
def busyState : State := accept 0x10#32 (bareTag encRegs)

theorem witness_StepKeeps : MemCanonical busyState ∧ SlotsClean busyState ∧ IdleClean busyState ∧ BusyCleared busyState
    ∧ StatusNamed busyState ∧ step busyState = .next (encRun 0 busyState) :=
  ⟨by decide +kernel, by decide +kernel, by decide, by decide, by decide,
    exec_encrypt_of_ready (k := 0) (s := busyState)
      ⟨by decide, by decide, (encRanges_admitted _ _).mp (by decide +kernel), by decide⟩⟩

theorem witness_InvariantsHoldAtReset : Memory.wf [(0x1000, 0xFE#8), (0xFFFFFFFF, 0x01#8)] := by decide

end Sys2Proof.Tests
end

section
/-! The frame of a command: what Exec leaves unchanged (10_state.md R40), one lemma per part of a run, then per command. -/

namespace Sys2Proof.Machine

theorem Frame.refl (s : State) : Frame s s := ⟨rfl, rfl, rfl, rfl, rfl, rfl, rfl⟩

theorem Frame.trans {s t u : State} (h : Frame s t) (h' : Frame t u) : Frame s u := by
  obtain ⟨hparams, hregs, hlatch, hinputs, hhanded, hrdReg, hrdMem⟩ := h
  obtain ⟨hparams', hregs', hlatch', hinputs', hhanded', hrdReg', hrdMem'⟩ := h'
  exact ⟨hparams'.trans hparams, hregs'.trans hregs, hlatch'.trans hlatch, hinputs'.trans hinputs,
    hhanded'.trans hhanded, hrdReg'.trans hrdReg, hrdMem'.trans hrdMem⟩

theorem raise_frame (code : ErrCode) (s : State) : Frame s (raise code s) := Frame.refl s

theorem raiseBus_frame (a : Word) (s : State) : Frame s (raiseBus a s) := Frame.refl s

theorem completeOk_frame (s : State) : Frame s (completeOk s) := Frame.refl s

theorem setTrans_frame (x : Transients) (s : State) : Frame s (setTrans x s) := Frame.refl s

theorem unbindSlot_frame (k : Fin 16) (s : State) : Frame s (unbindSlot k s) := Frame.refl s

theorem bindSlot_frame (k : Fin 16) (key : KeyBits) (u : Word) (s : State) : Frame s (bindSlot k key u s) := Frame.refl s

theorem afterDmaInitDraw_frame (s : State) : Frame s (afterDmaInitDraw s) := by simp [Frame]

theorem afterHangDraw_frame (s : State) : Frame s (afterHangDraw s) := by simp [Frame]

/-- Unlike `hangWith_frame`, without a condition on the memory. -/
theorem hangWith_keeps_frame (rs : List Range) (s : State) : Frame s (hangWith rs s) := by simp [Frame]

theorem loadIv_frame (s : State) : Frame s (loadIv s) := Frame.refl s

theorem encHardware_frame (k : Fin 16) (s : State) : Frame s (encHardware k s) := Frame.refl s

theorem encFinish_frame (k : Fin 16) (s : State) : Frame s (encFinish k s) := (encFinish_fields k s).2.1

theorem encRun_frame (k : Fin 16) (s : State) : Frame s (encRun k s) := by
  have hdraw : Frame s (afterHangDraw (loadIv s)) := (loadIv_frame s).trans (afterHangDraw_frame _)
  obtain ⟨-, -, hang⟩ | ⟨-, -, hardware⟩ | ⟨-, noHardware⟩ := encRun_cases k s
  · exact hang ▸ hdraw.trans (hangWith_keeps_frame _ _)
  · exact hardware ▸ hdraw.trans ((encHardware_frame k _).trans (encFinish_frame k _))
  · exact noHardware ▸ (loadIv_frame s).trans (encFinish_frame k _)

theorem decVerify_frame (c : List Byte) (texp : Block) (r : List Byte × Bool) (s : State) :
    Frame s (decVerify c texp r s) := by
  obtain ⟨x, accepted | failed⟩ := decVerify_cases c texp r s
  · exact accepted ▸ Frame.refl s
  · exact failed ▸ Frame.refl s

theorem decRun_frame (k : Fin 16) (s : State) : Frame s (decRun k s) := by
  obtain ⟨x, -, ⟨-, hang⟩ | ⟨-, verify⟩⟩ := decRun_cases k s
  · exact hang ▸ (setTrans_frame x s).trans ((afterHangDraw_frame _).trans (hangWith_keeps_frame _ _))
  · exact verify ▸ (setTrans_frame x s).trans ((afterHangDraw_frame _).trans (decVerify_frame _ _ _ _))

theorem execInstallKey_frame {k : Fin 16} {s t : State} (h : execInstallKey k s = .next t) : Frame s t := by
  have hdraw := afterDmaInitDraw_frame s
  obtain ⟨-, rfl⟩ | ⟨-, -, rfl⟩ | ⟨-, -, -, rfl⟩ | ⟨-, -, -, -, rfl⟩ | ⟨-, -, -, -, rfl⟩ := execInstallKey_cases h
  · exact raise_frame _ s
  · exact (unbindSlot_frame k s).trans (raise_frame _ _)
  · exact hdraw.trans ((unbindSlot_frame k _).trans (raise_frame _ _))
  · exact hdraw.trans ((unbindSlot_frame k _).trans (raiseBus_frame _ _))
  · exact hdraw.trans ((bindSlot_frame k _ _ _).trans (completeOk_frame _))

theorem execEncrypt_frame {k : Fin 16} {s t : State} (h : execEncrypt k s = .next t) : Frame s t := by
  obtain ⟨-, rfl⟩ | ⟨-, -, rfl⟩ | ⟨-, -, a, -, rfl⟩ | ⟨-, rfl⟩ := execEncrypt_cases h
  · exact raise_frame _ s
  · exact raise_frame _ s
  · exact raiseBus_frame a s
  · exact encRun_frame k s

theorem execDecrypt_frame {k : Fin 16} {s t : State} (h : execDecrypt k s = .next t) : Frame s t := by
  obtain ⟨-, rfl⟩ | ⟨-, a, -, rfl⟩ | ⟨-, rfl⟩ := execDecrypt_cases h
  · exact raise_frame _ s
  · exact raiseBus_frame a s
  · exact decRun_frame k s

/-- The frame of every command, whatever its outcome. -/
theorem exec_frame {i : Instr} {s t : State} (h : exec i s = .next t) : Frame s t := by
  cases i with
  | nop k =>
    injection h with h
    exact h ▸ completeOk_frame s
  | installKey k => exact execInstallKey_frame h
  | releaseKey k =>
    injection h with h
    exact h ▸ (unbindSlot_frame k s).trans (completeOk_frame _)
  | encrypt k => exact execEncrypt_frame h
  | decrypt k => exact execDecrypt_frame h

end Sys2Proof.Machine
end

section
/-! The system's parameters are constant (00_scope.md R8). -/

namespace Sys2Proof.Machine

/-- No host operation reaches the parameters, reset included. -/
theorem hostAct_params {op : HostOp} {s t : State} (h : hostAct op s = .next t) : t.params = s.params := by
  obtain ⟨_, _, _, -, write⟩ | ⟨off, _, -, rfl⟩ | ⟨a, bs, -, rfl, -⟩ | ⟨_, _, -, rfl, -⟩ | ⟨-, rfl⟩ | ⟨-, rfl⟩ :=
    hostAct_cases h
  · obtain ⟨-, rfl⟩ | ⟨-, -, rfl⟩ | ⟨-, -, rfl⟩ := write
    · exact overrun_params s
    · exact accept_params _ s
    · rfl
  · exact hostRead_params off s
  · exact memWrite_params a bs s
  · rfl
  · exact resetEvent_params s
  · rfl

/-- Settles O54: a step is a host operation, Exec of a command, IllegalCommand, or nothing, and none of them changes the
parameters. -/
theorem stepKeepsParams : Obligations.StepKeepsParams := by
  intro s t h
  obtain ⟨op, rest, -, -, host⟩ | ⟨rest, -, ⟨-, -, i, -, command⟩ | ⟨-, -, -, rfl⟩ | ⟨-, rfl⟩⟩ := step_cases h
  · exact hostAct_params (s := { s with inputs := rest }) host
  · obtain ⟨hparams, -⟩ := exec_frame command
    exact hparams
  · exact raise_params _ _
  · rfl

end Sys2Proof.Machine
end

section
/-! Which commands write a slot, and what a written slot holds (10_state.md R30, R31; 40_session.md R104 to R106). -/

namespace Sys2Proof.Machine

/-- A slot that holds no key and no usage tag unless it is bound (10_state.md R31). -/
def Slot.Clean (x : Slot) : Prop := x.valid = false → x.key = 0#256 ∧ x.usage = 0#32

@[simp] theorem Slot.unbound_clean : Slot.unbound.Clean := fun _ => ⟨rfl, rfl⟩

@[simp] theorem Slot.bound_clean (key : KeyBits) (u : Word) : (Slot.mk true key u).Clean := nofun

theorem slotsClean_iff (s : State) :
    SlotsClean s ↔ (∀ j, (slotAt s j).Clean) ∧ ∀ j : Fin 16, s.params.nSlots ≤ j.val → (slotAt s j).valid = false :=
  Iff.rfl

theorem slotsClean_congr {s t : State} (hslots : t.slots = s.slots) (hparams : t.params = s.params) :
    SlotsClean t ↔ SlotsClean s := by
  simp only [slotsClean_iff, slotAt_congr hslots, hparams]

@[simp] theorem slotAt_resetOf (p : Params) (m : Memory) (ops : List HostOp) (d : Draws) (j : Fin 16) :
    slotAt (State.resetOf p m ops d) j = Slot.unbound := by
  simp [slotAt, State.resetOf]

theorem resetOf_slotsClean (p : Params) (m : Memory) (ops : List HostOp) (d : Draws) :
    SlotsClean (State.resetOf p m ops d) :=
  (slotsClean_iff _).mpr ⟨fun j => by simp, fun j _ => by simp [Slot.unbound]⟩

theorem unbindSlot_slotAt_cases (k j : Fin 16) (s : State) :
    slotAt (unbindSlot k s) j = slotAt s j ∨ (k = j ∧ (slotAt (unbindSlot k s) j).Clean) := by
  by_cases hj : j = k
  · subst hj
    exact .inr ⟨rfl, by simp⟩
  · exact .inl (slotAt_unbindSlot_other s hj)

theorem bindSlot_slotAt_cases (k j : Fin 16) (key : KeyBits) (u : Word) (s : State) :
    slotAt (bindSlot k key u s) j = slotAt s j ∨ (k = j ∧ (slotAt (bindSlot k key u s) j).Clean) := by
  by_cases hj : j = k
  · subst hj
    exact .inr ⟨rfl, by simp⟩
  · exact .inl (slotAt_bindSlot_other _ _ s hj)

theorem execInstallKey_slotAt {k : Fin 16} {s t : State} (h : execInstallKey k s = .next t) (j : Fin 16) :
    slotAt t j = slotAt s j ∨ (k = j ∧ (slotAt t j).Clean) := by
  have hdraw : slotAt (afterDmaInitDraw s) j = slotAt s j := slotAt_congr (afterDmaInitDraw_slots s) j
  obtain ⟨-, rfl⟩ | ⟨-, -, rfl⟩ | ⟨-, -, -, rfl⟩ | ⟨-, -, -, -, rfl⟩ | ⟨-, -, -, -, rfl⟩ := execInstallKey_cases h
  · exact .inl rfl
  · exact unbindSlot_slotAt_cases k j s
  · exact hdraw ▸ unbindSlot_slotAt_cases k j (afterDmaInitDraw s)
  · exact hdraw ▸ unbindSlot_slotAt_cases k j (afterDmaInitDraw s)
  · exact hdraw ▸ bindSlot_slotAt_cases k j _ _ (afterDmaInitDraw s)

theorem encFinish_slots (k : Fin 16) (s : State) : (encFinish k s).slots = s.slots := by
  obtain ⟨-, -, hslots, -⟩ := encFinish_fields k s
  exact hslots

theorem encRun_slots (k : Fin 16) (s : State) : (encRun k s).slots = s.slots := by
  have hdraw : (afterHangDraw (loadIv s)).slots = s.slots := afterHangDraw_slots _
  obtain ⟨-, -, hang⟩ | ⟨-, -, hardware⟩ | ⟨-, noHardware⟩ := encRun_cases k s
  · rw [hang, hangWith_slots, hdraw]
  · rw [hardware, encFinish_slots]
    exact hdraw
  · rw [noHardware, encFinish_slots]
    rfl

theorem decVerify_slots (c : List Byte) (texp : Block) (r : List Byte × Bool) (s : State) :
    (decVerify c texp r s).slots = s.slots := by
  obtain ⟨x, accepted | failed⟩ := decVerify_cases c texp r s
  · rw [accepted]
    rfl
  · rw [failed]
    rfl

theorem decRun_slots (k : Fin 16) (s : State) : (decRun k s).slots = s.slots := by
  obtain ⟨x, -, ⟨-, hang⟩ | ⟨-, verify⟩⟩ := decRun_cases k s
  · rw [hang, hangWith_slots, afterHangDraw_slots, setTrans_slots]
  · rw [verify, decVerify_slots, afterHangDraw_slots, setTrans_slots]

theorem execEncrypt_slots {k : Fin 16} {s t : State} (h : execEncrypt k s = .next t) : t.slots = s.slots := by
  obtain ⟨-, rfl⟩ | ⟨-, -, rfl⟩ | ⟨-, -, a, -, rfl⟩ | ⟨-, rfl⟩ := execEncrypt_cases h
  · rfl
  · rfl
  · rfl
  · exact encRun_slots k s

theorem execDecrypt_slots {k : Fin 16} {s t : State} (h : execDecrypt k s = .next t) : t.slots = s.slots := by
  obtain ⟨-, rfl⟩ | ⟨-, a, -, rfl⟩ | ⟨-, rfl⟩ := execDecrypt_cases h
  · rfl
  · rfl
  · exact decRun_slots k s

/-- Every command leaves a slot as it was, or is the session command that names it and leaves it clean. -/
theorem exec_slotAt {i : Instr} {s t : State} (h : exec i s = .next t) (j : Fin 16) :
    slotAt t j = slotAt s j ∨ ((i = .installKey j ∨ i = .releaseKey j) ∧ (slotAt t j).Clean) := by
  cases i with
  | nop k =>
    injection h with h
    exact .inl (h ▸ rfl)
  | installKey k => exact (execInstallKey_slotAt h j).imp_right fun ⟨hk, clean⟩ => ⟨.inl (hk ▸ rfl), clean⟩
  | releaseKey k =>
    injection h with h
    subst h
    exact (unbindSlot_slotAt_cases k j s).imp_right fun ⟨hk, clean⟩ => ⟨.inr (hk ▸ rfl), clean⟩
  | encrypt k => exact .inl (slotAt_congr (execEncrypt_slots h) j)
  | decrypt k => exact .inl (slotAt_congr (execDecrypt_slots h) j)

/-- A word decodes only to a command whose slot exists (30_encoding.md R72). -/
theorem slot_lt_of_decode {n : Nat} {w : Word} {i : Instr} (h : decode n w = .ok i) : i.slot.val < n := by
  unfold decode at h
  split_ifs at h
  split at h
  · cases h
  · split_ifs at h with hlt
    injection h with h
    exact h ▸ hlt

/-- A command whose slot exists leaves the slot file clean. -/
theorem exec_slotsClean {i : Instr} {s t : State} (hi : i.slot.val < s.params.nSlots) (hs : SlotsClean s)
    (h : exec i s = .next t) : SlotsClean t := by
  obtain ⟨hclean, habsent⟩ := hs
  obtain ⟨hparams, -⟩ := exec_frame h
  refine (slotsClean_iff t).mpr ⟨fun j => ?_, fun j hj => ?_⟩
  · obtain same | ⟨-, clean⟩ := exec_slotAt h j
    · exact same ▸ hclean j
    · exact clean
  · rw [hparams] at hj
    obtain same | ⟨rfl | rfl, -⟩ := exec_slotAt h j
    · exact same ▸ habsent j hj
    · exact absurd hi (not_lt.mpr hj)
    · exact absurd hi (not_lt.mpr hj)

/-- No host operation writes a slot but reset. -/
theorem hostAct_slots {op : HostOp} {s t : State} (hop : op ≠ .reset) (h : hostAct op s = .next t) :
    t.slots = s.slots := by
  obtain ⟨_, _, _, -, write⟩ | ⟨_, _, -, rfl⟩ | ⟨_, _, -, rfl, -⟩ | ⟨_, _, -, rfl, -⟩ | ⟨reset, -⟩ | ⟨-, rfl⟩ :=
    hostAct_cases h
  · obtain ⟨-, rfl⟩ | ⟨-, -, rfl⟩ | ⟨-, -, rfl⟩ := write
    · exact overrun_slots s
    · exact accept_slots _ s
    · rfl
  · exact hostRead_slots _ s
  · exact memWrite_slots _ _ s
  · rfl
  · exact absurd reset hop
  · rfl

theorem hostAct_slotsClean {op : HostOp} {s t : State} (hs : SlotsClean s) (h : hostAct op s = .next t) :
    SlotsClean t := by
  by_cases hop : op = .reset
  · subst hop
    injection h with h
    exact h ▸ resetOf_slotsClean s.params [] [] Draws.free
  · exact (slotsClean_congr (hostAct_slots hop h) (hostAct_params h)).mpr hs

/-- Settles O56: reset unbinds every slot, the two session commands leave the slot they name clean, and the decoder lets no
command name an absent one. -/
theorem stepKeepsSlotsClean : Obligations.StepKeepsSlotsClean := by
  intro s t hs h
  obtain ⟨op, rest, -, -, host⟩ | ⟨rest, -, ⟨-, -, i, decoded, command⟩ | ⟨-, -, -, rfl⟩ | ⟨-, rfl⟩⟩ := step_cases h
  · exact hostAct_slotsClean (s := { s with inputs := rest }) hs host
  · exact exec_slotsClean (s := { s with inputs := rest }) (slot_lt_of_decode decoded) hs command
  · exact hs
  · exact hs

end Sys2Proof.Machine
end

section
/-! How Exec ends: with BUSY = 0 and every transient zeroized, or hung (10_state.md R38; 60_exceptions.md R210). -/

namespace Sys2Proof.Machine

/-- `t` ends an Exec begun in `s`: OVR is kept, and TFO is idle with its transients zero, or hung and busy. -/
def ExecEnds (s t : State) : Prop :=
  t.status.ovr = s.status.ovr
    ∧ ((t.status.busy = false ∧ t.trans = Transients.zero) ∨ (t.status.busy = true ∧ t.hung = true))

/-- Only STATUS of the state that Exec began in matters to its ending. -/
theorem ExecEnds.of_status {s u t : State} (hu : u.status = s.status) (h : ExecEnds u t) : ExecEnds s t := by
  rwa [ExecEnds, hu] at h

theorem complete_ends (code : ErrCode) (fold hwx : Bool) (ghcnt : BitVec 2) (ea : Word) (s : State) :
    ExecEnds s (complete code fold hwx ghcnt ea s) := ⟨rfl, .inl ⟨rfl, rfl⟩⟩

theorem raise_ends (code : ErrCode) (s : State) : ExecEnds s (raise code s) := complete_ends _ _ _ _ _ s

theorem raiseBus_ends (a : Word) (s : State) : ExecEnds s (raiseBus a s) := complete_ends _ _ _ _ _ s

theorem completeOk_ends (s : State) : ExecEnds s (completeOk s) := complete_ends _ _ _ _ _ s

theorem hangWith_ends (rs : List Range) (s : State) : ExecEnds s (hangWith rs s) :=
  ⟨by rw [hangWith_status], .inr ⟨by rw [hangWith_status], rfl⟩⟩

theorem encFinish_ends (k : Fin 16) (s : State) : ExecEnds s (encFinish k s) := by
  obtain ⟨hstatus, -, -, -, htrans, -⟩ := encFinish_fields k s
  exact ⟨by rw [hstatus, completedStatus], .inl ⟨by rw [hstatus, completedStatus], htrans⟩⟩

theorem encRun_ends (k : Fin 16) (s : State) : ExecEnds s (encRun k s) := by
  have hdraw : (afterHangDraw (loadIv s)).status = s.status := afterHangDraw_status _
  obtain ⟨-, -, hang⟩ | ⟨-, -, hardware⟩ | ⟨-, noHardware⟩ := encRun_cases k s
  · exact hang ▸ (hangWith_ends _ _).of_status hdraw
  · exact hardware ▸ (encFinish_ends k (encHardware k _)).of_status hdraw
  · exact noHardware ▸ (encFinish_ends k (loadIv s)).of_status rfl

theorem decVerify_ends (c : List Byte) (texp : Block) (r : List Byte × Bool) (s : State) :
    ExecEnds s (decVerify c texp r s) := by
  obtain ⟨x, accepted | failed⟩ := decVerify_cases c texp r s
  · exact accepted ▸ (complete_ends _ _ _ _ _ (setTrans x (memWrite _ _ s))).of_status rfl
  · exact failed ▸ (complete_ends _ _ _ _ _ (memWrite _ _ (setTrans x (memWrite _ _ s)))).of_status rfl

theorem decRun_ends (k : Fin 16) (s : State) : ExecEnds s (decRun k s) := by
  obtain ⟨x, -, run⟩ := decRun_cases k s
  have hdraw : (afterHangDraw (setTrans x s)).status = s.status := afterHangDraw_status _
  obtain ⟨-, hang⟩ | ⟨-, verify⟩ := run
  · exact hang ▸ (hangWith_ends _ _).of_status hdraw
  · exact verify ▸ (decVerify_ends _ _ _ _).of_status hdraw

theorem execInstallKey_ends {k : Fin 16} {s t : State} (h : execInstallKey k s = .next t) : ExecEnds s t := by
  have hdraw : (afterDmaInitDraw s).status = s.status := afterDmaInitDraw_status s
  obtain ⟨-, rfl⟩ | ⟨-, -, rfl⟩ | ⟨-, -, -, rfl⟩ | ⟨-, -, -, -, rfl⟩ | ⟨-, -, -, -, rfl⟩ := execInstallKey_cases h
  · exact raise_ends _ s
  · exact (raise_ends _ (unbindSlot k s)).of_status rfl
  · exact (raise_ends _ (unbindSlot k _)).of_status hdraw
  · exact (raiseBus_ends _ (unbindSlot k _)).of_status hdraw
  · exact (completeOk_ends (bindSlot k _ _ _)).of_status hdraw

/-- Every command that gives a next state ends Exec. -/
theorem exec_ends {i : Instr} {s t : State} (h : exec i s = .next t) : ExecEnds s t := by
  cases i with
  | nop k =>
    injection h with h
    exact h ▸ completeOk_ends s
  | installKey k => exact execInstallKey_ends h
  | releaseKey k =>
    injection h with h
    exact h ▸ (completeOk_ends (unbindSlot k s)).of_status rfl
  | encrypt k =>
    obtain ⟨-, rfl⟩ | ⟨-, -, rfl⟩ | ⟨-, -, a, -, rfl⟩ | ⟨-, rfl⟩ := execEncrypt_cases h
    · exact raise_ends _ s
    · exact raise_ends _ s
    · exact raiseBus_ends a s
    · exact encRun_ends k s
  | decrypt k =>
    obtain ⟨-, rfl⟩ | ⟨-, a, -, rfl⟩ | ⟨-, rfl⟩ := execDecrypt_cases h
    · exact raise_ends _ s
    · exact raiseBus_ends a s
    · exact decRun_ends k s

theorem exec_idleClean {i : Instr} {s t : State} (h : exec i s = .next t) : IdleClean t := by
  intro hidle
  obtain ⟨-, ⟨-, htrans⟩ | ⟨hbusy, -⟩⟩ := exec_ends h
  · exact htrans
  · exact absurd hidle (by simp [hbusy])

/-- A host operation leaves BUSY and the transients alone, accepts a command, or is a reset. -/
theorem hostAct_idleClean {op : HostOp} {s t : State} (hs : IdleClean s) (h : hostAct op s = .next t) :
    IdleClean t := by
  obtain ⟨_, _, _, -, write⟩ | ⟨_, _, -, rfl⟩ | ⟨_, _, -, rfl, -⟩ | ⟨_, _, -, rfl, -⟩ | ⟨-, rfl⟩ | ⟨-, rfl⟩ :=
    hostAct_cases h
  · obtain ⟨-, rfl⟩ | ⟨-, -, rfl⟩ | ⟨-, -, rfl⟩ := write
    · exact hs
    · exact fun hidle => absurd hidle (by simp [acceptedStatus])
    · exact hs
  · exact hs
  · exact hs
  · exact hs
  · exact fun _ => resetEvent_trans s
  · exact hs

/-- Settles O57: Exec ends with the transients zeroized unless it hangs, busy; the host's operations do not write them, but
for reset, which clears them. -/
theorem stepKeepsIdleTransientsZero : Obligations.StepKeepsIdleTransientsZero := by
  intro s t hs h
  obtain ⟨op, rest, -, -, host⟩ | ⟨rest, -, ⟨-, -, i, -, command⟩ | ⟨-, -, -, rfl⟩ | ⟨-, rfl⟩⟩ := step_cases h
  · exact hostAct_idleClean (s := { s with inputs := rest }) hs host
  · exact exec_idleClean command
  · exact fun _ => raise_trans _ _
  · exact hs

/-- Whatever the host does short of a reset, HUNG keeps its value and BUSY = 1 stays. -/
theorem hostAct_keeps_hang {op : HostOp} {s t : State} (hop : op ≠ .reset) (hbusy : s.status.busy = true)
    (h : hostAct op s = .next t) : t.hung = s.hung ∧ t.status.busy = true := by
  obtain ⟨_, _, _, -, write⟩ | ⟨_, _, -, rfl⟩ | ⟨_, _, -, rfl, -⟩ | ⟨_, _, -, rfl, -⟩ | ⟨reset, -⟩ | ⟨-, rfl⟩ :=
    hostAct_cases h
  · obtain ⟨-, rfl⟩ | ⟨idle, -⟩ | ⟨idle, -⟩ := write
    · exact ⟨rfl, hbusy⟩
    · exact absurd hbusy (by simp [idle])
    · exact absurd hbusy (by simp [idle])
  · exact ⟨rfl, hbusy⟩
  · exact ⟨rfl, hbusy⟩
  · exact ⟨rfl, hbusy⟩
  · exact absurd reset hop
  · exact ⟨rfl, hbusy⟩

theorem step_of_reset {s : State} {rest : List HostOp} (h : s.inputs = .reset :: rest) :
    step s = .next (resetEvent { s with inputs := rest }) := by
  rw [step, h]
  rfl

/-- Settles O50: a hung TFO has no Exec, and of the host's operations only reset clears HUNG or a set BUSY. -/
theorem onlyResetEndsAHang : Obligations.OnlyResetEndsAHang := by
  intro s hhung hbusy
  refine ⟨fun t hreset h => ?_, fun rest hreset => ⟨_, step_of_reset hreset, rfl, rfl⟩⟩
  obtain ⟨op, rest, hinputs, -, host⟩ | ⟨rest, -, ⟨-, running, -⟩ | ⟨-, running, -⟩ | ⟨-, rfl⟩⟩ := step_cases h
  · have hop : op ≠ .reset := fun e => hreset rest (e ▸ hinputs)
    obtain ⟨hkept, hstill⟩ := hostAct_keeps_hang (s := { s with inputs := rest }) hop hbusy host
    exact ⟨hkept.trans hhung, hstill⟩
  · exact absurd hhung (by simp [running])
  · exact absurd hhung (by simp [running])
  · exact ⟨hhung, hbusy⟩

end Sys2Proof.Machine
end

section
/-! Which bytes of system memory a command writes (20_memory.md R50; 43_encrypt.md R175; 44_decrypt.md R196). -/

namespace Sys2Proof.Machine

/-- From a canonical memory, `t` has a canonical memory that differs from that of `s` in the listed ranges alone. -/
def WritesWithin (l : List Span) (s t : State) : Prop := MemCanonical s → MemCanonical t ∧ MemSameOutside l s t

theorem WritesWithin.of_mem {l : List Span} {s t : State} (h : t.mem = s.mem) : WritesWithin l s t :=
  fun hm => ⟨show Memory.wf t.mem from h ▸ hm, fun _ _ => by rw [h]⟩

theorem WritesWithin.trans {l : List Span} {s t u : State} (h : WritesWithin l s t) (h' : WritesWithin l t u) :
    WritesWithin l s u := by
  intro hm
  obtain ⟨hwf, hsame⟩ := h hm
  obtain ⟨hwf', hsame'⟩ := h' hwf
  exact ⟨hwf', fun a ha => (hsame' a ha).trans (hsame a ha)⟩

/-- An admitted range ends inside the address space. -/
theorem end_le_of_rangeAdmitted {p : Params} {a : Word} {n : Nat} (h : RangeAdmitted p a n) : a.toNat + n ≤ 2 ^ 32 := by
  obtain rfl | ⟨hend, -⟩ := h
  · exact a.isLt.le
  · exact hend

/-- A string no longer than a listed range that ends inside the address space, written at its start. -/
theorem memWrite_writesWithin {l : List Span} {a : Word} {n : Nat} (hmem : (a, n) ∈ l) (hend : a.toNat + n ≤ 2 ^ 32)
    {bs : List Byte} (hlen : bs.length ≤ n) (s : State) : WritesWithin l s (memWrite a bs s) := by
  intro hm
  have hfits : a.toNat + bs.length ≤ 2 ^ 32 := by omega
  refine ⟨memWrite_wf a bs s hm hfits, fun b hb => ?_⟩
  have hout : b < a.toNat ∨ a.toNat + n ≤ b := hb _ hmem
  exact readByte_writeBytes_outside bs hm hfits (by omega)

theorem setTrans_writesWithin (l : List Span) (x : Transients) (s : State) : WritesWithin l s (setTrans x s) :=
  .of_mem (setTrans_mem x s)

theorem hangWith_writesWithin (rs : List Range) (s : State) : WritesWithin (rs.map Range.span) s (hangWith rs s) := by
  intro hm
  obtain ⟨-, -, hwf, hsame⟩ := hangWith_frame rs s hm
  exact ⟨hwf, hsame⟩

/-! ### ENCRYPT -/

@[simp] theorem encHardware_regs (k : Fin 16) (s : State) : (encHardware k s).regs = s.regs := by
  simp [encHardware, encTransform]

@[simp] theorem encGhashTag_regs (k : Fin 16) (s : State) : (encGhashTag k s).regs = s.regs :=
  (memWrite_regs ..).trans (setTrans_regs _ s)

/-- The two ranges that ENCRYPT writes. -/
def encOutSpans (r : OperandRegs) : List Span := [(r.dstAddr, r.srcLen.toNat), (r.tagAddr, r.tagLen.toNat)]

/-- Both of them end inside the address space. -/
def EncOutputsFit (r : OperandRegs) : Prop :=
  r.dstAddr.toNat + r.srcLen.toNat ≤ 2 ^ 32 ∧ r.tagAddr.toNat + r.tagLen.toNat ≤ 2 ^ 32

theorem encOutputsFit_of_ready {k : Fin 16} {s : State} (h : EncReady k s) : EncOutputsFit s.regs := by
  obtain ⟨-, -, hadmitted, -⟩ := h
  have hdst := hadmitted (s.regs.dstAddr, s.regs.srcLen.toNat) (by simp [encSpans])
  have htag := hadmitted (s.regs.tagAddr, s.regs.tagLen.toNat) (by simp [encSpans])
  exact ⟨end_le_of_rangeAdmitted hdst, end_le_of_rangeAdmitted htag⟩

/-- A string no longer than the tag range, written at its start. -/
theorem writeTag_writesWithin {r : OperandRegs} (h : EncOutputsFit r) {bs : List Byte}
    (hlen : bs.length ≤ r.tagLen.toNat) (s : State) : WritesWithin (encOutSpans r) s (memWrite r.tagAddr bs s) :=
  memWrite_writesWithin (by simp [encOutSpans]) h.2 hlen s

/-- A string no longer than the destination range, written at its start. -/
theorem writeDst_writesWithin {r : OperandRegs} (h : EncOutputsFit r) {bs : List Byte}
    (hlen : bs.length ≤ r.srcLen.toNat) (s : State) : WritesWithin (encOutSpans r) s (memWrite r.dstAddr bs s) :=
  memWrite_writesWithin (by simp [encOutSpans]) h.1 hlen s

section
variable {r : OperandRegs} (h : EncOutputsFit r) (k : Fin 16) {s : State} (hr : s.regs = r)
include h hr

theorem encHardware_writesWithin : WritesWithin (encOutSpans r) s (encHardware k s) := by
  subst hr
  have transform : WritesWithin (encOutSpans s.regs) s (encTransform k s) := setTrans_writesWithin _ _ s
  have ciphertext := writeDst_writesWithin h
    (List.length_take_le _ (encTransform k s).trans.scratch) (encTransform k s)
  exact transform.trans (ciphertext.trans (writeTag_writesWithin h (List.length_take_le _ _) _))

theorem encGhashTag_writesWithin : WritesWithin (encOutSpans r) s (encGhashTag k s) := by
  subst hr
  exact (setTrans_writesWithin _ _ s).trans (writeTag_writesWithin h (List.length_take_le _ _) _)

theorem encMaskTag_writesWithin : WritesWithin (encOutSpans r) s (encMaskTag k s) := by
  subst hr
  refine (setTrans_writesWithin _ _ s).trans (writeTag_writesWithin h ?_ _)
  rw [length_xorBytes]
  exact (min_le_right _ _).trans (List.length_take_le _ _)

theorem encFinish_writesWithin : WritesWithin (encOutSpans r) s (encFinish k s) := by
  rw [encFinish]
  split
  · have ghash := encGhashTag_writesWithin h k hr
    exact (ghash.trans (encMaskTag_writesWithin h k ((encGhashTag_regs k s).trans hr))).trans (.of_mem (complete_mem ..))
  · exact .of_mem (complete_mem ..)

theorem encRun_writesWithin : WritesWithin (encOutSpans r) s (encRun k s) := by
  have hdraw : WritesWithin (encOutSpans r) s (afterHangDraw (loadIv s)) := .of_mem (afterHangDraw_mem _)
  have hregs : (afterHangDraw (loadIv s)).regs = r := (afterHangDraw_regs _).trans hr
  obtain ⟨-, -, hang⟩ | ⟨-, -, hardware⟩ | ⟨-, noHardware⟩ := encRun_cases k s
  · subst hr
    exact hang ▸ hdraw.trans (hangWith_writesWithin [dstRange s.regs, tagOutRange s.regs] _)
  · rw [hardware]
    exact hdraw.trans ((encHardware_writesWithin h k hregs).trans
      (encFinish_writesWithin h k ((encHardware_regs k _).trans hregs)))
  · rw [noHardware]
    exact (setTrans_writesWithin _ _ s).trans (encFinish_writesWithin h k hr)

end

theorem execEncrypt_writesWithin {k : Fin 16} {s t : State} (h : execEncrypt k s = .next t) :
    WritesWithin (encOutSpans s.regs) s t := by
  obtain ⟨-, rfl⟩ | ⟨-, -, rfl⟩ | ⟨-, -, a, -, rfl⟩ | ⟨ready, rfl⟩ := execEncrypt_cases h
  · exact .of_mem rfl
  · exact .of_mem rfl
  · exact .of_mem rfl
  · exact encRun_writesWithin (encOutputsFit_of_ready ready) k rfl

/-! ### DECRYPT -/

/-- The one range that DECRYPT writes. -/
def decOutSpans (r : OperandRegs) : List Span := [(r.dstAddr, r.srcLen.toNat)]

/-- It ends inside the address space. -/
def DecOutputFits (r : OperandRegs) : Prop := r.dstAddr.toNat + r.srcLen.toNat ≤ 2 ^ 32

theorem decOutputFits_of_ready {k : Fin 16} {s : State} (h : DecReady k s) : DecOutputFits s.regs := by
  obtain ⟨-, hadmitted, -⟩ := h
  exact end_le_of_rangeAdmitted (hadmitted (s.regs.dstAddr, s.regs.srcLen.toNat) (by simp [decSpans]))

/-- A string no longer than the destination range, written at its start. -/
theorem writePlain_writesWithin {r : OperandRegs} (h : DecOutputFits r) {bs : List Byte}
    (hlen : bs.length ≤ r.srcLen.toNat) (s : State) : WritesWithin (decOutSpans r) s (memWrite r.dstAddr bs s) :=
  memWrite_writesWithin (by simp [decOutSpans]) h hlen s

theorem decVerify_writesWithin {r : OperandRegs} (h : DecOutputFits r) (c : List Byte) (texp : Block)
    {out : List Byte × Bool} (hlen : out.1.length ≤ r.srcLen.toNat) {s : State} (hr : s.regs = r) :
    WritesWithin (decOutSpans r) s (decVerify c texp out s) := by
  subst hr
  have plain := writePlain_writesWithin h hlen s
  obtain ⟨x, accepted | failed⟩ := decVerify_cases c texp out s
  · rw [accepted]
    exact plain.trans ((setTrans_writesWithin _ x _).trans (.of_mem (complete_mem ..)))
  · have zeros := writePlain_writesWithin h (List.length_replicate (n := s.regs.srcLen.toNat) (a := 0#8)).le
      (setTrans x (memWrite s.regs.dstAddr out.1 s))
    rw [failed]
    exact plain.trans ((setTrans_writesWithin _ x _).trans (zeros.trans (.of_mem (complete_mem ..))))

theorem decRun_writesWithin (k : Fin 16) {s : State} (h : DecOutputFits s.regs) :
    WritesWithin (decOutSpans s.regs) s (decRun k s) := by
  obtain ⟨x, -, run⟩ := decRun_cases k s
  have hregs : (afterHangDraw (setTrans x s)).regs = s.regs := afterHangDraw_regs _
  have hdraw : WritesWithin (decOutSpans s.regs) s (afterHangDraw (setTrans x s)) := .of_mem (afterHangDraw_mem _)
  obtain ⟨-, hang⟩ | ⟨-, verify⟩ := run
  · exact hang ▸ hdraw.trans (hangWith_writesWithin [dstRange s.regs] _)
  · rw [verify]
    exact hdraw.trans (decVerify_writesWithin h _ _ (by simp [srcBytes]) hregs)

theorem execDecrypt_writesWithin {k : Fin 16} {s t : State} (h : execDecrypt k s = .next t) :
    WritesWithin (decOutSpans s.regs) s t := by
  obtain ⟨-, rfl⟩ | ⟨-, a, -, rfl⟩ | ⟨ready, rfl⟩ := execDecrypt_cases h
  · exact .of_mem rfl
  · exact .of_mem rfl
  · exact decRun_writesWithin k (decOutputFits_of_ready ready)

/-- Settles O35: past the checks the output ranges are admitted, hence inside the address space, and every string that a run
writes is as long as the range it goes to. -/
theorem aeadFrame : Obligations.AeadFrame := by
  refine ⟨fun s t k hm h => ?_, fun s t k hm h => ?_⟩
  · obtain ⟨hovr, -⟩ := exec_ends h
    exact ⟨exec_frame h, slotAt_congr (execEncrypt_slots h), hovr, execEncrypt_writesWithin h hm⟩
  · obtain ⟨hovr, -⟩ := exec_ends h
    exact ⟨exec_frame h, slotAt_congr (execDecrypt_slots h), hovr, execDecrypt_writesWithin h hm⟩

/-! ### The session commands -/

theorem execInstallKey_mem {k : Fin 16} {s t : State} (h : execInstallKey k s = .next t) : t.mem = s.mem := by
  have hdraw := afterDmaInitDraw_mem s
  obtain ⟨-, rfl⟩ | ⟨-, -, rfl⟩ | ⟨-, -, -, rfl⟩ | ⟨-, -, -, -, rfl⟩ | ⟨-, -, -, -, rfl⟩ := execInstallKey_cases h
  · rfl
  · rfl
  · exact hdraw
  · exact hdraw
  · exact hdraw

/-- NOP, INSTALL_KEY and RELEASE_KEY write no memory. -/
theorem exec_session_mem {i : Instr} {k : Fin 16} {s t : State} (hi : i = .nop k ∨ i = .installKey k ∨ i = .releaseKey k)
    (h : exec i s = .next t) : t.mem = s.mem := by
  obtain rfl | rfl | rfl := hi
  · injection h with h
    exact h ▸ rfl
  · exact execInstallKey_mem h
  · injection h with h
    exact h ▸ rfl

/-- Settles O47: the frame of every command, the slots it may write, and the memory that the session commands do not. -/
theorem commandsWriteOnlyTheirOwn : Obligations.CommandsWriteOnlyTheirOwn := by
  refine fun s t i h => ⟨exec_frame h, fun j changed => ?_, fun k hi => exec_session_mem hi h⟩
  obtain same | ⟨names, -⟩ := exec_slotAt h j
  · exact absurd same changed
  · exact names

end Sys2Proof.Machine
end

section
/-! No command reads a transient register that it has not written itself (10_state.md R37): each part of a run takes states
that agree but for the transients to states that agree but for the transients, and its completion makes them equal. -/

namespace Sys2Proof.Machine

theorem afterHangDraw_setTrans (x : Transients) (s : State) :
    afterHangDraw (setTrans x s) = setTrans x (afterHangDraw s) := by
  simp only [afterHangDraw, setTrans_draws]
  split <;> rfl

theorem afterDmaInitDraw_setTrans (x : Transients) (s : State) :
    afterDmaInitDraw (setTrans x s) = setTrans x (afterDmaInitDraw s) := by
  simp only [afterDmaInitDraw, setTrans_draws]
  split <;> rfl

/-- `u` is `s` but for the transient registers. -/
def AgreeButTrans (u s : State) : Prop := ∃ x, u = setTrans x s

theorem AgreeButTrans.regs_eq {u s : State} (h : AgreeButTrans u s) : u.regs = s.regs := by
  obtain ⟨x, rfl⟩ := h
  rfl

theorem AgreeButTrans.draws_eq {u s : State} (h : AgreeButTrans u s) : u.draws = s.draws := by
  obtain ⟨x, rfl⟩ := h
  rfl

theorem AgreeButTrans.readRange_eq {u s : State} (h : AgreeButTrans u s) (r : Range) :
    readRange r u = readRange r s := by
  obtain ⟨x, rfl⟩ := h
  rfl

theorem AgreeButTrans.slotAt_eq {u s : State} (h : AgreeButTrans u s) (k : Fin 16) : slotAt u k = slotAt s k := by
  obtain ⟨x, rfl⟩ := h
  rfl

/-- A completion zeroizes what the states differ in. -/
theorem AgreeButTrans.complete_eq {u s : State} (h : AgreeButTrans u s) (code : ErrCode) (fold hwx : Bool)
    (ghcnt : BitVec 2) (ea : Word) : complete code fold hwx ghcnt ea u = complete code fold hwx ghcnt ea s := by
  obtain ⟨x, rfl⟩ := h
  rfl

theorem AgreeButTrans.after_memWrite {u s : State} (h : AgreeButTrans u s) (a : Word) (bs : List Byte) :
    AgreeButTrans (memWrite a bs u) (memWrite a bs s) := by
  obtain ⟨x, rfl⟩ := h
  exact ⟨x, rfl⟩

theorem AgreeButTrans.after_setTrans {u s : State} (h : AgreeButTrans u s) (x y : Transients) :
    AgreeButTrans (setTrans x u) (setTrans y s) := by
  obtain ⟨z, rfl⟩ := h
  exact ⟨x, rfl⟩

theorem AgreeButTrans.after_hangDraw {u s : State} (h : AgreeButTrans u s) :
    AgreeButTrans (afterHangDraw u) (afterHangDraw s) := by
  obtain ⟨x, rfl⟩ := h
  exact ⟨x, afterHangDraw_setTrans x s⟩

theorem AgreeButTrans.after_loadIv {u s : State} (h : AgreeButTrans u s) :
    AgreeButTrans (loadIv u) (loadIv s) := h.after_setTrans _ _

theorem AgreeButTrans.loadIv_ivReg {u s : State} (h : AgreeButTrans u s) :
    (loadIv u).trans.ivReg = (loadIv s).trans.ivReg := by
  obtain ⟨x, rfl⟩ := h
  rfl

theorem AgreeButTrans.loadIv_j0Reg {u s : State} (h : AgreeButTrans u s) :
    (loadIv u).trans.j0Reg = (loadIv s).trans.j0Reg := by
  obtain ⟨x, rfl⟩ := h
  rfl

/-- The engine is loaded with IVREG and takes nothing else from the transients (40_session.md R107). -/
theorem AgreeButTrans.engineInit_eq {u s : State} (h : AgreeButTrans u s) (hiv : u.trans.ivReg = s.trans.ivReg)
    (k : Fin 16) : engineInit k u = engineInit k s := by
  obtain ⟨x, rfl⟩ := h
  rw [engineInit, hiv]
  rfl

/-! ### ENCRYPT -/

theorem AgreeButTrans.encTransform_scratch {u s : State} (h : AgreeButTrans u s)
    (hiv : u.trans.ivReg = s.trans.ivReg) (k : Fin 16) :
    (encTransform k u).trans.scratch = (encTransform k s).trans.scratch := by
  rw [encTransform, encTransform, setTrans_trans, setTrans_trans, h.engineInit_eq hiv, h.regs_eq, h.readRange_eq]

/-- The hardware path reads IVREG, and SCRATCH once it has written it. -/
theorem AgreeButTrans.after_encHardware {u s : State} (h : AgreeButTrans u s) (hiv : u.trans.ivReg = s.trans.ivReg)
    (k : Fin 16) : AgreeButTrans (encHardware k u) (encHardware k s) := by
  have transform : AgreeButTrans (encTransform k u) (encTransform k s) := h.after_setTrans _ _
  simp only [encHardware, memWrite_regs, memWrite_trans, h.encTransform_scratch hiv, transform.regs_eq]
  exact (transform.after_memWrite _ _).after_memWrite _ _

theorem encHardware_j0Reg (k : Fin 16) (s : State) : (encHardware k s).trans.j0Reg = s.trans.j0Reg := by
  simp [encHardware, encTransform]

theorem AgreeButTrans.after_encGhashTag {u s : State} (h : AgreeButTrans u s) (k : Fin 16) :
    AgreeButTrans (encGhashTag k u) (encGhashTag k s) := by
  simp only [encGhashTag, h.regs_eq, h.slotAt_eq, h.readRange_eq]
  exact (h.after_setTrans _ _).after_memWrite _ _

theorem encGhashTag_j0Reg (k : Fin 16) (s : State) : (encGhashTag k s).trans.j0Reg = s.trans.j0Reg := by
  rw [encGhashTag, memWrite_trans, setTrans_trans]

/-- The mask is that of J0REG. -/
theorem AgreeButTrans.after_encMaskTag {u s : State} (h : AgreeButTrans u s) (hj : u.trans.j0Reg = s.trans.j0Reg)
    (k : Fin 16) : AgreeButTrans (encMaskTag k u) (encMaskTag k s) := by
  simp only [encMaskTag, h.regs_eq, h.slotAt_eq, h.readRange_eq, hj]
  exact (h.after_setTrans _ _).after_memWrite _ _

theorem AgreeButTrans.encFinish_eq {u s : State} (h : AgreeButTrans u s) (hj : u.trans.j0Reg = s.trans.j0Reg)
    (k : Fin 16) : encFinish k u = encFinish k s := by
  simp only [encFinish, h.regs_eq]
  split
  · have hj' : (encGhashTag k u).trans.j0Reg = (encGhashTag k s).trans.j0Reg := by
      rw [encGhashTag_j0Reg, encGhashTag_j0Reg, hj]
    exact ((h.after_encGhashTag k).after_encMaskTag hj' k).complete_eq ..
  · exact h.complete_eq ..

/-- An ENCRYPT past its checks loads IVREG and J0REG first; a hang, which keeps the transients, is excluded. -/
theorem AgreeButTrans.encRun_eq {u s : State} (h : AgreeButTrans u s) {k : Fin 16}
    (hidle : (encRun k s).status.busy = false) : encRun k u = encRun k s := by
  have hload := h.after_loadIv
  rw [encRun] at hidle ⊢
  rw [encRun]
  simp only [hload.regs_eq, hangDraw_congr hload.draws_eq] at hidle ⊢
  split_ifs at hidle ⊢ with hardware hangs
  · exact absurd hidle (by simp)
  · have hdraw := hload.after_hangDraw
    refine (hdraw.after_encHardware ?_ k).encFinish_eq ?_ k
    · simpa using h.loadIv_ivReg
    · simpa [encHardware_j0Reg] using h.loadIv_j0Reg
  · exact hload.encFinish_eq h.loadIv_j0Reg k

/-! ### DECRYPT -/

theorem AgreeButTrans.expectedTag_eq {u s : State} (h : AgreeButTrans u s) : expectedTag u = expectedTag s := by
  rw [expectedTag, h.regs_eq, h.readRange_eq, expectedTag]

theorem AgreeButTrans.after_decHwTag {u s : State} (h : AgreeButTrans u s) (k : Fin 16) :
    AgreeButTrans (decHwTag k u) (decHwTag k s) := h.after_setTrans _ _

theorem AgreeButTrans.after_decPrepare {u s : State} (h : AgreeButTrans u s) (k : Fin 16) :
    AgreeButTrans (decPrepare k u) (decPrepare k s) := by
  simp only [decPrepare, h.regs_eq]
  split
  · exact h.after_loadIv.after_decHwTag k
  · exact h.after_loadIv

theorem decPrepare_ivReg (k : Fin 16) (s : State) : (decPrepare k s).trans.ivReg = (loadIv s).trans.ivReg := by
  rw [decPrepare]
  split
  · rw [decHwTag, setTrans_trans]
  · rfl

/-- The registers of the software check hold the same (44_decrypt.md R192, R194). -/
def SameHashRegs (u s : State) : Prop :=
  u.trans.hSub = s.trans.hSub ∧ u.trans.sReg = s.trans.sReg ∧ u.trans.tagR = s.trans.tagR

theorem AgreeButTrans.decHwTag_sameHashRegs {u s : State} (h : AgreeButTrans u s)
    (hj : u.trans.j0Reg = s.trans.j0Reg) (k : Fin 16) : SameHashRegs (decHwTag k u) (decHwTag k s) := by
  simp only [SameHashRegs, decHwTag, setTrans_trans, h.regs_eq, h.slotAt_eq, h.readRange_eq, hj, and_self]

/-- With the AAD present DECRYPT has written the registers of the software check before its transform. -/
theorem AgreeButTrans.decPrepare_sameHashRegs {u s : State} (h : AgreeButTrans u s)
    (haad : aadPresent s.regs = true) (k : Fin 16) :
    SameHashRegs (decPrepare k u) (decPrepare k s) := by
  rw [decPrepare, decPrepare, h.regs_eq, if_pos haad, if_pos haad]
  exact h.after_loadIv.decHwTag_sameHashRegs h.loadIv_j0Reg k

theorem AgreeButTrans.decTagForHw_eq {u s : State} (h : AgreeButTrans u s)
    (hhash : aadPresent s.regs = true → SameHashRegs u s) : decTagForHw u = decTagForHw s := by
  rw [decTagForHw, decTagForHw, h.regs_eq, h.expectedTag_eq]
  split
  · obtain ⟨-, -, htag⟩ := hhash ‹_›
    exact htag
  · rfl

theorem AgreeButTrans.after_decSoftTag {u s : State} (h : AgreeButTrans u s) (c : List Byte) :
    AgreeButTrans (decSoftTag c u) (decSoftTag c s) := h.after_setTrans _ _

theorem AgreeButTrans.decSoftTag_tagR {u s : State} (h : AgreeButTrans u s) (hhash : SameHashRegs u s)
    (c : List Byte) : (decSoftTag c u).trans.tagR = (decSoftTag c s).trans.tagR := by
  obtain ⟨hsub, hmask, -⟩ := hhash
  simp only [decSoftTag, setTrans_trans, h.regs_eq, h.readRange_eq, hsub, hmask]

theorem AgreeButTrans.decComplete_eq {u s : State} (h : AgreeButTrans u s) (code : ErrCode) :
    decComplete code u = decComplete code s := by
  rw [decComplete, h.regs_eq, decComplete]
  exact h.complete_eq ..

theorem AgreeButTrans.decAuthFail_eq {u s : State} (h : AgreeButTrans u s) : decAuthFail u = decAuthFail s := by
  rw [decAuthFail, h.regs_eq, decAuthFail]
  exact (h.after_memWrite _ _).decComplete_eq _

theorem AgreeButTrans.decVerify_eq {u s : State} (h : AgreeButTrans u s)
    (hhash : aadPresent s.regs = true → SameHashRegs u s) (c : List Byte) (texp : Block) (r : List Byte × Bool) :
    decVerify c texp r u = decVerify c texp r s := by
  have plain := h.after_memWrite s.regs.dstAddr r.1
  simp only [decVerify, h.regs_eq, memWrite_regs]
  by_cases haad : aadPresent s.regs = true
  · have soft := plain.after_decSoftTag c
    simp only [haad, if_true, plain.decAuthFail_eq, plain.decSoftTag_tagR (hhash haad) c, soft.decComplete_eq,
      soft.decAuthFail_eq]
  · simp only [haad, Bool.false_eq_true, if_false, plain.decAuthFail_eq, plain.decComplete_eq]

/-- A DECRYPT past its checks loads IVREG and, with the AAD present, the registers of the software check first; a hang,
which keeps the transients, is excluded. -/
theorem AgreeButTrans.decRun_eq {u s : State} (h : AgreeButTrans u s) {k : Fin 16}
    (hidle : (decRun k s).status.busy = false) : decRun k u = decRun k s := by
  have hprep := h.after_decPrepare k
  have hiv : (decPrepare k u).trans.ivReg = (decPrepare k s).trans.ivReg := by
    rw [decPrepare_ivReg, decPrepare_ivReg, h.loadIv_ivReg]
  have hregs : (decPrepare k s).regs = s.regs := by
    obtain ⟨x, hx⟩ := decPrepare_eq_setTrans k s
    rw [hx, setTrans_regs]
  have hhash := h.decPrepare_sameHashRegs (k := k)
  rw [← hregs] at hhash
  rw [decRun] at hidle ⊢
  rw [decRun]
  simp only [h.regs_eq, h.readRange_eq, h.expectedTag_eq, hprep.engineInit_eq hiv, hprep.decTagForHw_eq hhash,
    hangDraw_congr hprep.draws_eq] at hidle ⊢
  split_ifs at hidle ⊢ with hangs
  · exact absurd hidle (by simp)
  · refine hprep.after_hangDraw.decVerify_eq ?_ _ _ _
    simpa [SameHashRegs] using hhash

/-! ### Every command -/

theorem execInstallKey_setTrans (k : Fin 16) (x : Transients) (s : State) :
    execInstallKey k (setTrans x s) = execInstallKey k s := by
  simp only [execInstallKey, afterDmaInitDraw_setTrans]
  rfl

theorem execEncrypt_setTrans {k : Fin 16} {s t : State} (x : Transients) (h : execEncrypt k s = .next t)
    (hidle : t.status.busy = false) : execEncrypt k (setTrans x s) = .next t := by
  obtain ⟨bad, rfl⟩ | ⟨good, short, rfl⟩ | ⟨good, enough, a, unadmitted, rfl⟩ | ⟨ready, rfl⟩ := execEncrypt_cases h
  · exact exec_encrypt_of_bad_args (s := setTrans x s) bad
  · exact exec_encrypt_of_no_scratch (s := setTrans x s) good short
  · exact exec_encrypt_of_unadmitted (s := setTrans x s) good enough unadmitted
  · have run := exec_encrypt_of_ready (s := setTrans x s) ready
    rwa [AgreeButTrans.encRun_eq ⟨x, rfl⟩ hidle] at run

theorem execDecrypt_setTrans {k : Fin 16} {s t : State} (x : Transients) (h : execDecrypt k s = .next t)
    (hidle : t.status.busy = false) : execDecrypt k (setTrans x s) = .next t := by
  obtain ⟨bad, rfl⟩ | ⟨good, a, unadmitted, rfl⟩ | ⟨ready, rfl⟩ := execDecrypt_cases h
  · exact exec_decrypt_of_bad_args (s := setTrans x s) bad
  · exact exec_decrypt_of_unadmitted (s := setTrans x s) good unadmitted
  · have run := exec_decrypt_of_ready (s := setTrans x s) ready
    rwa [AgreeButTrans.decRun_eq ⟨x, rfl⟩ hidle] at run

/-- Settles O46: the checks read no transient register, and a run that completes reads only those it has written. -/
theorem nothingIsCarriedBetweenCommands : Obligations.NothingIsCarriedBetweenCommands := by
  intro s t i x h hidle
  cases i with
  | nop k => exact h
  | installKey k => exact (execInstallKey_setTrans k x s).trans h
  | releaseKey k => exact h
  | encrypt k => exact execEncrypt_setTrans x h hidle
  | decrypt k => exact execDecrypt_setTrans x h hidle

end Sys2Proof.Machine
end

section
/-! The register window: what a write and a read of an offset do (10_state.md R22 to R29). -/

namespace Sys2Proof.Machine

theorem windowAccessDefined_word {off : BitVec 8} (h : off.toNat % 4 = 0) : windowAccessDefined off .word = true := by
  simp [windowAccessDefined, h]

theorem hostAct_regRead {off : BitVec 8} (h : off.toNat % 4 = 0) (s : State) :
    hostAct (.regRead off .word) s = .next (hostRead off s) := by
  rw [hostAct, if_pos (windowAccessDefined_word h)]

/-- A write while BUSY = 0 that is not to CMD reaches the operand registers at most. -/
theorem hostAct_regWrite_idle {off : BitVec 8} {s : State} (h : off.toNat % 4 = 0) (hcmd : off ≠ 0x04#8)
    (hidle : s.status.busy = false) (v : Word) :
    hostAct (.regWrite off .word v) s = .next { s with regs := writeOperand off v s.regs } := by
  rw [hostAct, if_pos (windowAccessDefined_word h), writeWindow, hidle, if_neg (by simp), if_neg hcmd]

theorem writeOperand_of_not_mem {off : BitVec 8} (h : off ∉ operandOffsets) (v : Word) (r : OperandRegs) :
    writeOperand off v r = r := by
  simp only [operandOffsets, List.mem_cons, List.not_mem_nil, or_false, not_or] at h
  simp only [writeOperand, h, if_false]

theorem hostAct_regWrite_ignored {off : BitVec 8} {s : State} (h : off.toNat % 4 = 0) (hop : off ∉ operandOffsets)
    (hcmd : off ≠ 0x04#8) (hidle : s.status.busy = false) (v : Word) :
    hostAct (.regWrite off .word v) s = .next s := by
  rw [hostAct_regWrite_idle h hcmd hidle, writeOperand_of_not_mem hop]

theorem operandOffset_aligned : ∀ off ∈ operandOffsets, off.toNat % 4 = 0 ∧ off ≠ 0x04#8 := by
  simp [operandOffsets]

theorem readWindow_writeOperand_same {off : BitVec 8} (h : off ∈ operandOffsets) (v : Word) (s : State) :
    readWindow off { s with regs := writeOperand off v s.regs } = v := by
  simp only [operandOffsets, List.mem_cons, List.not_mem_nil, or_false] at h
  obtain rfl | rfl | rfl | rfl | rfl | rfl | rfl | rfl | rfl | rfl | rfl | rfl := h <;> rfl

/-- The one field that the write changes is read at `off` alone. -/
theorem readWindow_writeOperand_other {off o : BitVec 8} (hoff : off ∈ operandOffsets) (ho : o ≠ off) (v : Word)
    (s : State) : readWindow o { s with regs := writeOperand off v s.regs } = readWindow o s := by
  simp only [operandOffsets, List.mem_cons, List.not_mem_nil, or_false] at hoff
  obtain rfl | rfl | rfl | rfl | rfl | rfl | rfl | rfl | rfl | rfl | rfl | rfl := hoff <;>
    (simp only [readWindow, ho, if_false]; rfl)

/-- Settles O11: the write goes to the one operand register at its offset, which a read of another offset does not show. -/
theorem operandRegisterReadsBack : Obligations.OperandRegisterReadsBack := by
  intro s off v hidle hoff
  obtain ⟨haligned, hcmd⟩ := operandOffset_aligned off hoff
  exact ⟨_, hostAct_regWrite_idle haligned hcmd hidle v, readWindow_writeOperand_same hoff v s,
    fun o ho => readWindow_writeOperand_other hoff ho v s, rfl⟩

theorem readWindow_reserved {off : BitVec 8} (h : 0x44 ≤ off.toNat) (s : State) : readWindow off s = 0#32 := by
  have hne : ∀ k : BitVec 8, k.toNat < 0x44 → off ≠ k := by
    rintro k hk rfl
    omega
  simp [readWindow, hne]

/-- Settles O12: the write reaches no operand register, the read is the model's `hostRead`, and the rest is the map of the
window. -/
theorem fixedRegisters : Obligations.FixedRegisters :=
  ⟨fun _ _ v hidle haligned hop hcmd => hostAct_regWrite_ignored haligned hop hcmd hidle v,
    fun s off haligned => ⟨handedAfterRead off s, hostAct_regRead haligned s⟩,
    fun s => ⟨rfl, rfl, rfl, rfl, fun _ h => readWindow_reserved h s⟩⟩

/-- Bit `j` of SLOT_STATE (10_state.md R28). -/
theorem getLsbD_slotState (s : State) (j : Nat) : (slotState s).getLsbD j
    = if h : j < 16 then decide (j < s.params.nSlots) && (slotAt s ⟨j, h⟩).valid else false :=
  getLsbD_lowBitsWord _ j

theorem slotState_resetOf (p : Params) (m : Memory) (ops : List HostOp) (d : Draws) :
    slotState (State.resetOf p m ops d) = 0#32 := by
  refine BitVec.eq_of_getLsbD_eq fun j _ => ?_
  simp [getLsbD_slotState, Slot.unbound]

/-- Settles O14: SLOT_STATE bit by bit, and its offset is no operand register. -/
theorem slotStateShowsValid : Obligations.SlotStateShowsValid := by
  intro s _
  refine ⟨fun i hi => ?_, fun j hj => ?_, fun hidle v => ?_, fun m ops d => slotState_resetOf s.params m ops d⟩
  · change (slotState s).getLsbD i.val = _
    simp [getLsbD_slotState, hi]
  · change (slotState s).getLsbD j = _
    simp [getLsbD_slotState, hj]
  · exact hostAct_regWrite_ignored (by decide) (by decide) (by decide) hidle v

/-! ### The fields of STATUS -/

theorem errBits_lt (e : ErrCode) : (errBits e).toNat < 9 := by cases e <;> decide

theorem statusWord_busy (st : Status) : (statusWord st).getLsbD 0 = st.busy := by
  rw [statusWord, BitVec.getLsbD_append]
  simp

theorem statusWord_ovr (st : Status) : (statusWord st).getLsbD 1 = st.ovr := by
  rw [statusWord]
  iterate 2 rw [BitVec.getLsbD_append]
  simp

theorem statusWord_fold (st : Status) : (statusWord st).getLsbD 2 = st.fold := by
  rw [statusWord]
  iterate 3 rw [BitVec.getLsbD_append]
  simp

theorem statusWord_hwx (st : Status) : (statusWord st).getLsbD 3 = st.hwx := by
  rw [statusWord]
  iterate 4 rw [BitVec.getLsbD_append]
  simp

theorem statusWord_ghcnt (st : Status) : (statusWord st).extractLsb' 4 2 = st.ghcnt := by
  rw [statusWord]
  iterate 4 rw [BitVec.extractLsb'_append_eq_of_le (by decide)]
  exact BitVec.extractLsb'_append_eq_right

theorem statusWord_reserved_low (st : Status) : (statusWord st).extractLsb' 6 2 = 0#2 := by
  rw [statusWord]
  iterate 5 rw [BitVec.extractLsb'_append_eq_of_le (by decide)]
  exact BitVec.extractLsb'_append_eq_right

theorem statusWord_err (st : Status) : (statusWord st).extractLsb' 8 4 = errBits st.err := by
  rw [statusWord]
  iterate 6 rw [BitVec.extractLsb'_append_eq_of_le (by decide)]
  exact BitVec.extractLsb'_append_eq_right

theorem statusWord_reserved_high (st : Status) : (statusWord st).extractLsb' 12 20 = 0#20 := by
  rw [statusWord]
  iterate 6 rw [BitVec.extractLsb'_append_eq_of_le (by decide)]
  exact BitVec.extractLsb'_append_eq_left

/-- Settles O13: each field of the concatenation at its position, and ERR shows the number of the code. -/
theorem statusWordLayout : Obligations.StatusWordLayout := by
  intro st
  have named : ∀ e, st.err = e → (statusWord st).extractLsb' 8 4 = errBits e := fun e he => he ▸ statusWord_err st
  exact ⟨statusWord_busy st, statusWord_ovr st, statusWord_fold st, statusWord_hwx st, statusWord_ghcnt st,
    statusWord_reserved_low st, statusWord_reserved_high st, named .ok, named .badArgument, named .outOfMemory,
    named .deviceUnavailable, named .deviceInitFailed, named .internalCryptoFailure, named .authenticationFailure,
    named .illegalCommand, named .busError, statusWord_err st ▸ errBits_lt st.err⟩

/-! ### Reset -/

theorem statusWord_zero : statusWord Status.zero = 0#32 := by decide

theorem readWindow_operand_resetOf (p : Params) (m : Memory) (ops : List HostOp) (d : Draws) :
    ∀ off ∈ operandOffsets, readWindow off (State.resetOf p m ops d) = 0#32 := by
  intro off hoff
  simp only [operandOffsets, List.mem_cons, List.not_mem_nil, or_false] at hoff
  obtain rfl | rfl | rfl | rfl | rfl | rfl | rfl | rfl | rfl | rfl | rfl | rfl := hoff <;> rfl

/-- Settles O52: each field of `State.resetOf`, read where the statement reads it. -/
theorem resetValues : Obligations.ResetValues := fun p m ops d =>
  ⟨rfl, statusWord_zero, rfl, readWindow_operand_resetOf p m ops d, slotState_resetOf p m ops d, slotAt_resetOf p m ops d,
    rfl, rfl, rfl, rfl, rfl⟩

theorem resetOf_busyCleared (p : Params) (m : Memory) (ops : List HostOp) (d : Draws) :
    BusyCleared (State.resetOf p m ops d) := ⟨nofun, nofun⟩

theorem resetOf_statusNamed (p : Params) (m : Memory) (ops : List HostOp) (d : Draws) :
    StatusNamed (State.resetOf p m ops d) := ⟨nofun, fun _ => rfl, nofun, fun _ => rfl⟩

/-- Settles O60: the invariants on the reset values; the parameters of log 2 are in range by evaluation. -/
theorem invariantsHoldAtReset : Obligations.InvariantsHoldAtReset :=
  ⟨fun p m ops d hm => ⟨hm, resetOf_slotsClean p m ops d, fun _ => rfl, resetOf_busyCleared p m ops d,
    resetOf_statusNamed p m ops d⟩, rfl, reset_mem_wf, by decide⟩

end Sys2Proof.Machine
end

section
/-! Every step keeps system memory in its canonical form (20_memory.md R50; log 7). -/

namespace Sys2Proof.Machine

theorem memCanonical_congr {s t : State} (h : t.mem = s.mem) : MemCanonical t ↔ MemCanonical s := by
  rw [MemCanonical, h]

theorem WritesWithin.memCanonical {l : List Span} {s t : State} (h : WritesWithin l s t) (hm : MemCanonical s) :
    MemCanonical t := And.left (h hm)

/-- No command breaks the canonical form: the session commands write no memory, the AEAD commands write inside the
address space. -/
theorem exec_memCanonical {i : Instr} {s t : State} (hm : MemCanonical s) (h : exec i s = .next t) :
    MemCanonical t := by
  cases i with
  | nop k => exact (memCanonical_congr (exec_session_mem (.inl rfl) h)).mpr hm
  | installKey k => exact (memCanonical_congr (exec_session_mem (.inr (.inl rfl)) h)).mpr hm
  | releaseKey k => exact (memCanonical_congr (exec_session_mem (.inr (.inr rfl)) h)).mpr hm
  | encrypt k => exact (execEncrypt_writesWithin h).memCanonical hm
  | decrypt k => exact (execDecrypt_writesWithin h).memCanonical hm

/-- A reset that cuts a command writes what it leaves in the output ranges inside the address space. -/
theorem cutByReset_memCanonical {s : State} (hm : MemCanonical s) : MemCanonical (cutByReset s) := by
  rw [cutByReset]
  split
  · exact havoc_wf _ s hm
  · exact hm

/-- Of the host's operations only a store and a reset write memory. -/
theorem hostAct_memCanonical {op : HostOp} {s t : State} (hm : MemCanonical s) (h : hostAct op s = .next t) :
    MemCanonical t := by
  obtain ⟨_, _, _, -, write⟩ | ⟨_, _, -, rfl⟩ | ⟨a, bs, -, rfl, hend⟩ | ⟨_, _, -, rfl, -⟩ | ⟨-, rfl⟩ | ⟨-, rfl⟩ :=
    hostAct_cases h
  · obtain ⟨-, rfl⟩ | ⟨-, -, rfl⟩ | ⟨-, -, rfl⟩ := write
    · exact hm
    · exact hm
    · exact hm
  · exact hm
  · exact memWrite_wf a bs s hm hend
  · exact hm
  · exact cutByReset_memCanonical hm
  · exact hm

/-- Settles O55: a step is a host operation, Exec of a command, IllegalCommand, or nothing; what they write stays inside the
address space, and the last two write no memory. -/
theorem stepKeepsMemoryCanonical : Obligations.StepKeepsMemoryCanonical := by
  intro s t hm h
  obtain ⟨op, rest, -, -, host⟩ | ⟨rest, -, ⟨-, -, i, -, command⟩ | ⟨-, -, -, rfl⟩ | ⟨-, rfl⟩⟩ := step_cases h
  · exact hostAct_memCanonical (s := { s with inputs := rest }) hm host
  · exact exec_memCanonical (s := { s with inputs := rest }) hm command
  · exact hm
  · exact hm

end Sys2Proof.Machine
end

section
/-! Where a host access goes through and where it stops (20_memory.md R50, R58; 70_reset_and_hazards.md R245; logs 9 to 11):
one lemma per branch of `hostMemory`, in the order of its checks. -/

namespace Sys2Proof.Machine

theorem handed_any_overlap_iff (l : List Range) (r : Range) :
    l.any (overlap r) = true ↔ ∃ q ∈ l, Overlaps r.addr r.len q.addr q.len := by
  simp only [List.any_eq_true, overlap_iff]

section
variable {a : Word} {n : Nat} {s : State} (t : State)

theorem hostMemory_past_end (h : 2 ^ 32 < a.toNat + n) : hostMemory ⟨a, n⟩ s t = .fault .noSuchAddress := by
  rw [hostMemory, if_pos h]

theorem hostMemory_on_window (hend : a.toNat + n ≤ 2 ^ 32) (h : Overlaps a n s.params.base 256) :
    hostMemory ⟨a, n⟩ s t = .refused .windowAccess := by
  have hwindow : overlap ⟨a, n⟩ (windowRange s.params) = true := (overlap_iff _ _).mpr h
  rw [hostMemory, if_neg (not_lt.mpr hend), if_pos hwindow]

/-- Past the first two checks what is handed over decides. -/
theorem hostMemory_off_window (hend : a.toNat + n ≤ 2 ^ 32) (h : ¬ Overlaps a n s.params.base 256) :
    hostMemory ⟨a, n⟩ s t = if s.handed.any (overlap ⟨a, n⟩) then .refused .bufferDuty else .next t := by
  have hwindow : ¬ overlap ⟨a, n⟩ (windowRange s.params) = true := mt (overlap_iff _ _).mp h
  rw [hostMemory, if_neg (not_lt.mpr hend), if_neg hwindow]

theorem hostMemory_on_handed (hend : a.toNat + n ≤ 2 ^ 32) (h : ¬ Overlaps a n s.params.base 256)
    (hhanded : ∃ q ∈ s.handed, Overlaps a n q.addr q.len) : hostMemory ⟨a, n⟩ s t = .refused .bufferDuty := by
  rw [hostMemory_off_window t hend h, if_pos ((handed_any_overlap_iff _ _).mpr hhanded)]

theorem hostMemory_free (hend : a.toNat + n ≤ 2 ^ 32) (h : ¬ Overlaps a n s.params.base 256)
    (hhanded : ∀ q ∈ s.handed, ¬ Overlaps a n q.addr q.len) : hostMemory ⟨a, n⟩ s t = .next t := by
  have hnone : ¬ s.handed.any (overlap ⟨a, n⟩) = true := fun hany => by
    obtain ⟨q, hq, hover⟩ := (handed_any_overlap_iff _ _).mp hany
    exact hhanded q hq hover
  rw [hostMemory_off_window t hend h, if_neg hnone]

end

/-- Settles O15: past the three checks a store is `memWrite` and a load is `readBytes`; the laws of memory say the rest. -/
theorem hostStoreWritesItsBytes : Obligations.HostStoreWritesItsBytes := by
  refine ⟨fun s a bs hm hend hwindow hhanded => ?_, fun s a n hend hwindow hhanded => ?_⟩
  · obtain ⟨hwf, hsame⟩ := memWrite_writesWithin (List.mem_singleton_self (a, bs.length)) hend le_rfl s hm
    exact ⟨memWrite a bs s, hostMemory_free _ hend hwindow hhanded,
      readBytes_writeBytes_same bs hm hend, hsame, hwf, rfl⟩
  · refine ⟨{ s with rdMem := readBytes s.mem a.toNat n }, hostMemory_free _ hend hwindow hhanded,
      length_readBytes _ _ _, fun i hi => ?_, rfl⟩
    have hlt : i < (readBytes s.mem a.toNat n).length := by simpa using hi
    rw [List.getD_eq_getElem _ _ hlt, getElem_readBytes]

theorem windowAccessDefined_eq_false {off : BitVec 8} {z : AccessSize} (h : z ≠ .word ∨ off.toNat % 4 ≠ 0) :
    windowAccessDefined off z = false := by
  simpa [windowAccessDefined, ← imp_iff_not_or] using h

/-- A load and a store meet the same checks; they differ in the state they would give. -/
theorem hostAct_memory {op : HostOp} {a : Word} {n : Nat}
    (h : op = .memLoad a n ∨ ∃ bs : List Byte, bs.length = n ∧ op = .memStore a bs) (s : State) :
    ∃ t, hostAct op s = hostMemory ⟨a, n⟩ s t := by
  obtain rfl | ⟨bs, rfl, rfl⟩ := h
  · exact ⟨_, rfl⟩
  · exact ⟨_, rfl⟩

/-- Settles O16: the check of a register access, and the three stops of `hostMemory`, which loads and stores share. -/
theorem hostAccessStops : Obligations.HostAccessStops := by
  refine ⟨fun s off z v h => ?_, fun s a n op hop => ?_⟩
  · have hundefined := windowAccessDefined_eq_false h
    exact ⟨by simp [hostAct, hundefined], by simp [hostAct, hundefined]⟩
  · obtain ⟨t, memory⟩ := hostAct_memory hop s
    rw [memory]
    exact ⟨hostMemory_past_end t, hostMemory_on_window t, hostMemory_on_handed t⟩

end Sys2Proof.Machine
end

section
/-! The one stop of a command: the refusal of overlapping ranges (20_memory.md R57; log 8). -/

namespace Sys2Proof.Machine

/-- ENCRYPT with an output range that overlaps another of its ranges (43_encrypt.md R175). -/
theorem exec_encrypt_of_overlap {k : Fin 16} {s : State} (hargs : EncArgsGood k s) (hscratch : ScratchEnough s)
    (hadmitted : AllSpansAdmitted s.params (encSpans s.regs)) (hover : EncOverlap s.regs) :
    exec (.encrypt k) s = .refused .overlappingRanges := by
  change execEncrypt k s = _
  rw [execEncrypt, if_neg (mt (encBadArgument_iff k s).mp (not_not.mpr hargs)),
    if_neg (mt (encOutOfMemory_iff s).mp (not_not.mpr hscratch)), (encRanges_admitted _ _).mpr hadmitted]
  exact if_pos ((encOverlap_iff k _).mpr hover)

/-- DECRYPT with an output range that overlaps another of its ranges (44_decrypt.md R196). -/
theorem exec_decrypt_of_overlap {k : Fin 16} {s : State} (hargs : DecArgsGood k s)
    (hadmitted : AllSpansAdmitted s.params (decSpans s.regs)) (hover : DecOverlap s.regs) :
    exec (.decrypt k) s = .refused .overlappingRanges := by
  change execDecrypt k s = _
  rw [execDecrypt, if_neg (mt (decBadArgument_iff k s).mp (not_not.mpr hargs)),
    (decRanges_admitted _ _).mpr hadmitted]
  exact if_pos ((decOverlap_iff k _).mpr hover)

/-- Settles O33: with every check passed the overlap is the one thing left to decide. -/
theorem overlappingRangesAreRefused : Obligations.OverlappingRangesAreRefused :=
  ⟨fun _ _ => exec_encrypt_of_overlap, fun _ _ => exec_decrypt_of_overlap⟩

theorem exec_installKey_next (k : Fin 16) (s : State) : ∃ t, exec (.installKey k) s = .next t := by
  change ∃ t, execInstallKey k s = .next t
  rw [execInstallKey]
  split_ifs
  · exact ⟨_, rfl⟩
  · exact ⟨_, rfl⟩
  · exact ⟨_, rfl⟩

theorem exec_encrypt_outcome (k : Fin 16) (s : State) :
    (∃ t, exec (.encrypt k) s = .next t) ∨ exec (.encrypt k) s = .refused .overlappingRanges := by
  by_cases hargs : EncArgsGood k s
  · by_cases hscratch : ScratchEnough s
    · cases hfirst : firstUnadmitted s.params (encRanges s.regs) with
      | some a => exact .inl ⟨_, exec_encrypt_of_unadmitted hargs hscratch hfirst⟩
      | none =>
        have hadmitted := (encRanges_admitted _ _).mp hfirst
        by_cases hover : EncOverlap s.regs
        · exact .inr (exec_encrypt_of_overlap hargs hscratch hadmitted hover)
        · exact .inl ⟨_, exec_encrypt_of_ready ⟨hargs, hscratch, hadmitted, hover⟩⟩
    · exact .inl ⟨_, exec_encrypt_of_no_scratch hargs hscratch⟩
  · exact .inl ⟨_, exec_encrypt_of_bad_args hargs⟩

theorem exec_decrypt_outcome (k : Fin 16) (s : State) :
    (∃ t, exec (.decrypt k) s = .next t) ∨ exec (.decrypt k) s = .refused .overlappingRanges := by
  by_cases hargs : DecArgsGood k s
  · cases hfirst : firstUnadmitted s.params (decRanges s.regs) with
    | some a => exact .inl ⟨_, exec_decrypt_of_unadmitted hargs hfirst⟩
    | none =>
      have hadmitted := (decRanges_admitted _ _).mp hfirst
      by_cases hover : DecOverlap s.regs
      · exact .inr (exec_decrypt_of_overlap hargs hadmitted hover)
      · exact .inl ⟨_, exec_decrypt_of_ready ⟨hargs, hadmitted, hover⟩⟩
  · exact .inl ⟨_, exec_decrypt_of_bad_args hargs⟩

/-- Every command gives a next state, or is an AEAD command refused for an overlap. -/
theorem exec_outcome (i : Instr) (s : State) : (∃ t, exec i s = .next t)
    ∨ (exec i s = .refused .overlappingRanges ∧ ∃ k, i = .encrypt k ∨ i = .decrypt k) := by
  cases i with
  | nop k => exact .inl ⟨_, rfl⟩
  | installKey k => exact .inl (exec_installKey_next k s)
  | releaseKey k => exact .inl ⟨_, rfl⟩
  | encrypt k => exact (exec_encrypt_outcome k s).imp_right fun h => ⟨h, k, .inl rfl⟩
  | decrypt k => exact (exec_decrypt_outcome k s).imp_right fun h => ⟨h, k, .inr rfl⟩

/-- Settles O49: the two outcomes of `exec_outcome` are no fault, and the second is the refusal named. -/
theorem commandsStopOnlyOnOverlap : Obligations.CommandsStopOnlyOnOverlap := by
  intro s i
  obtain ⟨t, next⟩ | ⟨refused, hi⟩ := exec_outcome i s
  · rw [next]
    exact ⟨nofun, nofun⟩
  · rw [refused]
    refine ⟨nofun, fun r h => ?_⟩
    injection h with h
    exact ⟨h.symm, hi⟩

end Sys2Proof.Machine
end

section
/-! Decoding and encoding are inverse: a word is its three fields, and each opcode names one command
(30_encoding.md R70 to R72). -/

namespace Sys2Proof

/-- The three fields of a command's word (30_encoding.md R70, R71). -/
theorem encode_fields (i : Instr) :
    rsvdField (encode i) = 0#20 ∧ opField (encode i) = i.opcode ∧ slotField (encode i) = i.slot := by
  cases i with
  | nop k => exact Laws.EncodeFields.nop k
  | installKey k => exact Laws.EncodeFields.installKey k
  | releaseKey k => exact Laws.EncodeFields.releaseKey k
  | encrypt k => exact Laws.EncodeFields.encrypt k
  | decrypt k => exact Laws.EncodeFields.decrypt k

/-- RSVD, SLOT and OP are all the bits of a word. -/
theorem word_eq_append_fields (w : Word) :
    w = rsvdField w ++ (BitVec.ofFin (slotField w) : BitVec 4) ++ opField w := by
  have high : w.extractLsb' 12 20 ++ w.extractLsb' 8 4 = w.extractLsb' 8 24 :=
    BitVec.extractLsb'_append_extractLsb'_eq_extractLsb' rfl
  have whole : w.extractLsb' 8 24 ++ w.extractLsb' 0 8 = w.extractLsb' 0 32 :=
    BitVec.extractLsb'_append_extractLsb'_eq_extractLsb' rfl
  calc w = w.extractLsb' 0 32 := BitVec.extractLsb'_eq_self.symm
    _ = w.extractLsb' 12 20 ++ w.extractLsb' 8 4 ++ w.extractLsb' 0 8 := by rw [high, whole]

theorem word_eq_of_fields {v w : Word} (hrsvd : rsvdField v = rsvdField w) (hop : opField v = opField w)
    (hslot : slotField v = slotField w) : v = w := by
  rw [word_eq_append_fields v, word_eq_append_fields w, hrsvd, hop, hslot]

theorem commandOf_opcode (i : Instr) : commandOf i.opcode i.slot = some i := by cases i <;> rfl

/-- An opcode that no command has names none. -/
theorem commandOf_eq_none {op : BitVec 8} {k : Fin 16} (h : ¬ ∃ i : Instr, i.opcode = op ∧ i.slot = k) :
    commandOf op k = none := by
  have nop : op ≠ 0x00#8 := fun e => h ⟨.nop k, e.symm, rfl⟩
  have installKey : op ≠ 0x01#8 := fun e => h ⟨.installKey k, e.symm, rfl⟩
  have releaseKey : op ≠ 0x02#8 := fun e => h ⟨.releaseKey k, e.symm, rfl⟩
  have encrypt : op ≠ 0x10#8 := fun e => h ⟨.encrypt k, e.symm, rfl⟩
  have decrypt : op ≠ 0x11#8 := fun e => h ⟨.decrypt k, e.symm, rfl⟩
  calc commandOf op k
    _ = _ := if_neg nop
    _ = _ := if_neg installKey
    _ = _ := if_neg releaseKey
    _ = _ := if_neg encrypt
    _ = none := if_neg decrypt

/-- The opcode and the slot name the command, and the command has them. -/
theorem commandOf_eq_some_iff {op : BitVec 8} {k : Fin 16} {i : Instr} :
    commandOf op k = some i ↔ i.opcode = op ∧ i.slot = k := by
  constructor
  · intro h
    by_cases hnamed : ∃ j : Instr, j.opcode = op ∧ j.slot = k
    · obtain ⟨j, rfl, rfl⟩ := hnamed
      have hj : j = i := Option.some.inj ((commandOf_opcode j).symm.trans h)
      exact ⟨congrArg Instr.opcode hj.symm, congrArg Instr.slot hj.symm⟩
    · cases (commandOf_eq_none hnamed).symm.trans h
  · rintro ⟨rfl, rfl⟩
    exact commandOf_opcode i

theorem decode_of_reservedBits {w : Word} (hrsvd : rsvdField w ≠ 0#20) (n : Nat) :
    decode n w = .error .reservedBits := if_neg hrsvd

theorem decode_of_reservedOpcode {w : Word} (hrsvd : rsvdField w = 0#20)
    (hnone : commandOf (opField w) (slotField w) = none) (n : Nat) : decode n w = .error .reservedOpcode :=
  (if_pos hrsvd).trans (by rw [hnone])

theorem decode_of_command {w : Word} {i : Instr} (hrsvd : rsvdField w = 0#20)
    (hsome : commandOf (opField w) (slotField w) = some i) (n : Nat) :
    decode n w = if i.slot.val < n then .ok i else .error .slotOutOfRange :=
  (if_pos hrsvd).trans (by rw [hsome])

/-- A word that decodes has RSVD = 0, and its OP and SLOT name the command. -/
theorem command_of_decode {n : Nat} {w : Word} {i : Instr} (h : decode n w = .ok i) :
    rsvdField w = 0#20 ∧ commandOf (opField w) (slotField w) = some i := by
  by_cases hrsvd : rsvdField w = 0#20
  · cases hcommand : commandOf (opField w) (slotField w) with
    | none => simp [decode_of_reservedOpcode hrsvd hcommand] at h
    | some j =>
      rw [decode_of_command hrsvd hcommand] at h
      split_ifs at h
      injection h with h
      exact ⟨hrsvd, congrArg some h⟩
  · simp [decode_of_reservedBits hrsvd] at h

/-- The words that decode to a command are those with its fields, when its slot exists (30_encoding.md R72). -/
theorem decode_eq_ok_iff {n : Nat} {w : Word} {i : Instr} : decode n w = .ok i ↔
    rsvdField w = 0#20 ∧ opField w = i.opcode ∧ slotField w = i.slot ∧ i.WellFormed n := by
  constructor
  · intro h
    obtain ⟨hrsvd, hcommand⟩ := command_of_decode h
    obtain ⟨hop, hslot⟩ := commandOf_eq_some_iff.mp hcommand
    exact ⟨hrsvd, hop.symm, hslot.symm, Machine.slot_lt_of_decode h⟩
  · rintro ⟨hrsvd, hop, hslot, hlt⟩
    have hcommand : commandOf (opField w) (slotField w) = some i := commandOf_eq_some_iff.mpr ⟨hop.symm, hslot.symm⟩
    exact (decode_of_command hrsvd hcommand n).trans (if_pos hlt)

/-- Settles O1: the word of a command has the fields that `decode` asks for. -/
theorem decodeOfEncode : Obligations.DecodeOfEncode := by
  intro n i hlt
  obtain ⟨hrsvd, hop, hslot⟩ := encode_fields i
  exact decode_eq_ok_iff.mpr ⟨hrsvd, hop, hslot, hlt⟩

/-- Settles O2: a word that decodes has the three fields of its command's word, and these are all its bits. -/
theorem encodeOfDecode : Obligations.EncodeOfDecode := by
  intro n w i h
  obtain ⟨hrsvd, hop, hslot, hlt⟩ := decode_eq_ok_iff.mp h
  obtain ⟨hrsvd', hop', hslot'⟩ := encode_fields i
  exact ⟨word_eq_of_fields (hrsvd'.trans hrsvd.symm) (hop'.trans hop.symm) (hslot'.trans hslot.symm), hlt⟩

/-- An opcode names a command, on whichever slot, iff it is one of the five of 30_encoding.md R71. -/
theorem exists_command_iff (op : BitVec 8) (k : Fin 16) :
    (∃ i : Instr, i.opcode = op ∧ i.slot = k) ↔ op ∈ [0x00#8, 0x01#8, 0x02#8, 0x10#8, 0x11#8] := by
  constructor
  · rintro ⟨i, rfl, -⟩
    cases i <;> simp [Instr.opcode]
  · intro h
    simp only [List.mem_cons, List.not_mem_nil, or_false] at h
    obtain rfl | rfl | rfl | rfl | rfl := h
    · exact ⟨.nop k, rfl, rfl⟩
    · exact ⟨.installKey k, rfl, rfl⟩
    · exact ⟨.releaseKey k, rfl, rfl⟩
    · exact ⟨.encrypt k, rfl, rfl⟩
    · exact ⟨.decrypt k, rfl, rfl⟩

/-- Settles O3: some command has the word's OP and SLOT iff OP is one of the five opcodes. -/
theorem legalWordsAreExactly : Obligations.LegalWordsAreExactly := by
  intro n w
  change _ ↔ rsvdField w = 0#20 ∧ opField w ∈ _ ∧ (slotField w).val < n
  rw [← exists_command_iff (opField w) (slotField w)]
  constructor
  · rintro ⟨i, h⟩
    obtain ⟨hrsvd, hop, hslot, hlt⟩ := decode_eq_ok_iff.mp h
    exact ⟨hrsvd, ⟨i, hop.symm, hslot.symm⟩, lt_of_eq_of_lt (congrArg Fin.val hslot) hlt⟩
  · rintro ⟨hrsvd, ⟨i, hop, hslot⟩, hlt⟩
    exact ⟨i, decode_eq_ok_iff.mpr ⟨hrsvd, hop.symm, hslot.symm, lt_of_eq_of_lt (congrArg Fin.val hslot) hlt⟩⟩

/-- Settles O4: the decoder evaluated on each worked word. -/
theorem workedEncodings : Obligations.WorkedEncodings := ⟨rfl, rfl, rfl, rfl, rfl, rfl, rfl, rfl⟩

end Sys2Proof
end

section
/-! FOLD, HWX, GHCNT, ERR and ERR_ADDR stay clear while BUSY = 1, and a hung TFO is busy (30_encoding.md R80, R83;
10_state.md R33). -/

namespace Sys2Proof.Machine

/-- `u` has the STATUS, the ERR_ADDR and the HUNG of `s`: what a command leaves alone until it ends. -/
def SameControl (s u : State) : Prop := u.status = s.status ∧ u.errAddr = s.errAddr ∧ u.hung = s.hung

theorem afterHangDraw_sameControl (s : State) : SameControl s (afterHangDraw s) := by simp [SameControl]

theorem afterDmaInitDraw_sameControl (s : State) : SameControl s (afterDmaInitDraw s) := by simp [SameControl]

/-- How Exec, begun in `s`, ends: it completes, or it hangs, which sets HUNG and BUSY and changes no other field of
STATUS and not ERR_ADDR (60_exceptions.md R210; 42_ctr_controller.md R158). -/
def CompletesOrHangs (s t : State) : Prop :=
  (∃ code fold hwx ghcnt ea, Completed s t code fold hwx ghcnt ea)
    ∨ (t.hung = true ∧ t.status = { s.status with busy := true } ∧ t.errAddr = s.errAddr)

theorem CompletesOrHangs.of_sameControl {s u t : State} (hu : SameControl s u) (h : CompletesOrHangs u t) :
    CompletesOrHangs s t := by
  obtain ⟨hstatus, herrAddr, hhung⟩ := hu
  simpa only [CompletesOrHangs, Completed, hstatus, herrAddr, hhung] using h

theorem complete_completes (code : ErrCode) (fold hwx : Bool) (ghcnt : BitVec 2) (ea : Word) (s : State) :
    CompletesOrHangs s (complete code fold hwx ghcnt ea s) := .inl ⟨code, fold, hwx, ghcnt, ea, rfl, rfl, rfl, rfl⟩

theorem raise_completes (code : ErrCode) (s : State) : CompletesOrHangs s (raise code s) :=
  complete_completes _ _ _ _ _ s

theorem raiseBus_completes (a : Word) (s : State) : CompletesOrHangs s (raiseBus a s) :=
  complete_completes _ _ _ _ _ s

theorem completeOk_completes (s : State) : CompletesOrHangs s (completeOk s) := complete_completes _ _ _ _ _ s

theorem hangWith_hangs (rs : List Range) (s : State) : CompletesOrHangs s (hangWith rs s) :=
  .inr ⟨hangWith_hung rs s, hangWith_status rs s, hangWith_errAddr rs s⟩

theorem encFinish_completes (k : Fin 16) (s : State) : CompletesOrHangs s (encFinish k s) := by
  obtain ⟨hstatus, -, -, hhung, htrans, herrAddr, -⟩ := encFinish_fields k s
  exact .inl ⟨_, _, _, _, _, hstatus, herrAddr, htrans, hhung⟩

theorem encRun_completesOrHangs (k : Fin 16) (s : State) : CompletesOrHangs s (encRun k s) := by
  have hdraw : SameControl s (afterHangDraw (loadIv s)) := afterHangDraw_sameControl (loadIv s)
  obtain ⟨-, -, hang⟩ | ⟨-, -, hardware⟩ | ⟨-, noHardware⟩ := encRun_cases k s
  · exact hang ▸ (hangWith_hangs _ _).of_sameControl hdraw
  · exact hardware ▸ (encFinish_completes k (encHardware k _)).of_sameControl hdraw
  · exact noHardware ▸ encFinish_completes k (loadIv s)

theorem decVerify_completes (c : List Byte) (texp : Block) (r : List Byte × Bool) (s : State) :
    CompletesOrHangs s (decVerify c texp r s) := by
  obtain ⟨x, accepted | failed⟩ := decVerify_cases c texp r s
  · exact accepted ▸ complete_completes _ _ _ _ _ (setTrans x (memWrite _ _ s))
  · exact failed ▸ complete_completes _ _ _ _ _ (memWrite _ _ (setTrans x (memWrite _ _ s)))

theorem decRun_completesOrHangs (k : Fin 16) (s : State) : CompletesOrHangs s (decRun k s) := by
  obtain ⟨x, -, run⟩ := decRun_cases k s
  have hdraw : SameControl s (afterHangDraw (setTrans x s)) := afterHangDraw_sameControl (setTrans x s)
  obtain ⟨-, hang⟩ | ⟨-, verify⟩ := run
  · exact hang ▸ (hangWith_hangs _ _).of_sameControl hdraw
  · exact verify ▸ (decVerify_completes _ _ _ _).of_sameControl hdraw

theorem execInstallKey_completes {k : Fin 16} {s t : State} (h : execInstallKey k s = .next t) :
    CompletesOrHangs s t := by
  have hdraw := afterDmaInitDraw_sameControl s
  obtain ⟨-, rfl⟩ | ⟨-, -, rfl⟩ | ⟨-, -, -, rfl⟩ | ⟨-, -, -, -, rfl⟩ | ⟨-, -, -, -, rfl⟩ := execInstallKey_cases h
  · exact raise_completes _ s
  · exact raise_completes _ (unbindSlot k s)
  · exact (raise_completes _ (unbindSlot k _)).of_sameControl hdraw
  · exact (raiseBus_completes _ (unbindSlot k _)).of_sameControl hdraw
  · exact (completeOk_completes (bindSlot k _ _ _)).of_sameControl hdraw

/-- How every command that gives a next state ends. -/
theorem exec_completesOrHangs {i : Instr} {s t : State} (h : exec i s = .next t) : CompletesOrHangs s t := by
  cases i with
  | nop k =>
    injection h with h
    exact h ▸ completeOk_completes s
  | installKey k => exact execInstallKey_completes h
  | releaseKey k =>
    injection h with h
    exact h ▸ completeOk_completes (unbindSlot k s)
  | encrypt k =>
    obtain ⟨-, rfl⟩ | ⟨-, -, rfl⟩ | ⟨-, -, a, -, rfl⟩ | ⟨-, rfl⟩ := execEncrypt_cases h
    · exact raise_completes _ s
    · exact raise_completes _ s
    · exact raiseBus_completes a s
    · exact encRun_completesOrHangs k s
  | decrypt k =>
    obtain ⟨-, rfl⟩ | ⟨-, a, -, rfl⟩ | ⟨-, rfl⟩ := execDecrypt_cases h
    · exact raise_completes _ s
    · exact raiseBus_completes a s
    · exact decRun_completesOrHangs k s

/-- Exec begins busy and not hung. A completion ends with BUSY = 0 and HUNG as it was; a hang ends with the fields still
clear, since it writes none of them. -/
theorem CompletesOrHangs.busyCleared {s t : State} (hs : BusyCleared s) (hbusy : s.status.busy = true)
    (hrun : s.hung = false) (h : CompletesOrHangs s t) : BusyCleared t := by
  obtain ⟨hclear, -⟩ := hs
  obtain ⟨code, fold, hwx, ghcnt, ea, hstatus, -, -, hhung⟩ | ⟨-, hstatus, herrAddr⟩ := h
  · exact ⟨fun hb => by simp [hstatus] at hb, fun hh => by simp [hhung, hrun] at hh⟩
  · rw [BusyCleared, hstatus, herrAddr]
    exact ⟨fun _ => hclear hbusy, fun _ => rfl⟩

/-- Acceptance clears the fields, reset clears BUSY and HUNG, and the other host operations change neither the fields
nor BUSY nor HUNG. -/
theorem hostAct_busyCleared {op : HostOp} {s t : State} (hs : BusyCleared s) (h : hostAct op s = .next t) :
    BusyCleared t := by
  obtain ⟨_, _, _, -, write⟩ | ⟨_, _, -, rfl⟩ | ⟨_, _, -, rfl, -⟩ | ⟨_, _, -, rfl, -⟩ | ⟨-, rfl⟩ | ⟨-, rfl⟩ :=
    hostAct_cases h
  · obtain ⟨-, rfl⟩ | ⟨-, -, rfl⟩ | ⟨-, -, rfl⟩ := write
    · exact hs
    · exact ⟨fun _ => ⟨rfl, rfl, rfl, rfl, rfl⟩, fun _ => rfl⟩
    · exact hs
  · exact hs
  · exact hs
  · exact hs
  · exact resetOf_busyCleared s.params [] [] Draws.free
  · exact hs

/-- Settles O58: a step is a host operation, Exec of a command, IllegalCommand, or nothing; Exec and IllegalCommand end
in a completion or a hang. -/
theorem stepKeepsBusyFieldsClear : Obligations.StepKeepsBusyFieldsClear := by
  intro s t hs h
  obtain ⟨op, rest, -, -, host⟩ | ⟨rest, -, ⟨hbusy, hrun, i, -, command⟩ | ⟨hbusy, hrun, -, rfl⟩ | ⟨-, rfl⟩⟩ :=
    step_cases h
  · exact hostAct_busyCleared (s := { s with inputs := rest }) hs host
  · exact (exec_completesOrHangs command).busyCleared hs hbusy hrun
  · exact (raise_completes .illegalCommand { s with inputs := rest }).busyCleared hs hbusy hrun
  · exact hs

end Sys2Proof.Machine
end

section
/-! Whose turn it is, and what the turn does (30_encoding.md R81; log 1). -/

namespace Sys2Proof.Machine

theorem step_of_no_input {s : State} (h : s.inputs = []) : step s = tfoTurn s := by rw [step, h]

theorem step_of_idle {s : State} {rest : List HostOp} (h : s.inputs = .idle :: rest) :
    step s = tfoTurn { s with inputs := rest } := by
  rw [step, h]
  rfl

theorem step_of_hostOp {s : State} {op : HostOp} {rest : List HostOp} (h : s.inputs = op :: rest) (hop : op ≠ .idle) :
    step s = hostAct op { s with inputs := rest } := by
  rw [step, h]
  exact if_neg hop

theorem tfoTurn_running {s : State} {i : Instr} (hbusy : s.status.busy = true) (hrun : s.hung = false)
    (hdecode : decode s.params.nSlots s.cmdLatch = .ok i) : tfoTurn s = exec i s := by
  rw [tfoTurn, if_pos (by simp [hbusy, hrun]), execLatched, hdecode]

theorem tfoTurn_resting {s : State} (h : s.status.busy = false ∨ s.hung = true) : tfoTurn s = .next s := by
  obtain hidle | hhung := h
  · simp [tfoTurn, hidle]
  · simp [tfoTurn, hhung]

/-- Settles O5: the host idle or absent, the step is TFO's turn, and a running TFO's turn is Exec. -/
theorem stepRunsTheDecodedCommand : Obligations.StepRunsTheDecodedCommand := by
  intro s i hbusy hrun hdecode
  exact ⟨fun hnone => (step_of_no_input hnone).trans (tfoTurn_running hbusy hrun hdecode),
    fun rest hidle => (step_of_idle hidle).trans (tfoTurn_running (s := { s with inputs := rest }) hbusy hrun hdecode)⟩

/-- Settles O6: any other host operation is the step itself, and the turn of a TFO that is not running does nothing. -/
theorem stepWithoutExec : Obligations.StepWithoutExec :=
  ⟨fun _ _ _ => step_of_hostOp, fun s hrest =>
    ⟨fun hnone => (step_of_no_input hnone).trans (tfoTurn_resting hrest),
      fun rest hidle => (step_of_idle hidle).trans (tfoTurn_resting (s := { s with inputs := rest }) hrest)⟩⟩

end Sys2Proof.Machine
end

section
/-! Acceptance of a CMD write, and what the host can do to a busy TFO (30_encoding.md R80, R82, R83). -/

namespace Sys2Proof.Machine

theorem hostAct_regWrite_cmd {s : State} (hidle : s.status.busy = false) (w : Word) :
    hostAct (.regWrite 0x04#8 .word w) s = .next (accept w s) := by
  rw [hostAct, if_pos (windowAccessDefined_word rfl), writeWindow, hidle, if_neg (by simp), if_pos rfl]

/-- Settles O8: the write is `accept`, which writes these fields and `handed`. -/
theorem cmdWriteIsAccepted : Obligations.CmdWriteIsAccepted := fun _ w hidle => ⟨_, hostAct_regWrite_cmd hidle w⟩

theorem hostAct_regWrite_busy {off : BitVec 8} {s : State} (h : off.toNat % 4 = 0) (hbusy : s.status.busy = true)
    (v : Word) : hostAct (.regWrite off .word v) s = .next (overrun s) := by
  rw [hostAct, if_pos (windowAccessDefined_word h), writeWindow, if_pos hbusy]

/-- A busy TFO gives no range back (70_reset_and_hazards.md R245; log 10). -/
theorem handedAfterRead_busy (off : BitVec 8) {s : State} (hbusy : s.status.busy = true) :
    handedAfterRead off s = s.handed := by
  simp [handedAfterRead, hbusy]

/-- In flight STATUS reads BUSY and OVR alone (30_encoding.md R82). -/
theorem statusWord_inFlight (ovr : Bool) :
    statusWord { busy := true, ovr := ovr, fold := false, hwx := false, ghcnt := 0#2, err := .ok }
      = if ovr then 3#32 else 1#32 := by
  cases ovr
  · rfl
  · rfl

theorem status_eq_of_busyCleared {s : State} (hs : BusyCleared s) (hbusy : s.status.busy = true) :
    s.status = { busy := true, ovr := s.status.ovr, fold := false, hwx := false, ghcnt := 0#2, err := .ok } := by
  obtain ⟨hclear, -⟩ := hs
  obtain ⟨hfold, hhwx, hghcnt, herr, -⟩ := hclear hbusy
  change Status.mk s.status.busy s.status.ovr s.status.fold s.status.hwx s.status.ghcnt s.status.err = _
  rw [hbusy, hfold, hhwx, hghcnt, herr]

/-- Settles O10: the write is `overrun`, the read leaves `handed` alone, and clear fields leave STATUS two values. -/
theorem busyWritesOnlySetOvr : Obligations.BusyWritesOnlySetOvr := by
  refine ⟨fun s off v haligned hbusy => ⟨hostAct_regWrite_busy haligned hbusy v, ?_⟩, fun s hs hbusy => ⟨?_, ?_⟩⟩
  · rw [hostAct_regRead haligned, hostRead, handedAfterRead_busy off hbusy]
  · change statusWord s.status = _
    rw [status_eq_of_busyCleared hs hbusy, statusWord_inFlight]
  · obtain ⟨hclear, -⟩ := hs
    obtain ⟨-, -, -, -, herrAddr⟩ := hclear hbusy
    exact herrAddr

/-- What a read of any offset but STATUS depends on. -/
theorem readWindow_congr {s t : State} {off : BitVec 8} (hoff : off ≠ 0x08#8) (hparams : t.params = s.params)
    (hslots : t.slots = s.slots) (herrAddr : t.errAddr = s.errAddr) (hregs : t.regs = s.regs) :
    readWindow off t = readWindow off s := by
  simp only [readWindow, hoff, if_false, herrAddr, hregs, slotState_congr hslots hparams]

/-- Of the registers that the host can write, an operation on a busy TFO, short of a reset, changes OVR alone. -/
theorem hostAct_busy_registers {op : HostOp} {s t : State} (hbusy : s.status.busy = true) (hop : op ≠ .reset)
    (h : hostAct op s = .next t) : t.errAddr = s.errAddr ∧ t.regs = s.regs ∧ t.cmdLatch = s.cmdLatch
      ∧ (t.status = s.status ∨ t.status = { s.status with ovr := true }) := by
  obtain ⟨_, _, _, -, write⟩ | ⟨_, _, -, rfl⟩ | ⟨_, _, -, rfl, -⟩ | ⟨_, _, -, rfl, -⟩ | ⟨reset, -⟩ | ⟨-, rfl⟩ :=
    hostAct_cases h
  · obtain ⟨-, rfl⟩ | ⟨idle, -⟩ | ⟨idle, -⟩ := write
    · exact ⟨rfl, rfl, rfl, .inr rfl⟩
    · exact absurd hbusy (by simp [idle])
    · exact absurd hbusy (by simp [idle])
  · exact ⟨rfl, rfl, rfl, .inl rfl⟩
  · exact ⟨rfl, rfl, rfl, .inl rfl⟩
  · exact ⟨rfl, rfl, rfl, .inl rfl⟩
  · exact absurd reset hop
  · exact ⟨rfl, rfl, rfl, .inl rfl⟩

/-- Settles O51: what a read of the other offsets depends on is kept, and of STATUS only OVR can change. -/
theorem hostSeesOnlyOvrChangeWhileBusy : Obligations.HostSeesOnlyOvrChangeWhileBusy := by
  intro s t op hbusy hop h
  obtain ⟨herrAddr, hregs, hlatch, hstatus⟩ := hostAct_busy_registers hbusy hop h
  exact ⟨fun off hoff => readWindow_congr hoff (hostAct_params h) (hostAct_slots hop h) herrAddr hregs, hstatus, hlatch⟩

end Sys2Proof.Machine
end

section
/-! What NOP, INSTALL_KEY and RELEASE_KEY leave behind (40_session.md R100 to R106). -/

namespace Sys2Proof

/-- The word `(s << 8) | OP` decodes to its command iff the slot exists (30_encoding.md R72). -/
theorem decode_encode_iff (n : Nat) (i : Instr) : decode n (encode i) = .ok i ↔ i.WellFormed n := by
  obtain ⟨hrsvd, hop, hslot⟩ := encode_fields i
  simp [decode_eq_ok_iff, hrsvd, hop, hslot]

end Sys2Proof

namespace Sys2Proof.Machine

/-- A session command completed with `code` and ERR_ADDR `ea`, left slot `k` holding `x`, and changed no other slot, no
memory and nothing of the frame. -/
def SetsSlotAlone (k : Fin 16) (x : Slot) (code : ErrCode) (ea : Word) (s t : State) : Prop :=
  Raised s t code ea ∧ Frame s t ∧ t.mem = s.mem ∧ OtherSlotsSame k s t ∧ slotAt t k = x

theorem complete_setSlot_setsSlotAlone (k : Fin 16) (x : Slot) (code : ErrCode) (ea : Word) (s : State) :
    SetsSlotAlone k x code ea s (complete code false false 0#2 ea (setSlot k x s)) :=
  ⟨⟨rfl, rfl, rfl, rfl⟩, ⟨rfl, rfl, rfl, rfl, rfl, rfl, rfl⟩, rfl, fun _ hj => slotAt_setSlot_other x s hj,
    slotAt_setSlot_same k x s⟩

theorem afterDmaInitDraw_eq (s : State) : ∃ d, afterDmaInitDraw s = { s with draws := d } := by
  rw [afterDmaInitDraw]
  split
  · exact ⟨_, rfl⟩
  · exact ⟨_, rfl⟩

/-- The draw of INSTALL_KEY changes nothing that `SetsSlotAlone` speaks of. -/
theorem SetsSlotAlone.of_afterDmaInitDraw {k : Fin 16} {x : Slot} {code : ErrCode} {ea : Word} {s t : State}
    (h : SetsSlotAlone k x code ea (afterDmaInitDraw s) t) : SetsSlotAlone k x code ea s t := by
  obtain ⟨d, hd⟩ := afterDmaInitDraw_eq s
  rw [hd] at h
  exact h

/-! ### NOP -/

/-- Settles O17: NOP's word is `encode`'s, and NOP is `completeOk`. -/
theorem nopCompletes : Obligations.NopCompletes :=
  ⟨fun n k => decode_encode_iff n (.nop k), fun _ _ => rfl⟩

/-! ### RELEASE_KEY -/

/-- A slot that is not bound does not show in SLOT_STATE. -/
theorem getLsbD_slotState_of_invalid {s : State} {k : Fin 16} (h : (slotAt s k).valid = false) :
    (slotState s).getLsbD k.val = false := by
  simp [getLsbD_slotState, h]

theorem exec_encrypt_of_invalid {k : Fin 16} {s : State} (h : (slotAt s k).valid = false) :
    exec (.encrypt k) s = .next (raise .badArgument s) := by
  refine exec_encrypt_of_bad_args fun hargs => ?_
  obtain ⟨-, -, -, -, -, hvalid⟩ := hargs
  exact absurd hvalid (by simp [h])

theorem exec_decrypt_of_invalid {k : Fin 16} {s : State} (h : (slotAt s k).valid = false) :
    exec (.decrypt k) s = .next (raise .badArgument s) := by
  refine exec_decrypt_of_bad_args fun hargs => ?_
  obtain ⟨-, -, -, -, -, hvalid⟩ := hargs
  exact absurd hvalid (by simp [h])

theorem raise_raised (code : ErrCode) (s : State) : Raised s (raise code s) code 0#32 := ⟨rfl, rfl, rfl, rfl⟩

theorem exec_releaseKey (k : Fin 16) (s : State) : exec (.releaseKey k) s = .next (completeOk (unbindSlot k s)) := rfl

/-- Settles O18: RELEASE_KEY sets its slot to the unbound one, and the AEAD commands check VALID among their arguments. -/
theorem releaseKeyUnbinds : Obligations.ReleaseKeyUnbinds := by
  refine ⟨fun n k => decode_encode_iff n (.releaseKey k), fun s k => ⟨_, exec_releaseKey k s, ?_⟩⟩
  obtain ⟨hcompleted, hframe, hmem, hother, hslot⟩ :=
    complete_setSlot_setsSlotAlone k Slot.unbound .ok 0#32 s
  have hinvalid : (slotAt (completeOk (unbindSlot k s)) k).valid = false := congrArg Slot.valid hslot
  refine ⟨hcompleted, hframe, hmem, rfl, hother, hslot, fun hunbound j => ?_, getLsbD_slotState_of_invalid hinvalid,
    ⟨_, exec_encrypt_of_invalid hinvalid, raise_raised _ _⟩, _, exec_decrypt_of_invalid hinvalid, raise_raised _ _⟩
  by_cases hj : j = k
  · subst hj
    exact hslot.trans hunbound.symm
  · exact hother j hj

/-! ### INSTALL_KEY -/

section
variable {k : Fin 16} {s : State}

theorem exec_installKey_of_bad_length (hlen : s.regs.keyLen ≠ 32#32) :
    exec (.installKey k) s = .next (raise .badArgument s) := by
  change execInstallKey k s = _
  rw [execInstallKey, if_pos (by simpa using hlen)]

theorem exec_installKey_of_no_device (hlen : s.regs.keyLen = 32#32) (hdevice : s.params.devicePresent = false) :
    exec (.installKey k) s = .next (raise .deviceUnavailable (unbindSlot k s)) := by
  change execInstallKey k s = _
  rw [execInstallKey, if_neg (by simp [hlen]), if_pos (by simp [hdevice])]

/-- INSTALL_KEY past the length check and the device lookup (40_session.md R103). -/
theorem exec_installKey_of_device (hlen : s.regs.keyLen = 32#32) (hdevice : s.params.devicePresent = true) :
    exec (.installKey k) s = .next (installAfterInit k (dmaInitDraw s) (afterDmaInitDraw s)) := by
  change execInstallKey k s = _
  rw [execInstallKey, if_neg (by simp [hlen]), if_neg (by simp [hdevice])]

theorem installAfterInit_of_failed (k : Fin 16) (s : State) :
    installAfterInit k false s = raise .deviceInitFailed (unbindSlot k s) := rfl

theorem installAfterInit_of_unadmitted (h : ¬ RangeAdmitted s.params s.regs.keyAddr 32) :
    installAfterInit k true s = raiseBus s.regs.keyAddr (unbindSlot k s) := by
  have hrange : ¬ admitted s.params (keyRange s.regs) = true := mt (admitted_iff _ _).mp h
  rw [installAfterInit, if_neg (by simp), if_pos (by simpa using hrange)]

theorem installAfterInit_of_admitted (h : RangeAdmitted s.params s.regs.keyAddr 32) :
    installAfterInit k true s
      = completeOk (bindSlot k (keyOfBytes (readBytes s.mem s.regs.keyAddr.toNat 32)) s.regs.usage s) := by
  have hrange : admitted s.params (keyRange s.regs) = true := (admitted_iff _ _).mpr h
  rw [installAfterInit, if_neg (by simp), if_neg (by simp [hrange])]
  rfl

theorem bindSlot_setsSlotAlone (k : Fin 16) (key : KeyBits) (u : Word) (s : State) :
    SetsSlotAlone k ⟨true, key, u⟩ .ok 0#32 s (completeOk (bindSlot k key u s)) :=
  complete_setSlot_setsSlotAlone k _ _ _ s

end

/-- Settles O19: the key register holds the 32 bytes that were read. -/
theorem installKeyBinds : Obligations.InstallKeyBinds := by
  intro s k hlen hdevice hinit hadmitted
  have hnext := exec_installKey_of_device (k := k) hlen hdevice
  rw [hinit, installAfterInit_of_admitted (by simpa using hadmitted), afterDmaInitDraw_mem, afterDmaInitDraw_regs] at hnext
  obtain ⟨hcompleted, hframe, hmem, hother, hslot⟩ := (bindSlot_setsSlotAlone k _ _ _).of_afterDmaInitDraw
  refine ⟨_, hnext, hcompleted, hframe, hmem, hother, congrArg Slot.valid hslot, congrArg Slot.usage hslot, ?_⟩
  rw [hslot]
  exact beBytes_keyOfBytes (length_readBytes _ _ _)

/-- Settles O20: each error completes on a slot set to the unbound one, but for BadArgument, which sets none. -/
theorem installKeyErrors : Obligations.InstallKeyErrors := by
  refine fun s k => ⟨fun _ h => execInstallKey_mem h, fun hlen => ?_, fun hlen hdevice => ?_,
    fun hlen hdevice hinit => ?_, fun hlen hdevice hinit hunadmitted => ?_⟩
  · have hnext := exec_installKey_of_bad_length (k := k) hlen
    exact ⟨_, hnext, raise_raised _ _, exec_frame hnext, rfl, fun _ => rfl⟩
  · exact ⟨_, exec_installKey_of_no_device hlen hdevice, complete_setSlot_setsSlotAlone k _ _ _ s⟩
  · have hnext := exec_installKey_of_device (k := k) hlen hdevice
    rw [hinit, installAfterInit_of_failed] at hnext
    exact ⟨_, hnext, (complete_setSlot_setsSlotAlone k _ _ _ _).of_afterDmaInitDraw⟩
  · have hnext := exec_installKey_of_device (k := k) hlen hdevice
    rw [hinit, installAfterInit_of_unadmitted (by simpa using hunadmitted), afterDmaInitDraw_regs] at hnext
    exact ⟨_, hnext, (complete_setSlot_setsSlotAlone k _ _ _ _).of_afterDmaInitDraw⟩

end Sys2Proof.Machine
end

section
/-! What the host can learn of a slot: the AEAD commands read its VALID bit and its key but not its usage tag, and the
register window shows its VALID bit alone (10_state.md R28, R30; 40_session.md R109, R110). -/

namespace Sys2Proof.Machine

/-- The outcome with the next state changed by `f`. -/
def mapNext (f : State → State) : Host.Outcome State Fault Refusal → Host.Outcome State Fault Refusal
  | .next t => .next (f t)
  | .fault r => .fault r
  | .refused r => .refused r

@[simp] theorem mapNext_next (f : State → State) (t : State) : mapNext f (.next t) = .next (f t) := rfl

@[simp] theorem mapNext_refused (f : State → State) (r : Refusal) : mapNext f (.refused r) = .refused r := rfl

/-- The controller uses the IV and the key it was given, not the usage tag (40_session.md R109). -/
theorem hwEnc_congr {e e' : Engine} (hkey : e'.key = e.key) (hiv : e'.iv = e.iv) (p : List Byte) :
    hwEnc e' p = hwEnc e p := by
  simp only [hwEnc, engineJ0, hkey, hiv]

theorem hwDec_congr {e e' : Engine} (hkey : e'.key = e.key) (hiv : e'.iv = e.iv) (c : List Byte) (tag : Block) :
    hwDec e' c tag = hwDec e c tag := by
  simp only [hwDec, engineJ0, hkey, hiv]

/-! `(rfl)` in parentheses makes `simp` rewrite with these three. By plain unfolding the kernel would compare the bytes read
or written, and so evaluate the cipher. -/

theorem readRange_setSlot (k : Fin 16) (x : Slot) (r : Range) (s : State) :
    readRange r (setSlot k x s) = readRange r s := (rfl)

theorem memWrite_setSlot (k : Fin 16) (x : Slot) (a : Word) (bs : List Byte) (s : State) :
    memWrite a bs (setSlot k x s) = setSlot k x (memWrite a bs s) := (rfl)

theorem setTrans_setSlot (k : Fin 16) (x : Slot) (y : Transients) (s : State) :
    setTrans y (setSlot k x s) = setSlot k x (setTrans y s) := (rfl)

theorem complete_setSlot (k : Fin 16) (x : Slot) (code : ErrCode) (fold hwx : Bool) (ghcnt : BitVec 2) (ea : Word)
    (s : State) : complete code fold hwx ghcnt ea (setSlot k x s) = setSlot k x (complete code fold hwx ghcnt ea s) := rfl

theorem loadIv_setSlot (k : Fin 16) (x : Slot) (s : State) : loadIv (setSlot k x s) = setSlot k x (loadIv s) := rfl

theorem afterHangDraw_setSlot (k : Fin 16) (x : Slot) (s : State) :
    afterHangDraw (setSlot k x s) = setSlot k x (afterHangDraw s) := by
  simp only [afterHangDraw, setSlot_draws]
  split <;> rfl

theorem havoc_setSlot (k : Fin 16) (x : Slot) (rs : List Range) (s : State) :
    havoc rs (setSlot k x s) = setSlot k x (havoc rs s) := by
  induction rs generalizing s with
  | nil => rfl
  | cons r rs ih => exact ih (havocRange r s)

theorem hangWith_setSlot (k : Fin 16) (x : Slot) (rs : List Range) (s : State) :
    hangWith rs (setSlot k x s) = setSlot k x (hangWith rs s) := by
  rw [hangWith, havoc_setSlot]
  rfl

section
variable {k : Fin 16} {x : Slot} {s : State}

/-! ### ENCRYPT -/

theorem encHardware_slots (k : Fin 16) (s : State) : (encHardware k s).slots = s.slots := by
  simp only [encHardware, encTransform, memWrite_slots, setTrans_slots]

theorem encGhashTag_slots (k : Fin 16) (s : State) : (encGhashTag k s).slots = s.slots := by
  rw [encGhashTag, memWrite_slots, setTrans_slots]

theorem encTransform_setSlot (hkey : x.key = (slotAt s k).key) :
    encTransform k (setSlot k x s) = setSlot k x (encTransform k s) := by
  have henc := hwEnc_congr (e := engineInit k s) (e' := engineInit k (setSlot k x s))
    (by simp [engineInit, hkey]) rfl
  simp only [encTransform, henc, readRange_setSlot, setSlot_regs, setSlot_trans, setTrans_setSlot]

theorem encHardware_setSlot (hkey : x.key = (slotAt s k).key) :
    encHardware k (setSlot k x s) = setSlot k x (encHardware k s) := by
  rw [encHardware, encTransform_setSlot hkey]
  rfl

theorem encGhashTag_setSlot (hkey : x.key = (slotAt s k).key) :
    encGhashTag k (setSlot k x s) = setSlot k x (encGhashTag k s) := by
  simp only [encGhashTag, slotAt_setSlot_same, hkey, readRange_setSlot, setSlot_regs, setSlot_trans, setTrans_setSlot,
    memWrite_setSlot]

theorem encMaskTag_setSlot (hkey : x.key = (slotAt s k).key) :
    encMaskTag k (setSlot k x s) = setSlot k x (encMaskTag k s) := by
  simp only [encMaskTag, slotAt_setSlot_same, hkey, readRange_setSlot, setSlot_regs, setSlot_trans, setTrans_setSlot,
    memWrite_setSlot]

theorem encFinish_setSlot (hkey : x.key = (slotAt s k).key) :
    encFinish k (setSlot k x s) = setSlot k x (encFinish k s) := by
  have hghash : x.key = (slotAt (encGhashTag k s) k).key := by
    rwa [slotAt_congr (encGhashTag_slots k s)]
  simp only [encFinish, setSlot_regs, encGhashTag_setSlot hkey, encMaskTag_setSlot hghash, ← complete_setSlot,
    apply_ite (setSlot k x)]

theorem encRun_setSlot (hkey : x.key = (slotAt s k).key) :
    encRun k (setSlot k x s) = setSlot k x (encRun k s) := by
  have hload : x.key = (slotAt (loadIv s) k).key := hkey
  have hdraw : x.key = (slotAt (afterHangDraw (loadIv s)) k).key := by
    rwa [slotAt_congr (afterHangDraw_slots _)]
  have hhard : x.key = (slotAt (encHardware k (afterHangDraw (loadIv s))) k).key := by
    rwa [slotAt_congr (encHardware_slots k _)]
  have hhang : hangDraw (setSlot k x (loadIv s)) = hangDraw (loadIv s) := hangDraw_congr rfl
  simp only [encRun, loadIv_setSlot, hhang, setSlot_regs, afterHangDraw_setSlot, hangWith_setSlot,
    encHardware_setSlot hdraw, encFinish_setSlot hhard, encFinish_setSlot hload, apply_ite (setSlot k x)]

theorem encBadArgument_setSlot (hvalid : x.valid = (slotAt s k).valid) :
    encBadArgument k (setSlot k x s) = encBadArgument k s := by
  rw [encBadArgument, slotAt_setSlot_same, hvalid]
  rfl

theorem execEncrypt_setSlot (hvalid : x.valid = (slotAt s k).valid) (hkey : x.key = (slotAt s k).key) :
    execEncrypt k (setSlot k x s) = mapNext (setSlot k x) (execEncrypt k s) := by
  have hscratch : encOutOfMemory (setSlot k x s) = encOutOfMemory s := rfl
  simp only [execEncrypt, encBadArgument_setSlot hvalid, hscratch, setSlot_params, setSlot_regs, encRun_setSlot hkey]
  split
  · rfl
  split
  · rfl
  split
  · rfl
  split
  · rfl
  · rfl

/-! ### DECRYPT -/

theorem decHwTag_setSlot (hkey : x.key = (slotAt s k).key) :
    decHwTag k (setSlot k x s) = setSlot k x (decHwTag k s) := by
  simp only [decHwTag, slotAt_setSlot_same, hkey, readRange_setSlot, setSlot_regs, setSlot_trans, setTrans_setSlot]

theorem decPrepare_setSlot (hkey : x.key = (slotAt s k).key) :
    decPrepare k (setSlot k x s) = setSlot k x (decPrepare k s) := by
  have hload : x.key = (slotAt (loadIv s) k).key := hkey
  simp only [decPrepare, setSlot_regs, loadIv_setSlot, decHwTag_setSlot hload, apply_ite (setSlot k x)]

theorem expectedTag_setSlot (k : Fin 16) (x : Slot) (s : State) : expectedTag (setSlot k x s) = expectedTag s := rfl

theorem decTagForHw_setSlot (k : Fin 16) (x : Slot) (s : State) : decTagForHw (setSlot k x s) = decTagForHw s := rfl

theorem decSoftTag_setSlot (k : Fin 16) (x : Slot) (c : List Byte) (s : State) :
    decSoftTag c (setSlot k x s) = setSlot k x (decSoftTag c s) := rfl

theorem decComplete_setSlot (k : Fin 16) (x : Slot) (code : ErrCode) (s : State) :
    decComplete code (setSlot k x s) = setSlot k x (decComplete code s) := rfl

theorem decAuthFail_setSlot (k : Fin 16) (x : Slot) (s : State) :
    decAuthFail (setSlot k x s) = setSlot k x (decAuthFail s) := rfl

theorem decVerify_setSlot (k : Fin 16) (x : Slot) (c : List Byte) (texp : Block) (r : List Byte × Bool) (s : State) :
    decVerify c texp r (setSlot k x s) = setSlot k x (decVerify c texp r s) := by
  simp only [decVerify, memWrite_setSlot, setSlot_regs, decSoftTag_setSlot, setSlot_trans, decComplete_setSlot,
    decAuthFail_setSlot, apply_ite (setSlot k x)]

theorem decRun_setSlot (hkey : x.key = (slotAt s k).key) :
    decRun k (setSlot k x s) = setSlot k x (decRun k s) := by
  have hprep : x.key = (slotAt (decPrepare k s) k).key := by
    obtain ⟨y, hy⟩ := decPrepare_eq_setTrans k s
    rw [hy]
    exact hkey
  have hhang : hangDraw (setSlot k x (decPrepare k s)) = hangDraw (decPrepare k s) := hangDraw_congr rfl
  have hdec := hwDec_congr (e := engineInit k (decPrepare k s)) (e' := engineInit k (setSlot k x (decPrepare k s)))
    (by simp [engineInit, hprep]) rfl
  simp only [decRun, decPrepare_setSlot hkey, hhang, hdec, readRange_setSlot, setSlot_regs, expectedTag_setSlot,
    decTagForHw_setSlot, afterHangDraw_setSlot, hangWith_setSlot, decVerify_setSlot, apply_ite (setSlot k x)]

theorem decBadArgument_setSlot (hvalid : x.valid = (slotAt s k).valid) :
    decBadArgument k (setSlot k x s) = decBadArgument k s := by
  rw [decBadArgument, slotAt_setSlot_same, hvalid]
  rfl

theorem execDecrypt_setSlot (hvalid : x.valid = (slotAt s k).valid) (hkey : x.key = (slotAt s k).key) :
    execDecrypt k (setSlot k x s) = mapNext (setSlot k x) (execDecrypt k s) := by
  simp only [execDecrypt, decBadArgument_setSlot hvalid, setSlot_params, setSlot_regs, decRun_setSlot hkey]
  split
  · rfl
  split
  · rfl
  split
  · rfl
  · rfl

end

/-- An AEAD command reads its slot's VALID bit and key alone, and leaves the slot as it was. -/
theorem exec_aead_setSlot {i : Instr} {k : Fin 16} {x : Slot} {s : State} (hi : i = .encrypt k ∨ i = .decrypt k)
    (hvalid : x.valid = (slotAt s k).valid) (hkey : x.key = (slotAt s k).key) :
    exec i (setSlot k x s) = mapNext (setSlot k x) (exec i s) := by
  obtain rfl | rfl := hi
  · exact execEncrypt_setSlot hvalid hkey
  · exact execDecrypt_setSlot hvalid hkey

/-- Settles O44: the slot with another usage tag has the VALID bit and the key that the command reads. -/
theorem usageTagChangesNothing : Obligations.UsageTagChangesNothing := by
  intro s k v i hi
  rw [exec_aead_setSlot (x := { slotAt s k with usage := v }) hi rfl rfl]
  refine ⟨fun t h => ?_, fun r h => ?_⟩
  · rw [h, mapNext_next]
  · rw [h, mapNext_refused]

/-! ### The register window -/

theorem slotAt_setSlot_valid {k : Fin 16} {x : Slot} {s : State} (hvalid : x.valid = (slotAt s k).valid) (j : Fin 16) :
    (slotAt (setSlot k x s) j).valid = (slotAt s j).valid := by
  by_cases hj : j = k
  · subst hj
    rw [slotAt_setSlot_same, hvalid]
  · rw [slotAt_setSlot_other x s hj]

theorem slotState_setSlot {k : Fin 16} {x : Slot} {s : State} (hvalid : x.valid = (slotAt s k).valid) :
    slotState (setSlot k x s) = slotState s := by
  rw [slotState, slotState]
  congr 1
  funext j
  rw [slotAt_setSlot_valid hvalid, setSlot_params]

theorem readWindow_setTrans (off : BitVec 8) (x : Transients) (s : State) :
    readWindow off (setTrans x s) = readWindow off s := rfl

/-- Of a slot the window shows SLOT_STATE, its VALID bit. -/
theorem readWindow_setSlot {k : Fin 16} {x : Slot} {s : State} (hvalid : x.valid = (slotAt s k).valid) (off : BitVec 8) :
    readWindow off (setSlot k x s) = readWindow off s := by
  simp only [readWindow, slotState_setSlot hvalid, setSlot_status, setSlot_errAddr, setSlot_regs]

/-- Settles O45: no offset shows a transient, and of a slot only the VALID bit shows. -/
theorem keysAreNotReadable : Obligations.KeysAreNotReadable := by
  intro s k key u x off
  rw [readWindow_setTrans]
  exact readWindow_setSlot (x := ⟨(slotAt s k).valid, key, u⟩) rfl off

end Sys2Proof.Machine
end

section
/-! The product of GF(2^128) (41_primitives.md R131). -/

namespace Sys2Proof.Machine

theorem gf128Shift_def (v : Block) : gf128Shift v = if v.getLsbD 0 then (v >>> 1) ^^^ ghashR else v >>> 1 := rfl

@[simp] theorem gf128Shift_zero : gf128Shift 0#128 = 0#128 := by decide

theorem gf128Shift_eq (v : Block) : gf128Shift v = (v >>> 1) ^^^ (if v.getLsbD 0 then ghashR else 0#128) := by
  rw [gf128Shift_def]
  split
  · rfl
  · rw [BitVec.xor_zero]

theorem gf128Shift_xor (v w : Block) : gf128Shift (v ^^^ w) = gf128Shift v ^^^ gf128Shift w := by
  have hcarry : ∀ b c : Bool, (if b ^^ c then ghashR else 0#128)
      = (if b then ghashR else 0#128) ^^^ (if c then ghashR else 0#128) := by decide
  rw [gf128Shift_eq, gf128Shift_eq, gf128Shift_eq, BitVec.getLsbD_xor, BitVec.ushiftRight_xor_distrib, hcarry]
  ac_rfl

/-- A power of two above 1 loses no bit. -/
theorem gf128Shift_twoPow {n : Nat} (h : n + 1 < 128) :
    gf128Shift (BitVec.twoPow 128 (n + 1)) = BitVec.twoPow 128 n := by
  rw [gf128Shift_def, if_neg (by simp)]
  ext i hi
  simp only [BitVec.getElem_ushiftRight, BitVec.getLsbD_twoPow, BitVec.getElem_twoPow, h, decide_true, Bool.true_and,
    decide_eq_decide]
  omega

theorem gf128Loop_zero (x z v : Block) : gf128Loop x 0 z v = z := rfl

theorem gf128Loop_succ (x : Block) (n : Nat) (z v : Block) :
    gf128Loop x (n + 1) z v = gf128Loop x n (if x.getLsbD n then z ^^^ v else z) (gf128Shift v) := rfl

/-- The loop is additive in the pair it carries. -/
theorem gf128Loop_xor (x : Block) (n : Nat) (z z' v v' : Block) :
    gf128Loop x n (z ^^^ z') (v ^^^ v') = gf128Loop x n z v ^^^ gf128Loop x n z' v' := by
  induction n generalizing z z' v v' with
  | zero => rfl
  | succ n ih =>
    have hz : (if x.getLsbD n then (z ^^^ z') ^^^ (v ^^^ v') else z ^^^ z')
        = (if x.getLsbD n then z ^^^ v else z) ^^^ (if x.getLsbD n then z' ^^^ v' else z') := by
      split
      · ac_rfl
      · rfl
    rw [gf128Loop_succ, hz, gf128Shift_xor, ih, gf128Loop_succ, gf128Loop_succ]

/-- An additive map that commutes with one shift commutes with the loop, which is made of the two. -/
theorem map_gf128Loop {f : Block → Block} (hadd : ∀ v w, f (v ^^^ w) = f v ^^^ f w)
    (hshift : ∀ v, f (gf128Shift v) = gf128Shift (f v)) (x : Block) (n : Nat) (z v : Block) :
    f (gf128Loop x n z v) = gf128Loop x n (f z) (f v) := by
  induction n generalizing z v with
  | zero => rfl
  | succ n ih => rw [gf128Loop_succ, ih, hshift, apply_ite f, hadd, gf128Loop_succ]

theorem gf128Mul_def (x y : Block) : gf128Mul x y = gf128Loop x 128 0#128 y := rfl

theorem gf128Loop_zero_left (n : Nat) (z v : Block) : gf128Loop 0#128 n z v = z := by
  induction n generalizing v with
  | zero => rfl
  | succ n ih => rw [gf128Loop_succ, BitVec.getLsbD_zero, if_neg Bool.false_ne_true, ih]

@[simp] theorem gf128Mul_zero_left (y : Block) : gf128Mul 0#128 y = 0#128 := gf128Loop_zero_left 128 _ y

theorem gf128Mul_xor_right (x v w : Block) : gf128Mul x (v ^^^ w) = gf128Mul x v ^^^ gf128Mul x w :=
  gf128Loop_xor x 128 0#128 0#128 v w

theorem gf128Mul_shift_right (x v : Block) : gf128Mul x (gf128Shift v) = gf128Shift (gf128Mul x v) := by
  rw [gf128Mul_def, gf128Mul_def, map_gf128Loop gf128Shift_xor (fun _ => rfl), gf128Shift_zero]

/-- Two products with fixed left factors commute with each other. -/
theorem gf128Mul_left_comm (x y v : Block) : gf128Mul x (gf128Mul y v) = gf128Mul y (gf128Mul x v) := by
  have hzero : gf128Mul x 0#128 = 0#128 := by
    rw [← BitVec.xor_self (x := 0#128), gf128Mul_xor_right, BitVec.xor_self, BitVec.xor_self]
  rw [gf128Mul_def y v, map_gf128Loop (gf128Mul_xor_right x) (gf128Mul_shift_right x), hzero, ← gf128Mul_def]

/-- One iteration with V = 2^n adds bit `n` of `x`. -/
theorem getLsbD_xor_twoPow_of_bit (x z : Block) {n : Nat} (hn : n < 128) (i : Nat) :
    (if x.getLsbD n then z ^^^ BitVec.twoPow 128 n else z).getLsbD i
      = (z.getLsbD i ^^ (decide (i = n) && x.getLsbD i)) := by
  by_cases hi : i = n
  · subst hi
    cases h : x.getLsbD i <;> simp [hn]
  · split <;> simp [hi, Ne.symm hi]

/-- From V = 2^n on, with `n + 1` iterations to go, the loop adds the bits of `x` up to bit `n`. -/
theorem getLsbD_gf128Loop_twoPow (x z : Block) {n : Nat} (hn : n < 128) (i : Nat) :
    (gf128Loop x (n + 1) z (BitVec.twoPow 128 n)).getLsbD i = (z.getLsbD i ^^ (decide (i ≤ n) && x.getLsbD i)) := by
  induction n generalizing z with
  | zero => simp only [gf128Loop_succ, gf128Loop_zero, getLsbD_xor_twoPow_of_bit x z hn, Nat.le_zero]
  | succ n ih =>
    rw [gf128Loop_succ, gf128Shift_twoPow hn, ih _ (by omega), getLsbD_xor_twoPow_of_bit x z hn, Bool.xor_assoc]
    congr 1
    by_cases hi : i = n + 1
    · simp [hi]
    · have hle : i ≤ n + 1 ↔ i ≤ n := by omega
      simp [hi, hle]

/-- The block 80 00 … 00 is the element 1. -/
theorem gf128Mul_one (x : Block) : gf128Mul x (BitVec.twoPow 128 127) = x := by
  apply BitVec.eq_of_getLsbD_eq
  intro i hi
  have hle : i ≤ 127 := by omega
  rw [gf128Mul_def, getLsbD_gf128Loop_twoPow x _ (by decide)]
  simp [hle]

theorem gf128Mul_comm (x y : Block) : gf128Mul x y = gf128Mul y x := by
  calc gf128Mul x y = gf128Mul x (gf128Mul y (BitVec.twoPow 128 127)) := by rw [gf128Mul_one]
    _ = gf128Mul y (gf128Mul x (BitVec.twoPow 128 127)) := gf128Mul_left_comm x y _
    _ = gf128Mul y x := by rw [gf128Mul_one]

/-- Multiplication by x^1 is one shift. -/
theorem gf128Mul_x (y : Block) : gf128Mul 0x40000000000000000000000000000000#128 y = gf128Shift y := by
  have hx : 0x40000000000000000000000000000000#128 = gf128Shift (BitVec.twoPow 128 127) := by decide
  rw [hx, gf128Mul_comm, gf128Mul_shift_right, gf128Mul_one]

/-- Settles O38: two products with fixed left factors commute, every block is its own product with 1, and x^1 • x^127 is
the one shift that carries out. -/
theorem fieldProductLaws : Obligations.FieldProductLaws := by
  refine ⟨fun x => ⟨?_, gf128Mul_one x⟩, ?_, gf128Mul_comm⟩
  · rw [gf128Mul_comm, gf128Mul_zero_left]
  · rw [gf128Mul_x]
    decide

end Sys2Proof.Machine
end

section
/-! The comparator (41_primitives.md R138). -/

namespace Sys2Proof.Machine

theorem ctEqLoop_zero (a b : Block) (i : Nat) (d : Byte) : ctEqLoop a b 0 i d = d := rfl

theorem ctEqLoop_succ (a b : Block) (n i : Nat) (d : Byte) :
    ctEqLoop a b (n + 1) i d = ctEqLoop a b n (i + 1) (d ||| (blockByte a i ^^^ blockByte b i)) := rfl

/-- The loop ends with 0 iff no difference was ORed in. -/
theorem ctEqLoop_eq_zero_iff (a b : Block) (n i : Nat) (d : Byte) :
    ctEqLoop a b n i d = 0#8 ↔ d = 0#8 ∧ ∀ j < n, blockByte a (i + j) = blockByte b (i + j) := by
  induction n generalizing i d with
  | zero => simp [ctEqLoop_zero]
  | succ n ih =>
    rw [ctEqLoop_succ, ih, BitVec.or_eq_zero_iff, BitVec.xor_eq_zero_iff, and_assoc, Nat.forall_lt_succ_left]
    simp only [Nat.add_zero, Nat.add_assoc, Nat.add_comm 1]

theorem eq_of_blockByte_eq {a b : Block} (h : ∀ i < 16, blockByte a i = blockByte b i) : a = b := by
  apply blockBytes_injective
  apply List.ext_getElem (by simp)
  intro i hi _
  rw [getElem_blockBytes, getElem_blockBytes, h i (by simpa using hi)]

theorem ctEq16_def (a b : Block) : ctEq16 a b = (ctEqLoop a b 16 0 0#8 == 0#8) := rfl

theorem ctEq16_iff (a b : Block) : ctEq16 a b = true ↔ a = b := by
  rw [ctEq16_def, beq_iff_eq, ctEqLoop_eq_zero_iff]
  constructor
  · rintro ⟨-, h⟩
    exact eq_of_blockByte_eq fun i hi => by simpa using h i hi
  · rintro rfl
    simp

/-- Settles O40: no difference in any of the sixteen bytes. -/
theorem comparatorIsEquality : Obligations.ComparatorIsEquality := ctEq16_iff

end Sys2Proof.Machine
end

section
/-! The GHASH input and GHASH (41_primitives.md R132, R133; 42_ctr_controller.md R156). -/

namespace Sys2Proof.Machine

theorem add_padLen (n : Nat) : n + padLen n = (n + 15) / 16 * 16 := by
  have hdef : padLen n = (16 - n % 16) % 16 := rfl
  omega

/-- A string with its zero padding up to a multiple of 16 bytes. -/
def padded (l : List Byte) : List Byte := l ++ List.replicate (padLen l.length) 0#8

theorem padded_eq (l : List Byte) : padded l = l ++ List.replicate (padLen l.length) 0#8 := rfl

@[simp] theorem length_padded (l : List Byte) : (padded l).length = (l.length + 15) / 16 * 16 := by
  rw [padded_eq, List.length_append, List.length_replicate, add_padLen]

theorem getElem?_padded {l : List Byte} {i : Nat} (hi : l.length ≤ i) (hlt : i < (padded l).length) :
    (padded l)[i]? = some 0#8 := by
  rw [padded_eq, List.length_append, List.length_replicate] at hlt
  rw [padded_eq, List.getElem?_append_right hi, List.getElem?_replicate, if_pos (by omega)]

/-- M is the two padded strings and the length block. -/
theorem ghashInput_eq (a c : List Byte) :
    ghashInput a c = padded a ++ (padded c ++ (beBytes 8 (8 * a.length) ++ beBytes 8 (8 * c.length))) := by
  have hdef : ghashInput a c = padded a ++ c ++ List.replicate (padLen c.length) 0#8
      ++ beBytes 8 (8 * a.length) ++ beBytes 8 (8 * c.length) := rfl
  rw [hdef, padded_eq c]
  simp only [List.append_assoc]

theorem length_ghashInput (a c : List Byte) :
    (ghashInput a c).length = (padded a).length + (padded c).length + 16 := by
  simp only [ghashInput_eq, List.length_append, length_beBytes]
  omega

theorem ghashInput_take (a c : List Byte) : (ghashInput a c).take a.length = a := by
  rw [ghashInput_eq, padded_eq, List.append_assoc, List.take_left]

theorem ghashInput_drop (a c : List Byte) : (ghashInput a c).drop (padded a).length
    = padded c ++ (beBytes 8 (8 * a.length) ++ beBytes 8 (8 * c.length)) := by
  rw [ghashInput_eq, List.drop_left]

theorem beNat_beBytes_bitLength {n : Nat} (h : n < 2 ^ 32) : beNat (beBytes 8 (8 * n)) = 8 * n :=
  beNat_beBytes 8 _ (by omega)

/-- R132, the parts of M at their offsets. -/
theorem ghashInput_layout (a c : List Byte) :
    (ghashInput a c).length = (padded a).length + (padded c).length + 16
    ∧ (ghashInput a c).take a.length = a
    ∧ (∀ i, a.length ≤ i → i < (padded a).length → (ghashInput a c)[i]? = some 0#8)
    ∧ ((ghashInput a c).drop (padded a).length).take c.length = c
    ∧ (∀ i, (padded a).length + c.length ≤ i → i < (padded a).length + (padded c).length →
        (ghashInput a c)[i]? = some 0#8)
    ∧ (ghashInput a c).drop ((padded a).length + (padded c).length)
        = beBytes 8 (8 * a.length) ++ beBytes 8 (8 * c.length) := by
  refine ⟨length_ghashInput a c, ghashInput_take a c, fun i hi hlt => ?_, ?_, fun i hi hlt => ?_, ?_⟩
  · rw [ghashInput_eq, List.getElem?_append_left hlt, getElem?_padded hi hlt]
  · rw [ghashInput_drop, padded_eq, List.append_assoc, List.take_left]
  · rw [ghashInput_eq, List.getElem?_append_right (by omega), List.getElem?_append_left (by omega),
      getElem?_padded (by omega) (by omega)]
  · rw [← List.drop_drop, ghashInput_drop, List.drop_left]

@[simp] theorem length_blocksOf (m : List Byte) : (blocksOf m).length = m.length / 16 :=
  (List.length_map _).trans List.length_range

theorem getElem_blocksOf {m : List Byte} {i : Nat} (hi : i < (blocksOf m).length) :
    (blocksOf m)[i] = blockOfBytes ((m.drop (16 * i)).take 16) := by
  have hdef : blocksOf m = (List.range (m.length / 16)).map fun i => blockOfBytes ((m.drop (16 * i)).take 16) := rfl
  simp only [hdef, List.getElem_map, List.getElem_range]

theorem ghashStep_def (h y b : Block) : ghashStep h y b = gf128Mul (y ^^^ b) h := rfl

/-- Y_i of R133: the fold over the first `i` blocks of M. -/
def ghashPartial (h : Block) (m : List Byte) (i : Nat) : Block := ((blocksOf m).take i).foldl (ghashStep h) 0#128

theorem ghashPartial_succ (h : Block) {m : List Byte} {i : Nat} (hi : i < m.length / 16) :
    ghashPartial h m (i + 1)
      = gf128Mul (ghashPartial h m i ^^^ blockOfBytes ((m.drop (16 * i)).take 16)) h := by
  have hlen : i < (blocksOf m).length := by rwa [length_blocksOf]
  calc ghashPartial h m (i + 1)
      = ((blocksOf m).take i ++ [(blocksOf m)[i]]).foldl (ghashStep h) 0#128 := by
        rw [← List.take_succ_eq_append_getElem hlen]
        rfl
    _ = ghashStep h (ghashPartial h m i) (blocksOf m)[i] := List.foldl_concat _ _ _ _
    _ = _ := by rw [getElem_blocksOf, ghashStep_def]

theorem ghash_eq_ghashPartial (h : Block) (a c : List Byte) :
    ghash h a c = ghashPartial h (ghashInput a c) ((ghashInput a c).length / 16) := by
  have hall : (blocksOf (ghashInput a c)).take ((ghashInput a c).length / 16) = blocksOf (ghashInput a c) :=
    List.take_of_length_le (length_blocksOf _).le
  exact (congrArg (List.foldl (ghashStep h) 0#128) hall).symm

/-- M consists of whole blocks. -/
theorem block_of_lt_length {a c : List Byte} {i : Nat} (hi : 16 * i < (ghashInput a c).length) :
    i < (ghashInput a c).length / 16 := by
  simp only [length_ghashInput, length_padded] at *
  omega

/-- The length block of two empty strings is zero, and 0 • H = 0. -/
@[simp] theorem ghash_nil (h : Block) : ghash h [] [] = 0#128 := by
  have hblocks : blocksOf (ghashInput [] []) = [0#128] := by decide
  calc ghash h [] [] = [0#128].foldl (ghashStep h) 0#128 := congrArg (List.foldl (ghashStep h) 0#128) hblocks
    _ = ghashStep h 0#128 0#128 := by rw [List.foldl_cons, List.foldl_nil]
    _ = 0#128 := by rw [ghashStep_def, BitVec.xor_self, gf128Mul_zero_left]

/-- CTR_TAG over the empty string is the tag mask. -/
@[simp] theorem ctrTag_nil (k : KeyBits) (j0 : Block) : ctrTag k j0 [] = aes k j0 := by
  calc ctrTag k j0 [] = ghash (hashSubkey k) [] [] ^^^ aes k j0 := rfl
    _ = aes k j0 := by rw [ghash_nil, BitVec.zero_xor]

theorem hwEnc_nil (e : Engine) : hwEnc e [] = blockBytes (aes e.key (j0Of e.iv)) := by
  calc hwEnc e [] = blockBytes (ctrTag e.key (j0Of e.iv) []) := rfl
    _ = blockBytes (aes e.key (j0Of e.iv)) := by rw [ctrTag_nil]

theorem hwDec_nil (e : Engine) (t : Block) : hwDec e [] t = ([], ctEq16 (aes e.key (j0Of e.iv)) t) := by
  calc hwDec e [] t = ([], ctEq16 (ctrTag e.key (j0Of e.iv) []) t) := rfl
    _ = ([], ctEq16 (aes e.key (j0Of e.iv)) t) := by rw [ctrTag_nil]

set_option maxRecDepth 2000 in
/-- G_c of S3 (95_test_vectors.md 2.2). The evaluation nests through the blocks. -/
theorem ghash_s3_cipher : ghash 0xacbef20579b4b8ebce889bac8732dad7#128 [] (beBytes 60 0x522dc1f099567d07f47f37a32a84427d643a8cdcbfe5c0c97598a2bd2555d1aa8cb08e48590dbb3da7b08b1056828838c5f61e6393ba7a0abcc9f662)
    = 0x16b3d37a28b641b5b0971f9c1887b531#128 := by decide

set_option maxRecDepth 2000 in
/-- G_f of S3 (95_test_vectors.md 2.2). -/
theorem ghash_s3_full : ghash 0xacbef20579b4b8ebce889bac8732dad7#128
      (beBytes 20 0xfeedfacedeadbeeffeedfacedeadbeefabaddad2)
      (beBytes 60 0x522dc1f099567d07f47f37a32a84427d643a8cdcbfe5c0c97598a2bd2555d1aa8cb08e48590dbb3da7b08b1056828838c5f61e6393ba7a0abcc9f662)
    = 0x8bd0c4d8aacd391e67cca447e8c38f65#128 := by decide

/-- Settles O39: the layout of M, the partial folds of GHASH, evaluation on S3, and the units on the empty string. -/
theorem ghashInputAndCorners : Obligations.GhashInputAndCorners := by
  refine ⟨?_, fun h a c => ?_, ghash_nil, ghash_s3_cipher, ghash_s3_full, fun e => ⟨hwEnc_nil e, hwDec_nil e⟩⟩
  · rintro a c p q rfl rfl
    rw [← length_padded a, ← length_padded c]
    obtain ⟨hlen, hA, hApad, hC, hCpad, hlast⟩ := ghashInput_layout a c
    exact ⟨hlen, hA, hApad, hC, hCpad, fun ha hc => ⟨hlast, beNat_beBytes_bitLength ha, beNat_beBytes_bitLength hc⟩⟩
  · exact ⟨ghashPartial h (ghashInput a c), rfl, fun i hi => ghashPartial_succ h (block_of_lt_length hi),
      ghash_eq_ghashPartial h a c⟩

end Sys2Proof.Machine
end

section
/-! AES-256 and its S-box (41_primitives.md R122 to R127). -/

namespace Sys2Proof.Machine

/-- `xtime` on numbers below 256. -/
def xtimeNat (b : Nat) : Nat := 2 * b % 256 ^^^ b / 128 * 27

/-- `gmulUpTo` on numbers below 256: all its operations are arithmetic, so that a product of two numbers is quick to
evaluate. -/
def gmulUpToNat : Nat → Nat → Nat → Nat
  | 0, _, _ => 0
  | n + 1, a, b => a % 2 * b ^^^ gmulUpToNat n (a / 2) (xtimeNat b)

theorem toNat_xtime (b : Byte) : (xtime b).toNat = xtimeNat b.toNat := by
  have hdef : xtime b = (b <<< 1) ^^^ (if b.msb then 0x1B#8 else 0#8) := rfl
  have hshift : (b <<< 1).toNat = 2 * b.toNat % 256 := by
    rw [BitVec.toNat_shiftLeft, Nat.shiftLeft_eq, Nat.mul_comm]
  have hcarry : (if b.msb then 0x1B#8 else 0#8).toNat = b.toNat / 128 * 27 := by
    have hlt := b.isLt
    rw [BitVec.msb_eq_decide]
    by_cases h : 128 ≤ b.toNat
    · have hhigh : b.toNat / 128 = 1 := by omega
      simp [h, hhigh]
    · have hlow : b.toNat / 128 = 0 := by omega
      simp [h, hlow]
  rw [hdef, BitVec.toNat_xor, hshift, hcarry, xtimeNat]

theorem gmulUpTo_succ (n : Nat) (a b : Byte) :
    gmulUpTo (n + 1) a b = (if a.getLsbD 0 then b else 0#8) ^^^ gmulUpTo n (a >>> 1) (xtime b) := rfl

theorem toNat_gmulUpTo (n : Nat) (a b : Byte) : (gmulUpTo n a b).toNat = gmulUpToNat n a.toNat b.toNat := by
  induction n generalizing a b with
  | zero => rfl
  | succ n ih =>
    have hbit : (if a.getLsbD 0 then b else 0#8).toNat = a.toNat % 2 * b.toNat := by
      rw [BitVec.getLsbD, Nat.testBit_zero]
      obtain h | h := Nat.mod_two_eq_zero_or_one a.toNat <;> simp [h]
    rw [gmulUpTo_succ, BitVec.toNat_xor, hbit, ih, BitVec.toNat_ushiftRight, toNat_xtime, Nat.shiftRight_one]
    rfl

/-- The affine map of R123, from the inverse of a byte to its S-box entry. -/
def sboxAffine (b : Byte) : Byte :=
  b ^^^ b.rotateLeft 1 ^^^ b.rotateLeft 2 ^^^ b.rotateLeft 3 ^^^ b.rotateLeft 4 ^^^ 0x63#8

/-- The affine map undone. -/
def sboxAffineInv (s : Byte) : Byte := s.rotateLeft 1 ^^^ s.rotateLeft 3 ^^^ s.rotateLeft 6 ^^^ 0x05#8

theorem byte_eq_append_nibbles (a : Byte) : a = a.extractLsb' 4 4 ++ a.extractLsb' 0 4 := by
  rw [BitVec.extractLsb'_append_extractLsb'_eq_extractLsb' (by decide)]
  exact BitVec.extractLsb'_eq_self.symm

theorem sboxAffine_sboxAffineInv (s : Byte) : sboxAffine (sboxAffineInv s) = s := by
  have hnibbles : ∀ h l : BitVec 4, sboxAffine (sboxAffineInv (h ++ l)) = h ++ l := by decide
  rw [byte_eq_append_nibbles s]
  exact hnibbles _ _

/-- Each entry of the table, the affine map undone, is the inverse of its index, or 0 at index 0. -/
theorem sboxAffineInv_sbox_isInverse (a : Byte) :
    gmul a (sboxAffineInv (sbox a)) = 1#8 ∨ (a = 0#8 ∧ sboxAffineInv (sbox a) = 0#8) := by
  have htable : ∀ row < 16, ∀ column < 16,
      gmulUpToNat 8 (16 * row + column) (sboxAffineInv (sbox (BitVec.ofNat 8 (16 * row + column)))).toNat = 1
        ∨ (16 * row + column = 0 ∧ sboxAffineInv (sbox 0#8) = 0#8) := by decide
  have hentry := htable (a.toNat / 16) (by have := a.isLt; omega) (a.toNat % 16) (Nat.mod_lt _ (by decide))
  rw [Nat.div_add_mod, BitVec.ofNat_toNat, BitVec.setWidth_eq, ← toNat_gmulUpTo] at hentry
  obtain hone | ⟨hzero, hinv⟩ := hentry
  · exact .inl (BitVec.eq_of_toNat_eq hone)
  · obtain rfl : a = 0#8 := BitVec.eq_of_toNat_eq hzero
    exact .inr ⟨rfl, hinv⟩

set_option maxRecDepth 8000 in
/-- The check value of FIPS-197 appendix C.3, which R127 gives. The evaluation nests through all the rounds. -/
theorem aes_fips197 :
    aes 0x000102030405060708090a0b0c0d0e0f101112131415161718191a1b1c1d1e1f#256 0x00112233445566778899aabbccddeeff#128
      = 0x8ea2b7ca516745bfeafc49904b496089#128 := by decide

set_option maxRecDepth 8000 in
/-- The hash subkey of the zero key (R127, R129). -/
theorem aes_zero : aes 0#256 0#128 = 0xdc95c078a2408989ad48a21492842087#128 := by decide

/-- The last word of the key schedule of R127's key (95_test_vectors.md). -/
theorem keySchedule_fips197_last :
    (keySchedule 0x000102030405060708090a0b0c0d0e0f101112131415161718191a1b1c1d1e1f#256).getD 59 0#32
      = 0x6d68de36#32 := by decide

/-- Settles O37: the known answers by evaluation; the inverse of a byte is read off its S-box entry. -/
theorem aesKnownAnswers : Obligations.AesKnownAnswers :=
  ⟨aes_fips197, aes_zero, keySchedule_fips197_last, fun a =>
    ⟨sboxAffineInv (sbox a), sboxAffineInv_sbox_isInverse a, (sboxAffine_sboxAffineInv (sbox a)).symm⟩⟩

end Sys2Proof.Machine
end

section
/-! The controller's counter blocks and keystream (42_ctr_controller.md R150, R151). -/

namespace Sys2Proof.Machine

theorem counterBlock_zero (j0 : Block) : counterBlock j0 0 = j0 := rfl

theorem counterBlock_succ (j0 : Block) (i : Nat) : counterBlock j0 (i + 1) = inc32 (counterBlock j0 i) := rfl

/-- The increment reaches the last 4 bytes alone (41_primitives.md R136). -/
theorem inc32_append (iv : IvBits) (w : Word) : inc32 (iv ++ w : BitVec (96 + 32)) = iv ++ (w + 1#32) := by
  rw [inc32, BitVec.extractLsb'_append_eq_left, BitVec.extractLsb'_append_eq_right]

/-- R150's closed form: the IV, then the counter, which starts at 1. -/
theorem counterBlock_j0Of (iv : IvBits) (i : Nat) : counterBlock (j0Of iv) i = iv ++ BitVec.ofNat 32 (i + 1) := by
  induction i with
  | zero => rfl
  | succ i ih => rw [counterBlock_succ, ih, inc32_append, BitVec.ofNat_add (i + 1) 1]

/-- Settles O41: the recurrence is the definition, and the two examples are the closed form at 1 and at 4. -/
theorem counterSequence : Obligations.CounterSequence := by
  refine ⟨fun j => ⟨counterBlock_zero j, counterBlock_succ j⟩, counterBlock_j0Of, ?_, ?_⟩
  · rw [counterBlock_j0Of]
    rfl
  · rw [counterBlock_j0Of]
    rfl

theorem keystream_succ (k : KeyBits) (j0 : Block) (n : Nat) :
    keystream k j0 (n + 1) = keystream k j0 n ++ blockBytes (aes k (counterBlock j0 (n + 1))) := by
  rw [keystream, List.range_succ, List.flatMap_append, List.flatMap_singleton, keystream]

/-- Byte `j` of the keystream is byte `j % 16` of the encrypted counter block of its data block. -/
theorem getElem_keystream (k : KeyBits) (j0 : Block) (n j : Nat) (h : j < (keystream k j0 n).length) :
    (keystream k j0 n)[j] = blockByte (aes k (counterBlock j0 (j / 16 + 1))) (j % 16) := by
  induction n with
  | zero => simp at h
  | succ n ih =>
    rw [length_keystream] at h
    simp only [keystream_succ]
    by_cases hj : j < 16 * n
    · rw [List.getElem_append_left (by simpa using hj), ih]
    · obtain ⟨i, rfl⟩ : ∃ i, j = 16 * n + i := ⟨j - 16 * n, by omega⟩
      have hdiv : (16 * n + i) / 16 = n := by omega
      have hmod : (16 * n + i) % 16 = i := by omega
      rw [List.getElem_append_right (by simp), getElem_blockBytes, hdiv, hmod, length_keystream, Nat.add_sub_cancel_left]

/-- Settles O42: the blocks of the keystream cover the string. -/
theorem keystreamBytewise : Obligations.KeystreamBytewise := by
  refine fun k j0 x => ⟨length_ctrXform k j0 x, fun j hj => ?_⟩
  have hout : j < (ctrXform k j0 x).length := by rwa [length_ctrXform]
  rw [List.getD_eq_getElem _ _ hj, List.getD_eq_getElem _ _ hout]
  simp only [ctrXform, xorBytes, List.getElem_zipWith, getElem_keystream]

/-! ### The laws of the transform (R159) -/

/-- Both directions use the keystream of the same length. -/
theorem ctrXform_ctrXform (k : KeyBits) (j0 : Block) (x : List Byte) : ctrXform k j0 (ctrXform k j0 x) = x := by
  have hcover : x.length ≤ (keystream k j0 ((x.length + 15) / 16)).length := by
    rw [length_keystream]
    omega
  rw [ctrXform, length_ctrXform, ctrXform, xorBytes_xorBytes _ _ hcover]

theorem hwDec_snd_iff (e : Engine) (c : List Byte) (t : Block) :
    (hwDec e c t).2 = true ↔ ctrTag e.key (engineJ0 e) c = t := ctEq16_iff _ t

theorem hwDec_ctrTag (e : Engine) (c : List Byte) : (hwDec e c (ctrTag e.key (engineJ0 e) c)).2 = true :=
  (hwDec_snd_iff e c _).mpr rfl

theorem hwDec_hwEnc (e : Engine) (p : List Byte) :
    hwDec e ((hwEnc e p).take p.length) (blockOfBytes ((hwEnc e p).drop p.length)) = (p, true) := by
  rw [hwEnc_take, hwEnc_drop, blockOfBytes_blockBytes]
  exact Prod.ext (ctrXform_ctrXform e.key (engineJ0 e) p) (hwDec_ctrTag e _)

/-- Settles O43: the keystream cancels, and the comparator is equality. -/
theorem transformLaws : Obligations.TransformLaws := ⟨ctrXform_ctrXform, hwDec_ctrTag, hwDec_hwEnc⟩

end Sys2Proof.Machine
end

section
/-! The hang of a transform (42_ctr_controller.md R158; 60_exceptions.md R222). -/

namespace Sys2Proof.Machine

/-- A hang sets HUNG and BUSY and leaves the other fields of STATUS and ERR_ADDR as Exec found them. -/
theorem hangWith_control {s u : State} (h : SameControl s u) (rs : List Range) :
    (hangWith rs u).hung = true ∧ (hangWith rs u).status = { s.status with busy := true }
      ∧ (hangWith rs u).errAddr = s.errAddr := by
  obtain ⟨hstatus, herrAddr, -⟩ := h
  rw [hangWith_hung, hangWith_status, hangWith_errAddr, hstatus, herrAddr]
  exact ⟨rfl, rfl, rfl⟩

/-- ENCRYPT on the hardware path when the draw says that the transform hangs. -/
theorem encRun_of_hang {k : Fin 16} {s : State} (hhw : EncHw s.regs) (hhang : hangDraw s = true) :
    encRun k s = hangWith [dstRange s.regs, tagOutRange s.regs] (afterHangDraw (loadIv s)) := by
  obtain ⟨-, -, hang⟩ | ⟨-, completes, -⟩ | ⟨noHardware, -⟩ := encRun_cases k s
  · exact hang
  · exact absurd hhang (by simp [completes])
  · exact absurd hhw noHardware

/-- DECRYPT when the draw says that the transform hangs; it has written transients before. -/
theorem decRun_of_hang {k : Fin 16} {s : State} (hhang : hangDraw s = true) :
    ∃ x, decRun k s = hangWith [dstRange s.regs] (afterHangDraw (setTrans x s)) := by
  obtain ⟨x, -, ⟨-, hang⟩ | ⟨completes, -⟩⟩ := decRun_cases k s
  · exact ⟨x, hang⟩
  · exact absurd hhang (by simp [completes])

theorem encRun_hang_control {k : Fin 16} {s : State} (hhw : EncHw s.regs) (hhang : hangDraw s = true) :
    (encRun k s).hung = true ∧ (encRun k s).status = { s.status with busy := true }
      ∧ (encRun k s).errAddr = s.errAddr := by
  rw [encRun_of_hang hhw hhang]
  exact hangWith_control (afterHangDraw_sameControl (loadIv s)) _

theorem decRun_hang_control {k : Fin 16} {s : State} (hhang : hangDraw s = true) :
    (decRun k s).hung = true ∧ (decRun k s).status = { s.status with busy := true }
      ∧ (decRun k s).errAddr = s.errAddr := by
  obtain ⟨x, hang⟩ := decRun_of_hang (k := k) hhang
  rw [hang]
  exact hangWith_control (afterHangDraw_sameControl (setTrans x s)) _

/-- Settles O34: past its checks the command is the hang, and what it leaves unchanged is the frame of every outcome. -/
theorem hangLeavesBusy : Obligations.HangLeavesBusy := by
  obtain ⟨encFrame, decFrame⟩ := aeadFrame
  refine ⟨fun s k hm hready hhw hhang => ?_, fun s k hm hready hhang => ?_⟩
  · have hnext := exec_encrypt_of_ready hready
    obtain ⟨hhung, hstatus, herrAddr⟩ := encRun_hang_control (k := k) hhw hhang
    obtain ⟨hframe, hslots, -, -, hmem⟩ := encFrame s _ k hm hnext
    exact ⟨_, hnext, hhung, hstatus, herrAddr, hframe, hslots, hmem⟩
  · have hnext := exec_decrypt_of_ready hready
    obtain ⟨hhung, hstatus, herrAddr⟩ := decRun_hang_control (k := k) hhang
    obtain ⟨hframe, hslots, -, -, hmem⟩ := decFrame s _ k hm hnext
    exact ⟨_, hnext, hhung, hstatus, herrAddr, hframe, hslots, hmem⟩

end Sys2Proof.Machine
end

section
/-! How an ENCRYPT completes: with one of its three errors, which is nothing but a completion, or with OK and the flags
of its paths (43_encrypt.md R171, R174, R175, R178, R179). -/

namespace Sys2Proof.Machine

/-! ### What an error is -/

/-- `t` is `s` after an error was raised: nothing changed but what the completion writes (60_exceptions.md R210). -/
def OnlyRaised (s t : State) (code : ErrCode) (ea : Word) : Prop :=
  Raised s t code ea ∧ Frame s t ∧ t.mem = s.mem ∧ SlotsSame s t ∧ t.draws = s.draws

theorem raise_onlyRaised (code : ErrCode) (s : State) : OnlyRaised s (raise code s) code 0#32 :=
  ⟨raise_raised code s, raise_frame code s, rfl, fun _ => rfl, rfl⟩

theorem raiseBus_onlyRaised (a : Word) (s : State) : OnlyRaised s (raiseBus a s) .busError a :=
  ⟨⟨rfl, rfl, rfl, rfl⟩, raiseBus_frame a s, rfl, fun _ => rfl, rfl⟩

/-- The first range that is not admitted, found among the ranges as the statements write them. -/
theorem firstUnadmitted_of_spans {p : Params} {l : List Range} {pre post : List Span} {x : Span}
    (hl : l.map Range.span = pre ++ x :: post) (hpre : AllSpansAdmitted p pre) (hx : ¬ RangeAdmitted p x.1 x.2) :
    firstUnadmitted p l = some x.1 := by
  obtain ⟨admittedOnes, rest, rfl, rfl, hrest⟩ := List.map_eq_append_iff.mp hl
  obtain ⟨r, later, rfl, rfl, -⟩ := List.map_eq_cons_iff.mp hrest
  have hr : ¬ admitted p r = true := mt (admitted_iff p r).mp hx
  rw [firstUnadmitted_append p _ _ (List.forall_mem_map.mp hpre), firstUnadmitted, if_neg hr]
  rfl

/-! ### The completion with OK -/

theorem SameControl.trans {s t u : State} (h : SameControl s t) (h' : SameControl t u) : SameControl s u := by
  obtain ⟨hstatus, herrAddr, hhung⟩ := h
  obtain ⟨hstatus', herrAddr', hhung'⟩ := h'
  exact ⟨hstatus'.trans hstatus, herrAddr'.trans herrAddr, hhung'.trans hhung⟩

theorem encHardware_sameControl (k : Fin 16) (s : State) : SameControl s (encHardware k s) := by
  simp [SameControl, encHardware, encTransform]

theorem Completed.of_sameControl {s u t : State} {code : ErrCode} {fold hwx : Bool} {ghcnt : BitVec 2} {ea : Word}
    (hu : SameControl s u) (h : Completed u t code fold hwx ghcnt ea) : Completed s t code fold hwx ghcnt ea := by
  obtain ⟨hstatus, -, hhung⟩ := hu
  simpa only [Completed, hstatus, hhung] using h

/-- The completion of an ENCRYPT past its checks, with the flags of 43_encrypt.md R178. -/
def EncCompleted (s t : State) : Prop :=
  Completed s t .ok (decide (AadIn s.regs)) (decide (EncHw s.regs)) (if AadIn s.regs then 1#2 else 0#2) 0#32

theorem encGhcnt_eq (r : OperandRegs) : encGhcnt (aadPresent r) = if AadIn r then 1#2 else 0#2 := by
  simp only [encGhcnt, aadPresent_iff]

theorem encFinish_completed (k : Fin 16) {s u : State} (hregs : u.regs = s.regs) (hu : SameControl s u) :
    EncCompleted s (encFinish k u) := by
  obtain ⟨hstatus, -, -, hhung, htrans, herrAddr, -⟩ := encFinish_fields k u
  rw [hregs, encGhcnt_eq, aadPresent_eq, encHwPath_eq] at hstatus
  exact Completed.of_sameControl hu ⟨hstatus, herrAddr, htrans, hhung⟩

theorem encRun_completed {k : Fin 16} {s : State} (hdraw : EncHw s.regs → hangDraw s = false) :
    EncCompleted s (encRun k s) := by
  obtain ⟨hhw, hangs, -⟩ | ⟨-, -, hardware⟩ | ⟨-, noHardware⟩ := encRun_cases k s
  · exact absurd (hdraw hhw) (by simp [hangs])
  · rw [hardware]
    exact encFinish_completed k ((encHardware_regs k _).trans (afterHangDraw_regs _))
      ((afterHangDraw_sameControl (loadIv s)).trans (encHardware_sameControl k _))
  · rw [noHardware]
    exact encFinish_completed k rfl ⟨rfl, rfl, rfl⟩

/-- An ENCRYPT that is no longer busy has not hung. -/
theorem hangDraw_of_encRun_idle {k : Fin 16} {s : State} (hidle : (encRun k s).status.busy = false)
    (hhw : EncHw s.regs) : hangDraw s = false := by
  by_contra hhang
  obtain ⟨-, hstatus, -⟩ := encRun_hang_control (k := k) hhw (by simpa using hhang)
  simp [hstatus] at hidle

/-- How an ENCRYPT can have completed. -/
theorem encrypt_completed_cases {k : Fin 16} {s t : State} (h : exec (.encrypt k) s = .next t)
    (hidle : t.status.busy = false) :
    (¬ EncArgsGood k s ∧ t = raise .badArgument s)
    ∨ (EncArgsGood k s ∧ ¬ ScratchEnough s ∧ t = raise .outOfMemory s)
    ∨ (EncArgsGood k s ∧ ScratchEnough s ∧ ∃ a, firstUnadmitted s.params (encRanges s.regs) = some a ∧ t = raiseBus a s)
    ∨ (EncReady k s ∧ (EncHw s.regs → hangDraw s = false) ∧ EncCompleted s t) := by
  obtain badArgs | noScratch | unadmitted | ⟨ready, rfl⟩ := execEncrypt_cases h
  · exact .inl badArgs
  · exact .inr (.inl noScratch)
  · exact .inr (.inr (.inl unadmitted))
  · have hdraw := hangDraw_of_encRun_idle hidle
    exact .inr (.inr (.inr ⟨ready, hdraw, encRun_completed hdraw⟩))

theorem EncCompleted.err_eq {s t : State} (h : EncCompleted s t) : t.status.err = .ok := by
  obtain ⟨hstatus, -⟩ := h
  rw [hstatus]

/-! ### The statements -/

/-- Settles O21: the arguments are checked first, and no other completion has this code. -/
theorem encryptBadArgument : Obligations.EncryptBadArgument := by
  refine fun s k => ⟨fun hbad => ?_, fun t hnext hidle herr => ?_⟩
  · obtain ⟨hraised, hframe, hmem, hslots, hdraws⟩ := raise_onlyRaised .badArgument s
    exact ⟨_, exec_encrypt_of_bad_args hbad, hraised, hframe, hmem, hslots, hdraws,
      fun m => exec_encrypt_of_bad_args (s := { s with mem := m }) hbad⟩
  · obtain ⟨hbad, -⟩ | ⟨-, -, rfl⟩ | ⟨-, -, a, -, rfl⟩ | ⟨-, -, completed⟩ := encrypt_completed_cases hnext hidle
    · exact hbad
    · cases herr
    · cases herr
    · cases completed.err_eq.symm.trans herr

/-- Settles O22: the scratch check is next, and `ScratchEnough` fails only where the hardware path runs. -/
theorem encryptOutOfMemory : Obligations.EncryptOutOfMemory := by
  refine fun s k => ⟨fun hargs hscratch => ?_, fun t hnext hidle herr => ?_⟩
  · obtain ⟨hraised, hframe, hmem, hslots, hdraws⟩ := raise_onlyRaised .outOfMemory s
    exact ⟨_, exec_encrypt_of_no_scratch hargs hscratch, hraised, hframe, hmem, hslots, hdraws,
      fun m => exec_encrypt_of_no_scratch (s := { s with mem := m }) hargs hscratch⟩
  · obtain ⟨-, rfl⟩ | ⟨hargs, hscratch, -⟩ | ⟨-, -, a, -, rfl⟩ | ⟨-, -, completed⟩ :=
      encrypt_completed_cases hnext hidle
    · cases herr
    · obtain ⟨hhw, htoolong⟩ := Classical.not_imp.mp hscratch
      exact ⟨hargs, hhw, not_le.mp htoolong⟩
    · cases herr
    · cases completed.err_eq.symm.trans herr

/-- Settles O23: the ranges are checked in the order of `encSpans`, and BusError names the one that stops the check. -/
theorem encryptBusErrorNamesFirstRange : Obligations.EncryptBusErrorNamesFirstRange := by
  intro s k pre post x hargs hscratch hspans hpre hx
  have hfirst := firstUnadmitted_of_spans ((encRanges_spans s.regs).trans hspans) hpre hx
  exact ⟨_, exec_encrypt_of_unadmitted hargs hscratch hfirst, raiseBus_onlyRaised x.1 s⟩

/-- Settles O25: an error clears the flags, and the flags of OK are those of `EncCompleted`. -/
theorem encryptFlags : Obligations.EncryptFlags := by
  intro s t k hnext hidle
  obtain ⟨-, rfl⟩ | ⟨-, -, rfl⟩ | ⟨-, -, a, -, rfl⟩ | ⟨-, -, completed⟩ := encrypt_completed_cases hnext hidle
  · exact ⟨fun hok => (by cases hok), fun _ => ⟨rfl, rfl, rfl⟩⟩
  · exact ⟨fun hok => (by cases hok), fun _ => ⟨rfl, rfl, rfl⟩⟩
  · exact ⟨fun hok => (by cases hok), fun _ => ⟨rfl, rfl, rfl⟩⟩
  · refine ⟨fun _ => ?_, fun herr => absurd completed.err_eq herr⟩
    obtain ⟨hstatus, -⟩ := completed
    rw [hstatus]
    exact ⟨decide_eq_true_iff, decide_eq_true_iff, rfl⟩

/-- Settles O26: each error is decided by operands, parameters and slots, and raising it leaves memory alone. -/
theorem encryptErrorTouchesNoMemory : Obligations.EncryptErrorTouchesNoMemory := by
  intro s t k hnext hidle herr
  obtain ⟨hbad, rfl⟩ | ⟨hargs, hscratch, rfl⟩ | ⟨hargs, hscratch, a, hfirst, rfl⟩ | ⟨-, -, completed⟩ :=
    encrypt_completed_cases hnext hidle
  · exact ⟨.inl rfl, rfl, fun m => exec_encrypt_of_bad_args (s := { s with mem := m }) hbad⟩
  · exact ⟨.inr (.inl rfl), rfl, fun m => exec_encrypt_of_no_scratch (s := { s with mem := m }) hargs hscratch⟩
  · exact ⟨.inr (.inr rfl), rfl, fun m => exec_encrypt_of_unadmitted (s := { s with mem := m }) hargs hscratch hfirst⟩
  · exact absurd completed.err_eq herr

end Sys2Proof.Machine
end

section
/-! What a completed ENCRYPT leaves in memory (43_encrypt.md R176, R177): the ciphertext and, at the tag, what the last
of the paths has written. The two output ranges and the inputs read after a write do not overlap. -/

namespace Sys2Proof.Machine

/-! ### Reading a range after a write -/

/-- A range that overlaps none of the written ones reads as before. -/
theorem WritesWithin.readBytes_eq {l : List Span} {s t : State} (h : WritesWithin l s t) (hm : MemCanonical s)
    {a : Word} {n : Nat} (hdisjoint : ∀ x ∈ l, ¬ Overlaps x.1 x.2 a n) :
    readBytes t.mem a.toNat n = readBytes s.mem a.toNat n := by
  obtain ⟨-, hsame⟩ := h hm
  refine readBytes_congr fun i hi => hsame _ fun x hx => ?_
  have hx' := hdisjoint x hx
  unfold Overlaps at hx'
  omega

/-- A range written in full reads as what was written. -/
theorem readBytes_memWrite {s : State} (hm : MemCanonical s) {a : Word} {n : Nat} (hend : a.toNat + n ≤ 2 ^ 32)
    {bs : List Byte} (hlen : bs.length = n) : readBytes (memWrite a bs s).mem a.toNat n = bs := by
  subst hlen
  exact readBytes_writeBytes_same bs hm hend

theorem length_take_blockBytes {n : Nat} (h : n ≤ 16) (x : Block) : ((blockBytes x).take n).length = n := by
  rw [List.length_take, length_blockBytes, min_eq_left h]

theorem take_blockBytes_xor (x y : Block) (n : Nat) :
    xorBytes ((blockBytes x).take n) ((blockBytes y).take n) = (blockBytes (x ^^^ y)).take n := by
  rw [blockBytes_xor, xorBytes, xorBytes, List.take_zipWith]

/-- ENCRYPT's tag range. -/
def tagSpan (r : OperandRegs) : Span := (r.tagAddr, r.tagLen.toNat)

/-- The tag range holds the first TAG_LEN bytes of the block `x`. -/
def TagHolds (r : OperandRegs) (s : State) (x : Block) : Prop :=
  readBytes s.mem r.tagAddr.toNat r.tagLen.toNat = (blockBytes x).take r.tagLen.toNat

/-- The tag range ends inside the address space and is no longer than a block. -/
def TagFits (r : OperandRegs) : Prop := r.tagAddr.toNat + r.tagLen.toNat ≤ 2 ^ 32 ∧ r.tagLen.toNat ≤ 16

theorem writeTag_onlyTag {r : OperandRegs} (h : TagFits r) (x : Block) (s : State) :
    WritesWithin [tagSpan r] s (memWrite r.tagAddr ((blockBytes x).take r.tagLen.toNat) s) :=
  memWrite_writesWithin (List.mem_singleton_self _) h.1 (List.length_take_le _ _) s

theorem writeTag_tagHolds {r : OperandRegs} (h : TagFits r) (x : Block) {s : State} (hm : MemCanonical s) :
    TagHolds r (memWrite r.tagAddr ((blockBytes x).take r.tagLen.toNat) s) x :=
  readBytes_memWrite hm h.1 (length_take_blockBytes h.2 x)

/-- To be cited where `setTrans` could be unfolded: that would compare the transients too, and so evaluate the cipher. -/
theorem setTrans_memCanonical (x : Transients) {s : State} (hm : MemCanonical s) : MemCanonical (setTrans x s) :=
  (memCanonical_congr (setTrans_mem x s)).mpr hm

theorem keyOf_congr {s t : State} (h : t.slots = s.slots) (k : Fin 16) : keyOf k t = keyOf k s :=
  congrArg Slot.key (slotAt_congr h k)

/-! ### The tag fold (R176) -/

section
variable {r : OperandRegs} (hfits : TagFits r) {k : Fin 16} {s : State} (hr : s.regs = r)
include hfits hr

theorem encGhashTag_tag (hm : MemCanonical s) :
    WritesWithin [tagSpan r] s (encGhashTag k s)
      ∧ TagHolds r (encGhashTag k s)
          (ghash (hashSubkey (keyOf k s)) (readRange (aadRange r) s) (readRange (dstRange r) s)) := by
  subst hr
  exact ⟨(setTrans_writesWithin _ _ s).trans (writeTag_onlyTag hfits _ _),
    writeTag_tagHolds hfits _ (setTrans_memCanonical _ hm)⟩

/-- The masking step reads the tag back and writes it masked. -/
theorem encMaskTag_tag (hm : MemCanonical s) {x : Block} (htag : TagHolds r s x) :
    WritesWithin [tagSpan r] s (encMaskTag k s)
      ∧ TagHolds r (encMaskTag k s) (x ^^^ tagMask (keyOf k s) s.trans.j0Reg) := by
  subst hr
  have hread : readRange (tagOutRange s.regs) s = (blockBytes x).take s.regs.tagLen.toNat := htag
  rw [encMaskTag, hread, take_blockBytes_xor]
  exact ⟨(setTrans_writesWithin _ _ s).trans (writeTag_onlyTag hfits _ _),
    writeTag_tagHolds hfits _ (setTrans_memCanonical _ hm)⟩

/-- The fold writes the tag range alone, and leaves the tag over the AAD and the ciphertext there. -/
theorem encFold_tag (hm : MemCanonical s) :
    WritesWithin [tagSpan r] s (encMaskTag k (encGhashTag k s))
      ∧ TagHolds r (encMaskTag k (encGhashTag k s))
          (gcmTag (keyOf k s) s.trans.j0Reg (readRange (aadRange r) s) (readRange (dstRange r) s)) := by
  obtain ⟨ghashWrites, ghashTag⟩ := encGhashTag_tag hfits (k := k) hr hm
  obtain ⟨hm', -⟩ := ghashWrites hm
  obtain ⟨maskWrites, maskTag⟩ := encMaskTag_tag hfits (k := k) ((encGhashTag_regs k s).trans hr) hm' ghashTag
  refine ⟨ghashWrites.trans maskWrites, ?_⟩
  rwa [encGhashTag_j0Reg, keyOf_congr (encGhashTag_slots k s)] at maskTag

end

/-! ### Up to the completion -/

/-- C of 43_encrypt.md R177. -/
def encCipher (k : Fin 16) (s : State) : List Byte := ctrXform (keyOf k s) (j0In s) (srcBytes s)

@[simp] theorem length_encCipher (k : Fin 16) (s : State) : (encCipher k s).length = s.regs.srcLen.toNat := by
  rw [encCipher, length_ctrXform, srcBytes, length_readBytes]

/-- The tag of 43_encrypt.md R177, before it is truncated. -/
def encTag (k : Fin 16) (s : State) : Block := gcmTag (keyOf k s) (j0In s) (aadBytes s) (encCipher k s)

/-- `u` is `s` with the ciphertext in the destination range, before the fold: registers and slots are those of `s`,
J0REG is loaded, and memory has changed in the output ranges alone. -/
def EncCiphered (k : Fin 16) (s u : State) : Prop :=
  u.regs = s.regs ∧ u.slots = s.slots ∧ u.trans.j0Reg = j0In s ∧ WritesWithin (encOutSpans s.regs) s u
    ∧ readBytes u.mem s.regs.dstAddr.toNat s.regs.srcLen.toNat = encCipher k s

/-- Memory holds what 43_encrypt.md R177 says. -/
def EncMemory (k : Fin 16) (s t : State) : Prop :=
  readBytes t.mem s.regs.dstAddr.toNat s.regs.srcLen.toNat = encCipher k s ∧ TagHolds s.regs t (encTag k s)

theorem EncMemory.of_mem {k : Fin 16} {s t u : State} (h : t.mem = u.mem) (hu : EncMemory k s u) : EncMemory k s t := by
  rwa [EncMemory, TagHolds, h]

section
variable {k : Fin 16} {s : State} (hready : EncReady k s) (hm : MemCanonical s)
include hready

theorem tagFits_of_ready : TagFits s.regs := by
  obtain ⟨-, htagEnd⟩ := encOutputsFit_of_ready hready
  obtain ⟨⟨-, -, -, htagLen, -⟩, -⟩ := hready
  exact ⟨htagEnd, htagLen⟩

theorem tag_dst_disjoint : ∀ x ∈ [tagSpan s.regs], ¬ Overlaps x.1 x.2 s.regs.dstAddr s.regs.srcLen.toNat := by
  obtain ⟨-, -, -, hoverlap⟩ := hready
  simp only [EncOverlap, not_or] at hoverlap
  obtain ⟨-, -, -, dstTag, -, -, -⟩ := hoverlap
  exact List.forall_mem_singleton.mpr (mt (overlaps_comm ..).mp dstTag)

theorem outputs_aad_disjoint : ∀ x ∈ encOutSpans s.regs, ¬ Overlaps x.1 x.2 s.regs.aadAddr (aadCount s.regs) := by
  obtain ⟨-, -, -, hoverlap⟩ := hready
  simp only [EncOverlap, not_or] at hoverlap
  obtain ⟨-, -, dstAad, -, -, -, tagAad⟩ := hoverlap
  exact List.forall_mem_cons.mpr ⟨dstAad, List.forall_mem_singleton.mpr tagAad⟩

include hm

/-- The fold turns the ciphertext-only memory into that of R177. -/
theorem EncCiphered.fold_memory {u : State} (h : EncCiphered k s u) :
    EncMemory k s (encMaskTag k (encGhashTag k u)) := by
  obtain ⟨hregs, hslots, hj0, hwrites, hcipher⟩ := h
  obtain ⟨hm', -⟩ := hwrites hm
  obtain ⟨foldWrites, foldTag⟩ := encFold_tag (tagFits_of_ready hready) (k := k) hregs hm'
  have haad : readRange (aadRange s.regs) u = aadBytes s := by
    rw [readRange, aadRange_len, aadRange_addr, hwrites.readBytes_eq hm (outputs_aad_disjoint hready), aadBytes]
  have hdst : readRange (dstRange s.regs) u = encCipher k s := hcipher
  refine ⟨(foldWrites.readBytes_eq hm' (tag_dst_disjoint hready)).trans hcipher, ?_⟩
  rwa [haad, hdst, hj0, keyOf_congr hslots] at foldTag

/-- The completion leaves memory as R177 says, once the ciphertext is written and, without AAD, the controller's tag. -/
theorem EncCiphered.finish_memory {u : State} (h : EncCiphered k s u)
    (htag : ¬ AadIn s.regs → TagHolds s.regs u (encTag k s)) : EncMemory k s (encFinish k u) := by
  have hfold := h.fold_memory hready hm
  obtain ⟨hregs, -, -, -, hcipher⟩ := h
  rw [encFinish, hregs]
  refine EncMemory.of_mem (complete_mem ..) ?_
  split_ifs with haad
  · exact hfold
  · exact ⟨hcipher, htag (mt (aadPresent_iff _).mpr haad)⟩

end

/-! ### The two ways to the completion -/

/-- Without a hardware path the plaintext is empty and the AAD present. -/
theorem srcLen_and_aad_of_no_hw {r : OperandRegs} (h : ¬ EncHw r) : r.srcLen.toNat = 0 ∧ AadIn r := by
  obtain ⟨hsrc, haad⟩ := not_or.mp h
  exact ⟨Nat.eq_zero_of_not_pos hsrc, not_not.mp haad⟩

theorem loadIv_ciphered {k : Fin 16} {s : State} (hlen : s.regs.srcLen.toNat = 0) : EncCiphered k s (loadIv s) := by
  refine ⟨rfl, rfl, rfl, setTrans_writesWithin _ _ s, ?_⟩
  rw [hlen, readBytes_zero, List.eq_nil_of_length_eq_zero ((length_encCipher k s).trans hlen)]

/-- Without AAD the tag of R177 is the controller's. -/
theorem encTag_of_no_aad {k : Fin 16} {s : State} (haad : ¬ AadIn s.regs) :
    encTag k s = ctrTag (keyOf k s) (j0In s) (encCipher k s) := by
  have hnil : aadBytes s = [] := by rw [aadBytes, aadCount, if_neg haad, readBytes_zero]
  rw [encTag, gcmTag, hnil, ctrTag, hashSubkey, tagMask]

/-- The state in which an ENCRYPT invokes the controller: IVREG and J0REG are loaded, the draw is taken. -/
def encInvoked (s : State) : State := afterHangDraw (loadIv s)

theorem encInvoked_regs (s : State) : (encInvoked s).regs = s.regs := afterHangDraw_regs (loadIv s)

theorem encInvoked_slots (s : State) : (encInvoked s).slots = s.slots := afterHangDraw_slots (loadIv s)

theorem encInvoked_mem (s : State) : (encInvoked s).mem = s.mem := afterHangDraw_mem (loadIv s)

theorem encInvoked_ivReg (s : State) : (encInvoked s).trans.ivReg = ivOfBytes (readRange (ivRange s.regs) s) :=
  congrArg Transients.ivReg (afterHangDraw_trans (loadIv s))

theorem encInvoked_j0Reg (s : State) : (encInvoked s).trans.j0Reg = j0In s :=
  congrArg Transients.j0Reg (afterHangDraw_trans (loadIv s))

/-- What the transform leaves in SCRATCH: the ciphertext, then the controller's tag. -/
theorem encTransform_scratch (k : Fin 16) (s : State) :
    (encTransform k (encInvoked s)).trans.scratch.take s.regs.srcLen.toNat = encCipher k s
      ∧ (encTransform k (encInvoked s)).trans.scratch.drop s.regs.srcLen.toNat
        = blockBytes (ctrTag (keyOf k s) (j0In s) (encCipher k s)) := by
  have hkey : (engineInit k (encInvoked s)).key = keyOf k s := keyOf_congr (encInvoked_slots s) k
  have hj0 : engineJ0 (engineInit k (encInvoked s)) = j0In s := congrArg j0Of (encInvoked_ivReg s)
  have hsrc : readRange (srcRange (encInvoked s).regs) (encInvoked s) = srcBytes s := by
    rw [readRange, encInvoked_mem, encInvoked_regs, srcBytes, srcRange]
  have hlen : s.regs.srcLen.toNat = (srcBytes s).length := (length_readBytes ..).symm
  rw [encTransform, setTrans_trans, hsrc, hlen, hwEnc_take, hwEnc_drop, hkey, hj0]
  exact ⟨rfl, rfl⟩

/-- The hardware path writes the ciphertext and then the controller's tag (43_encrypt.md R170, step 5). -/
theorem encHardware_eq (k : Fin 16) (s : State) : encHardware k (encInvoked s)
    = memWrite s.regs.tagAddr
        ((blockBytes (ctrTag (keyOf k s) (j0In s) (encCipher k s))).take s.regs.tagLen.toNat)
        (memWrite s.regs.dstAddr (encCipher k s) (encTransform k (encInvoked s))) := by
  obtain ⟨hcipher, htag⟩ := encTransform_scratch k s
  have hregs : (encTransform k (encInvoked s)).regs = s.regs := encInvoked_regs s
  simp only [encHardware, memWrite_regs, memWrite_trans, hregs, hcipher, htag]

section
variable {k : Fin 16} {s : State} (hready : EncReady k s) (hm : MemCanonical s)
include hready hm

/-- After the hardware path the two output ranges hold the ciphertext and the controller's tag. -/
theorem encHardware_memory :
    readBytes (encHardware k (encInvoked s)).mem s.regs.dstAddr.toNat s.regs.srcLen.toNat = encCipher k s
      ∧ TagHolds s.regs (encHardware k (encInvoked s)) (ctrTag (keyOf k s) (j0In s) (encCipher k s)) := by
  have hfits := encOutputsFit_of_ready hready
  have htagFits := tagFits_of_ready hready
  have htransform : MemCanonical (encTransform k (encInvoked s)) :=
    setTrans_memCanonical _ ((memCanonical_congr (encInvoked_mem s)).mpr hm)
  obtain ⟨hcipher, -⟩ := writeDst_writesWithin hfits (length_encCipher k s).le _ htransform
  have hkept := (writeTag_onlyTag htagFits (ctrTag (keyOf k s) (j0In s) (encCipher k s)) _).readBytes_eq hcipher
    (tag_dst_disjoint hready)
  rw [encHardware_eq]
  exact ⟨hkept.trans (readBytes_memWrite htransform hfits.1 (length_encCipher k s)),
    writeTag_tagHolds htagFits _ hcipher⟩

theorem encHardware_ciphered : EncCiphered k s (encHardware k (encInvoked s)) := by
  obtain ⟨hcipher, -⟩ := encHardware_memory hready hm
  have hdraw : WritesWithin (encOutSpans s.regs) s (encInvoked s) := .of_mem (encInvoked_mem s)
  exact ⟨(encHardware_regs k _).trans (encInvoked_regs s), (encHardware_slots k _).trans (encInvoked_slots s),
    (encHardware_j0Reg k _).trans (encInvoked_j0Reg s),
    hdraw.trans (encHardware_writesWithin (encOutputsFit_of_ready hready) k (encInvoked_regs s)), hcipher⟩

/-- Past its checks, an ENCRYPT that does not hang leaves the memory of R177. -/
theorem encRun_memory (hdraw : EncHw s.regs → hangDraw s = false) : EncMemory k s (encRun k s) := by
  obtain ⟨hhw, hangs, -⟩ | ⟨-, -, hardware⟩ | ⟨hnohw, noHardware⟩ := encRun_cases k s
  · exact absurd (hdraw hhw) (by simp [hangs])
  · obtain ⟨-, htag⟩ := encHardware_memory hready hm
    rw [hardware]
    refine (encHardware_ciphered hready hm).finish_memory hready hm fun haad => ?_
    rwa [encTag_of_no_aad haad]
  · obtain ⟨hlen, haad⟩ := srcLen_and_aad_of_no_hw hnohw
    rw [noHardware]
    exact (loadIv_ciphered hlen).finish_memory hready hm fun hno => absurd haad hno

end

/-- Settles O24: a completion with OK has run and has not hung; such a run leaves the memory of R177, and what it leaves
unchanged is the frame of every outcome. -/
theorem encryptResult : Obligations.EncryptResult := by
  refine ⟨fun s t k hnext hidle hok => ?_, fun s k hm hready hdraw => ?_⟩
  · obtain ⟨-, rfl⟩ | ⟨-, -, rfl⟩ | ⟨-, -, a, -, rfl⟩ | ⟨ready, hdraw, -⟩ := encrypt_completed_cases hnext hidle
    · cases hok
    · cases hok
    · cases hok
    · exact ⟨ready, hdraw⟩
  · obtain ⟨encFrame, -⟩ := aeadFrame
    have hnext := exec_encrypt_of_ready hready
    obtain ⟨hframe, hslots, -, -, hsame⟩ := encFrame s _ k hm hnext
    obtain ⟨hcipher, htag⟩ := encRun_memory hready hm hdraw
    exact ⟨_, hnext, encRun_completed hdraw, hframe, hslots, hcipher, htag, hsame⟩

end Sys2Proof.Machine
end

section
/-! How a DECRYPT completes: with one of its two errors, which is nothing but a completion, or, once it has run, with OK or
AuthenticationFailure and the flags of 44_decrypt.md R199 (R190, R191, R196). -/

namespace Sys2Proof.Machine

/-- The completion, with this code, of a DECRYPT that has run. -/
def DecCompleted (code : ErrCode) (s t : State) : Prop :=
  Completed s t code (decide (AadIn s.regs)) true (if AadIn s.regs then 2#2 else 0#2) 0#32

theorem decGhcnt_eq (r : OperandRegs) : decGhcnt (aadPresent r) = if AadIn r then 2#2 else 0#2 := by
  simp only [decGhcnt, aadPresent_iff]

theorem decComplete_completed (code : ErrCode) {s u : State} (hregs : u.regs = s.regs) (hu : SameControl s u) :
    DecCompleted code s (decComplete code u) := by
  refine Completed.of_sameControl hu ⟨?_, rfl, rfl, rfl⟩
  rw [decComplete, complete_status, hregs, decGhcnt_eq, aadPresent_eq, completedStatus]

theorem decAuthFail_completed {s u : State} (hregs : u.regs = s.regs) (hu : SameControl s u) :
    DecCompleted .authenticationFailure s (decAuthFail u) :=
  decComplete_completed .authenticationFailure (u := memWrite _ _ u) hregs hu

theorem decRun_completed {k : Fin 16} {s : State} (hdraw : hangDraw s = false) :
    DecCompleted .ok s (decRun k s) ∨ DecCompleted .authenticationFailure s (decRun k s) := by
  obtain ⟨x, -, ⟨hangs, -⟩ | ⟨-, verify⟩⟩ := decRun_cases k s
  · exact absurd hdraw (by simp [hangs])
  · have hregs : (afterHangDraw (setTrans x s)).regs = s.regs := afterHangDraw_regs _
    have hu : SameControl s (afterHangDraw (setTrans x s)) := afterHangDraw_sameControl (setTrans x s)
    rw [verify]
    obtain ⟨y, accepted | failed⟩ := decVerify_cases (srcBytes s) (expectedTag s)
      (hwDec (engineInit k (setTrans x s)) (srcBytes s) (decTagForHw (setTrans x s))) (afterHangDraw (setTrans x s))
    · rw [accepted]
      exact .inl (decComplete_completed .ok (u := setTrans y (memWrite _ _ _)) hregs hu)
    · rw [failed]
      exact .inr (decAuthFail_completed (u := setTrans y (memWrite _ _ _)) hregs hu)

/-- A DECRYPT that is no longer busy has not hung. -/
theorem hangDraw_of_decRun_idle {k : Fin 16} {s : State} (hidle : (decRun k s).status.busy = false) :
    hangDraw s = false := by
  by_contra hhang
  obtain ⟨-, hstatus, -⟩ := decRun_hang_control (k := k) (by simpa using hhang)
  simp [hstatus] at hidle

/-- How a DECRYPT can have completed. -/
theorem decrypt_completed_cases {k : Fin 16} {s t : State} (h : exec (.decrypt k) s = .next t)
    (hidle : t.status.busy = false) :
    (¬ DecArgsGood k s ∧ t = raise .badArgument s)
    ∨ (DecArgsGood k s ∧ ∃ a, firstUnadmitted s.params (decRanges s.regs) = some a ∧ t = raiseBus a s)
    ∨ (DecReady k s ∧ hangDraw s = false ∧ (DecCompleted .ok s t ∨ DecCompleted .authenticationFailure s t)) := by
  obtain badArgs | unadmitted | ⟨ready, rfl⟩ := execDecrypt_cases h
  · exact .inl badArgs
  · exact .inr (.inl unadmitted)
  · have hdraw := hangDraw_of_decRun_idle hidle
    exact .inr (.inr ⟨ready, hdraw, decRun_completed hdraw⟩)

theorem DecCompleted.err_eq {code : ErrCode} {s t : State} (h : DecCompleted code s t) : t.status.err = code := by
  obtain ⟨hstatus, -⟩ := h
  rw [hstatus]

theorem DecCompleted.flags {code : ErrCode} {s t : State} (h : DecCompleted code s t) :
    (t.status.fold = true ↔ AadIn s.regs) ∧ t.status.hwx = true
      ∧ t.status.ghcnt = (if AadIn s.regs then 2#2 else 0#2) := by
  obtain ⟨hstatus, -⟩ := h
  rw [hstatus]
  exact ⟨decide_eq_true_iff, rfl, rfl⟩

/-- The code is one of the two that a DECRYPT ends with once it has run. -/
def RanCode (code : ErrCode) : Prop := code = .ok ∨ code = .authenticationFailure

theorem ranCode_of_decCompleted {s t : State} (h : DecCompleted .ok s t ∨ DecCompleted .authenticationFailure s t) :
    RanCode t.status.err := h.imp DecCompleted.err_eq DecCompleted.err_eq

/-- A DECRYPT that has run ends with neither of the two errors. -/
theorem not_ranCode {code : ErrCode} (h : code = .badArgument ∨ code = .busError) : ¬ RanCode code := by
  obtain rfl | rfl := h
  · simp [RanCode]
  · simp [RanCode]

/-- Settles O27: the arguments are checked first, and no other completion has this code. -/
theorem decryptBadArgument : Obligations.DecryptBadArgument := by
  refine fun s k => ⟨fun hbad => ?_, fun t hnext hidle herr => ?_⟩
  · obtain ⟨hraised, hframe, hmem, hslots, hdraws⟩ := raise_onlyRaised .badArgument s
    exact ⟨_, exec_decrypt_of_bad_args hbad, hraised, hframe, hmem, hslots, hdraws,
      fun m => exec_decrypt_of_bad_args (s := { s with mem := m }) hbad⟩
  · obtain ⟨hbad, -⟩ | ⟨-, a, -, rfl⟩ | ⟨-, -, completed⟩ := decrypt_completed_cases hnext hidle
    · exact hbad
    · cases herr
    · exact absurd (ranCode_of_decCompleted completed) (not_ranCode (.inl herr))

/-- Settles O28: the ranges are checked in the order of `decSpans`, and BusError names the one that stops the check. -/
theorem decryptBusErrorNamesFirstRange : Obligations.DecryptBusErrorNamesFirstRange := by
  intro s k pre post x hargs hspans hpre hx
  have hfirst := firstUnadmitted_of_spans ((decRanges_spans s.regs).trans hspans) hpre hx
  exact ⟨_, exec_decrypt_of_unadmitted hargs hfirst, raiseBus_onlyRaised x.1 s⟩

/-- Settles O31: an error clears the flags, and a DECRYPT that has run has those of `DecCompleted` with either code. -/
theorem decryptFlags : Obligations.DecryptFlags := by
  intro s t k hnext hidle
  obtain ⟨-, rfl⟩ | ⟨-, a, -, rfl⟩ | ⟨-, -, completed⟩ := decrypt_completed_cases hnext hidle
  · exact ⟨fun hran => absurd hran (not_ranCode (.inl rfl)), fun _ => ⟨rfl, rfl, rfl⟩⟩
  · exact ⟨fun hran => absurd hran (not_ranCode (.inr rfl)), fun _ => ⟨rfl, rfl, rfl⟩⟩
  · exact ⟨fun _ => completed.elim DecCompleted.flags DecCompleted.flags,
      fun herr => absurd (ranCode_of_decCompleted completed) (not_ranCode herr)⟩

end Sys2Proof.Machine
end

section
/-! DECRYPT in one equation (44_decrypt.md R190 to R195, R197): what it has ready when it invokes the controller, and that
what follows is a comparison of the caller's tag with the GCM tag, whichever of the two checks decides it. -/

namespace Sys2Proof.Machine

/-! ### Up to the transform -/

theorem decPrepare_of_aad (k : Fin 16) {s : State} (haad : AadIn s.regs) : decPrepare k s = decHwTag k (loadIv s) :=
  if_pos ((aadPresent_iff _).mpr haad)

theorem decPrepare_of_no_aad (k : Fin 16) {s : State} (haad : ¬ AadIn s.regs) : decPrepare k s = loadIv s :=
  if_neg (mt (aadPresent_iff _).mp haad)

theorem decPrepare_agrees (k : Fin 16) (s : State) : AgreeButTrans (decPrepare k s) s := decPrepare_eq_setTrans k s

/-- HSUB, SREG and TAGR when the controller is invoked with the AAD present (44_decrypt.md R192). -/
theorem decPrepare_hashRegs (k : Fin 16) {s : State} (haad : AadIn s.regs) :
    (decPrepare k s).trans.hSub = hashSubkey (keyOf k s) ∧ (decPrepare k s).trans.sReg = tagMask (keyOf k s) (j0In s)
      ∧ (decPrepare k s).trans.tagR = ctrTag (keyOf k s) (j0In s) (srcBytes s) := by
  rw [decPrepare_of_aad k haad, decHwTag, setTrans_trans]
  exact ⟨rfl, rfl, rfl⟩

/-- The engine is loaded with the slot's key and the IV in memory. -/
theorem engineInit_decPrepare (k : Fin 16) (s : State) :
    (engineInit k (decPrepare k s)).key = keyOf k s ∧ engineJ0 (engineInit k (decPrepare k s)) = j0In s :=
  ⟨congrArg Slot.key ((decPrepare_agrees k s).slotAt_eq k), congrArg j0Of (decPrepare_ivReg k s)⟩

theorem decTagForHw_of_aad (k : Fin 16) {s : State} (haad : AadIn s.regs) :
    decTagForHw (decPrepare k s) = ctrTag (keyOf k s) (j0In s) (srcBytes s) := by
  obtain ⟨-, -, htag⟩ := decPrepare_hashRegs k haad
  rw [decTagForHw, (decPrepare_agrees k s).regs_eq, if_pos ((aadPresent_iff _).mpr haad), htag]

theorem decTagForHw_of_no_aad (k : Fin 16) {s : State} (haad : ¬ AadIn s.regs) :
    decTagForHw (decPrepare k s) = expectedTag s := by
  rw [decTagForHw, (decPrepare_agrees k s).regs_eq, if_neg (mt (aadPresent_iff _).mp haad),
    (decPrepare_agrees k s).expectedTag_eq]

/-- What the controller returns to DECRYPT: the transformed source, and whether the tag fed to it is its own
(42_ctr_controller.md R155). -/
def decOutput (k : Fin 16) (s : State) : List Byte × Bool :=
  hwDec (engineInit k (decPrepare k s)) (srcBytes s) (decTagForHw (decPrepare k s))

/-- CTR_XFORM(K, J0, C) of 44_decrypt.md R198. -/
def decPlain (k : Fin 16) (s : State) : List Byte := ctrXform (keyOf k s) (j0In s) (srcBytes s)

theorem decOutput_fst (k : Fin 16) (s : State) : (decOutput k s).1 = decPlain k s := by
  obtain ⟨hkey, hj0⟩ := engineInit_decPrepare k s
  rw [decOutput, hwDec_fst, hkey, hj0, decPlain]

theorem decOutput_snd_iff (k : Fin 16) (s : State) : (decOutput k s).2 = true
    ↔ ctrTag (keyOf k s) (j0In s) (srcBytes s) = decTagForHw (decPrepare k s) := by
  obtain ⟨hkey, hj0⟩ := engineInit_decPrepare k s
  rw [decOutput, hwDec_snd_iff, hkey, hj0]

/-- Settles O30: TAGR holds the controller's own tag, and the controller compares for equality. -/
theorem hardwareCheckPassesWithAad : Obligations.HardwareCheckPassesWithAad := fun s k haad =>
  ⟨decTagForHw_of_aad k haad, (decOutput_snd_iff k s).mpr (decTagForHw_of_aad k haad).symm⟩

/-! ### After the transform -/

/-- Without AAD the controller's check decides. -/
theorem decVerify_of_no_aad {s : State} (haad : ¬ AadIn s.regs) (c : List Byte) (texp : Block) (r : List Byte × Bool) :
    decVerify c texp r s = if r.2 = true then decComplete .ok (memWrite s.regs.dstAddr r.1 s)
      else decAuthFail (memWrite s.regs.dstAddr r.1 s) := by
  have habsent : ¬ aadPresent s.regs = true := mt (aadPresent_iff _).mp haad
  rw [decVerify]
  cases r.2
  · rfl
  · simp only [memWrite_regs, habsent]
    rfl

/-- With the AAD present and the controller's check passed, the software check decides. -/
theorem decVerify_of_aad {s : State} (haad : AadIn s.regs) (c : List Byte) (texp : Block) {r : List Byte × Bool}
    (hr : r.2 = true) : decVerify c texp r s =
      if texp = ghash s.trans.hSub (readRange (aadRange s.regs) (memWrite s.regs.dstAddr r.1 s)) c ^^^ s.trans.sReg
      then decComplete .ok (memWrite s.regs.dstAddr r.1 s) else decAuthFail (memWrite s.regs.dstAddr r.1 s) := by
  have hpresent := (aadPresent_iff _).mpr haad
  have hsoft : AgreeButTrans (decSoftTag c (memWrite s.regs.dstAddr r.1 s)) (memWrite s.regs.dstAddr r.1 s) := ⟨_, rfl⟩
  simp only [decVerify, hr, Bool.not_true, Bool.false_eq_true, if_false, memWrite_regs, hpresent, if_true,
    hsoft.decComplete_eq, hsoft.decAuthFail_eq]
  exact if_congr (ctEq16_iff _ _) rfl rfl

/-- The state with the draw taken and the plaintext written, before a check has decided. -/
def decWritten (k : Fin 16) (s : State) : State := memWrite s.regs.dstAddr (decPlain k s) (afterHangDraw s)

/-- The tag that DECRYPT accepts, the AAD read where it is read: after the plaintext was written. -/
def decTag (k : Fin 16) (s : State) : Block :=
  gcmTag (keyOf k s) (j0In s) (readRange (aadRange s.regs) (decWritten k s)) (srcBytes s)

theorem decRun_eq_decVerify {k : Fin 16} {s : State} (hdraw : hangDraw s = false) :
    decRun k s = decVerify (srcBytes s) (expectedTag s) (decOutput k s) (afterHangDraw (decPrepare k s)) := by
  obtain ⟨x, hx, ⟨hangs, -⟩ | ⟨-, verify⟩⟩ := decRun_cases k s
  · exact absurd hdraw (by simp [hangs])
  · rw [verify, decOutput, hx]

/-- A DECRYPT past its checks that does not hang writes the plaintext, and completes with OK iff the caller's tag is the GCM
tag. -/
theorem decRun_eq {k : Fin 16} {s : State} (hdraw : hangDraw s = false) : decRun k s =
    if expectedTag s = decTag k s then decComplete .ok (decWritten k s) else decAuthFail (decWritten k s) := by
  have hinvoked : AgreeButTrans (afterHangDraw (decPrepare k s)) (afterHangDraw s) :=
    (decPrepare_agrees k s).after_hangDraw
  have hregs : (afterHangDraw (decPrepare k s)).regs = s.regs := hinvoked.regs_eq.trans (afterHangDraw_regs s)
  have hwritten : AgreeButTrans (memWrite s.regs.dstAddr (decPlain k s) (afterHangDraw (decPrepare k s)))
      (decWritten k s) := hinvoked.after_memWrite _ _
  rw [decRun_eq_decVerify hdraw]
  by_cases haad : AadIn s.regs
  · have hpass : (decOutput k s).2 = true := (decOutput_snd_iff k s).mpr (decTagForHw_of_aad k haad).symm
    obtain ⟨hsub, hmask, -⟩ := decPrepare_hashRegs k haad
    rw [decVerify_of_aad (hregs ▸ haad) _ _ hpass, hregs, decOutput_fst, hwritten.readRange_eq, hwritten.decComplete_eq,
      hwritten.decAuthFail_eq, afterHangDraw_trans, hsub, hmask, decTag, gcmTag, hashSubkey, tagMask]
  · have hnil : readRange (aadRange s.regs) (decWritten k s) = [] := by
      rw [readRange, aadRange_len, aadCount, if_neg haad, readBytes_zero]
    have htag : decTag k s = ctrTag (keyOf k s) (j0In s) (srcBytes s) := by
      rw [decTag, hnil, gcmTag, ctrTag, hashSubkey, tagMask]
    have hiff : (decOutput k s).2 = true ↔ expectedTag s = decTag k s := by
      rw [decOutput_snd_iff, decTagForHw_of_no_aad k haad, htag, eq_comm]
    rw [decVerify_of_no_aad (hregs ▸ haad), hregs, decOutput_fst, hwritten.decComplete_eq, hwritten.decAuthFail_eq]
    exact if_congr hiff rfl rfl

end Sys2Proof.Machine
end

section
/-! What a DECRYPT that has run leaves in memory (44_decrypt.md R195, R198), and that TAG_LEN does not matter to it (R196). -/

namespace Sys2Proof.Machine

/-- The caller's tag is the block whose bytes stand in the tag buffer. -/
theorem expectedTag_eq_iff (s : State) (x : Block) :
    expectedTag s = x ↔ readBytes s.mem s.regs.tagAddr.toNat 16 = blockBytes x := by
  have hdef : expectedTag s = blockOfBytes (readBytes s.mem s.regs.tagAddr.toNat 16) := rfl
  rw [hdef]
  constructor
  · rintro rfl
    exact (blockBytes_blockOfBytes (length_readBytes _ _ _)).symm
  · intro h
    rw [h, blockOfBytes_blockBytes]

@[simp] theorem length_decPlain (k : Fin 16) (s : State) : (decPlain k s).length = s.regs.srcLen.toNat := by
  rw [decPlain, length_ctrXform, srcBytes, length_readBytes]

theorem decWritten_regs (k : Fin 16) (s : State) : (decWritten k s).regs = s.regs := afterHangDraw_regs s

theorem decWritten_sameControl (k : Fin 16) (s : State) : SameControl s (decWritten k s) := afterHangDraw_sameControl s

section
variable {k : Fin 16} {s : State} (hready : DecReady k s) (hm : MemCanonical s)
include hready

theorem plain_aad_disjoint : ∀ x ∈ decOutSpans s.regs, ¬ Overlaps x.1 x.2 s.regs.aadAddr (aadCount s.regs) := by
  obtain ⟨-, -, hoverlap⟩ := hready
  simp only [DecOverlap, not_or] at hoverlap
  obtain ⟨-, -, plainAad, -⟩ := hoverlap
  exact List.forall_mem_singleton.mpr plainAad

theorem decWritten_writesWithin : WritesWithin (decOutSpans s.regs) s (decWritten k s) :=
  (WritesWithin.of_mem (afterHangDraw_mem s)).trans
    (writePlain_writesWithin (decOutputFits_of_ready hready) (length_decPlain k s).le _)

include hm

/-- The plaintext does not reach the AAD, which is read after it was written. -/
theorem decTag_of_ready : decTag k s = gcmTag (keyOf k s) (j0In s) (aadBytes s) (srcBytes s) := by
  have haad : readRange (aadRange s.regs) (decWritten k s) = aadBytes s := by
    rw [readRange, aadRange_len, aadRange_addr,
      (decWritten_writesWithin hready).readBytes_eq hm (plain_aad_disjoint hready), aadBytes]
  rw [decTag, haad]

theorem decComplete_plain (code : ErrCode) :
    readBytes (decComplete code (decWritten k s)).mem s.regs.dstAddr.toNat s.regs.srcLen.toNat = decPlain k s :=
  readBytes_memWrite ((memCanonical_congr (afterHangDraw_mem s)).mpr hm) (decOutputFits_of_ready hready)
    (length_decPlain k s)

theorem decAuthFail_zeros : readBytes (decAuthFail (decWritten k s)).mem s.regs.dstAddr.toNat s.regs.srcLen.toNat
    = List.replicate s.regs.srcLen.toNat 0#8 := by
  obtain ⟨hm', -⟩ := decWritten_writesWithin hready hm
  rw [decAuthFail, decWritten_regs, decComplete, complete_mem]
  exact readBytes_memWrite hm' (decOutputFits_of_ready hready) List.length_replicate

end

/-- Settles O29: only a run that has not hung completes with these codes; the run is `decRun_eq`, and what it leaves unchanged
is the frame of every outcome. -/
theorem decryptAcceptsExactlyTheTag : Obligations.DecryptAcceptsExactlyTheTag := by
  refine ⟨fun s t k hnext hidle hran => ?_, fun s k hm hready hdraw => ?_⟩
  · obtain ⟨-, rfl⟩ | ⟨-, a, -, rfl⟩ | ⟨ready, hdraw, -⟩ := decrypt_completed_cases hnext hidle
    · exact absurd hran (not_ranCode (.inl rfl))
    · exact absurd hran (not_ranCode (.inr rfl))
    · exact ⟨ready, hdraw⟩
  · obtain ⟨-, decFrame⟩ := aeadFrame
    have hnext := exec_decrypt_of_ready hready
    obtain ⟨hframe, hslots, -, -, hsame⟩ := decFrame s _ k hm hnext
    refine ⟨_, hnext, hframe, hslots, hsame, fun htag => ?_, fun htag => ?_⟩
    · rw [← expectedTag_eq_iff, ← decTag_of_ready hready hm] at htag
      rw [decRun_eq hdraw, if_pos htag]
      exact ⟨decComplete_completed .ok (decWritten_regs k s) (decWritten_sameControl k s),
        decComplete_plain hready hm .ok⟩
    · rw [ne_eq, ← expectedTag_eq_iff, ← decTag_of_ready hready hm] at htag
      rw [decRun_eq hdraw, if_neg htag]
      exact ⟨decAuthFail_completed (decWritten_regs k s) (decWritten_sameControl k s), decAuthFail_zeros hready hm⟩

/-! ### TAG_LEN -/

/-- The state with another value in TAG_LEN. -/
def setTagLen (n : Word) (s : State) : State := { s with regs := { s.regs with tagLen := n } }

theorem afterHangDraw_setTagLen (n : Word) (s : State) :
    afterHangDraw (setTagLen n s) = setTagLen n (afterHangDraw s) := by
  have hdraws : (setTagLen n s).draws = s.draws := rfl
  simp only [afterHangDraw, hdraws]
  split <;> rfl

theorem hangWith_setTagLen (n : Word) (rs : List Range) (s : State) :
    hangWith rs (setTagLen n s) = setTagLen n (hangWith rs s) := by
  have hhavoc : havoc rs (setTagLen n s) = setTagLen n (havoc rs s) := by
    induction rs generalizing s with
    | nil => rfl
    | cons r rs ih => exact ih (havocRange r s)
  rw [hangWith, hhavoc]
  rfl

theorem decPrepare_setTagLen (n : Word) (k : Fin 16) (s : State) :
    decPrepare k (setTagLen n s) = setTagLen n (decPrepare k s) := by
  by_cases haad : AadIn s.regs
  · rw [decPrepare_of_aad k haad, decPrepare_of_aad (s := setTagLen n s) k haad]
    rfl
  · rw [decPrepare_of_no_aad k haad, decPrepare_of_no_aad (s := setTagLen n s) k haad]
    rfl

theorem decWritten_setTagLen (n : Word) (k : Fin 16) (s : State) :
    decWritten k (setTagLen n s) = setTagLen n (decWritten k s) := by
  rw [decWritten, afterHangDraw_setTagLen]
  rfl

theorem decTag_setTagLen (n : Word) (k : Fin 16) (s : State) : decTag k (setTagLen n s) = decTag k s := by
  rw [decTag, decWritten_setTagLen]
  rfl

theorem decRun_eq_hangWith {k : Fin 16} {s : State} (hdraw : hangDraw s = true) :
    decRun k s = hangWith [dstRange s.regs] (afterHangDraw (decPrepare k s)) := by
  obtain ⟨x, hx, ⟨-, hang⟩ | ⟨completes, -⟩⟩ := decRun_cases k s
  · rw [hang, hx]
  · exact absurd hdraw (by simp [completes])

theorem decRun_setTagLen (n : Word) (k : Fin 16) (s : State) :
    decRun k (setTagLen n s) = setTagLen n (decRun k s) := by
  have hdraws : hangDraw (setTagLen n s) = hangDraw s := hangDraw_congr rfl
  cases hdraw : hangDraw s with
  | true =>
    rw [decRun_eq_hangWith hdraw, decRun_eq_hangWith (hdraws.trans hdraw), decPrepare_setTagLen, afterHangDraw_setTagLen,
      hangWith_setTagLen]
    rfl
  | false =>
    have htag : expectedTag (setTagLen n s) = expectedTag s := rfl
    rw [decRun_eq hdraw, decRun_eq (hdraws.trans hdraw), decTag_setTagLen, htag, decWritten_setTagLen]
    split
    · rfl
    · rfl

theorem decArgsGood_setTagLen {n : Word} {k : Fin 16} {s : State} (hs : 16 ≤ s.regs.tagLen.toNat) (hn : 16 ≤ n.toNat) :
    DecArgsGood k (setTagLen n s) ↔ DecArgsGood k s := by
  constructor
  · rintro ⟨hsrc, hiv, htag, hivLen, -, hvalid⟩
    exact ⟨hsrc, hiv, htag, hivLen, hs, hvalid⟩
  · rintro ⟨hsrc, hiv, htag, hivLen, -, hvalid⟩
    exact ⟨hsrc, hiv, htag, hivLen, hn, hvalid⟩

/-- Settles O32: of TAG_LEN the checks ask only that it is at least 16, and the run does not read it. -/
theorem decryptIgnoresTagLenAbove16 : Obligations.DecryptIgnoresTagLenAbove16 := by
  intro s t k n hs hn hnext
  change exec (.decrypt k) (setTagLen n s) = .next (setTagLen n t)
  have hargs := decArgsGood_setTagLen (k := k) hs hn
  obtain ⟨bad, rfl⟩ | ⟨good, a, unadmitted, rfl⟩ | ⟨⟨good, admitted, apart⟩, rfl⟩ := execDecrypt_cases hnext
  · exact exec_decrypt_of_bad_args (mt hargs.mp bad)
  · exact exec_decrypt_of_unadmitted (hargs.mpr good) unadmitted
  · have hready : DecReady k (setTagLen n s) := ⟨hargs.mpr good, admitted, apart⟩
    rw [exec_decrypt_of_ready hready, decRun_setTagLen]

end Sys2Proof.Machine
end

section
/-! The round trip (44_decrypt.md R198): DECRYPT of what ENCRYPT wrote. -/

namespace Sys2Proof.Machine

theorem outputs_iv_disjoint {k : Fin 16} {s : State} (hready : EncReady k s) :
    ∀ x ∈ encOutSpans s.regs, ¬ Overlaps x.1 x.2 s.regs.ivAddr 12 := by
  obtain ⟨-, -, -, hoverlap⟩ := hready
  simp only [EncOverlap, not_or] at hoverlap
  obtain ⟨dstIv, -, -, -, tagIv, -⟩ := hoverlap
  exact List.forall_mem_cons.mpr ⟨dstIv, List.forall_mem_singleton.mpr tagIv⟩

/-- What a DECRYPT of ENCRYPT's outputs works on: the state `t` after an ENCRYPT begun in `s`, the source moved to the
ciphertext and the destination to `p`. -/
def decryptBack (p : Word) (s t : State) : State :=
  { t with regs := { t.regs with srcAddr := s.regs.dstAddr, dstAddr := p } }

section
variable {k : Fin 16} {s t : State} (hready : EncReady k s) (hm : MemCanonical s) (hnext : exec (.encrypt k) s = .next t)
include hready hm hnext

/-- An ENCRYPT past its checks that is no longer busy has left the memory of 43_encrypt.md R177. -/
theorem encMemory_of_idle (hidle : t.status.busy = false) : EncMemory k s t := by
  rw [exec_encrypt_of_ready hready] at hnext
  injection hnext with hnext
  subst hnext
  exact encRun_memory hready hm (hangDraw_of_encRun_idle hidle)

/-- The key, the IV and the AAD are those of the ENCRYPT, whose outputs do not reach them. -/
theorem decryptBack_inputs (p : Word) : keyOf k (decryptBack p s t) = keyOf k s
    ∧ j0In (decryptBack p s t) = j0In s ∧ aadBytes (decryptBack p s t) = aadBytes s := by
  obtain ⟨-, hregs, -⟩ := exec_frame hnext
  have hwrites := execEncrypt_writesWithin hnext
  refine ⟨keyOf_congr (s := s) (t := t) (execEncrypt_slots hnext) k, ?_, ?_⟩
  · change j0Of (ivOfBytes (readBytes t.mem t.regs.ivAddr.toNat 12)) = j0In s
    rw [hregs, hwrites.readBytes_eq hm (outputs_iv_disjoint hready), j0In]
  · change readBytes t.mem t.regs.aadAddr.toNat (aadCount t.regs) = aadBytes s
    rw [hregs, hwrites.readBytes_eq hm (outputs_aad_disjoint hready), aadBytes]

end

/-- The source is the ciphertext, and the tag buffer holds its tag. -/
theorem decryptBack_outputs {k : Fin 16} {s t : State} (hregs : t.regs = s.regs) (htagLen : s.regs.tagLen = 16#32)
    (hmemory : EncMemory k s t) (p : Word) : srcBytes (decryptBack p s t) = encCipher k s
      ∧ readBytes (decryptBack p s t).mem (decryptBack p s t).regs.tagAddr.toNat 16 = blockBytes (encTag k s) := by
  obtain ⟨hcipher, htag⟩ := hmemory
  have hlen : s.regs.tagLen.toNat = 16 := congrArg BitVec.toNat htagLen
  have hall : (blockBytes (encTag k s)).take 16 = blockBytes (encTag k s) :=
    List.take_of_length_le (length_blockBytes _).le
  rw [TagHolds, hlen, hall, ← hregs] at htag
  refine ⟨?_, htag⟩
  change readBytes t.mem s.regs.dstAddr.toNat t.regs.srcLen.toNat = encCipher k s
  rw [hregs, hcipher]

/-- Settles O36: the DECRYPT finds the tag of R177 over the ENCRYPT's IV, AAD and ciphertext, and the transform is its own
inverse. -/
theorem encryptThenDecryptRestores : Obligations.EncryptThenDecryptRestores := by
  intro s t u k p hm hready htagLen hnext hidle hu hdecReady hdraw
  obtain rfl : u = decryptBack p s t := hu
  obtain ⟨-, hregs, -⟩ := exec_frame hnext
  obtain ⟨hkey, hj0, haad⟩ := decryptBack_inputs hready hm hnext p
  obtain ⟨hsrc, htag⟩ := decryptBack_outputs hregs htagLen (encMemory_of_idle hready hm hnext hidle) p
  obtain ⟨-, decrypts⟩ := decryptAcceptsExactlyTheTag
  have hm' : MemCanonical t := exec_memCanonical hm hnext
  obtain ⟨v, hv, -, -, -, accepts, -⟩ := decrypts (decryptBack p s t) k hm' hdecReady hdraw
  rw [hkey, hj0, haad, hsrc] at accepts
  obtain ⟨⟨hstatus, -⟩, hplain⟩ := accepts htag
  change readBytes v.mem p.toNat t.regs.srcLen.toNat = _ at hplain
  rw [hregs, encCipher, ctrXform_ctrXform] at hplain
  exact ⟨v, hv, by rw [hstatus], by rw [hstatus], hplain⟩

end Sys2Proof.Machine
end

section
/-! What a command leaves in STATUS and ERR_ADDR, and how every command ends (60_exceptions.md R210, R211, R217, R261). -/

namespace Sys2Proof.Machine

theorem StatusNamed.of_completed {s t : State} {code : ErrCode} {fold hwx : Bool} {ghcnt : BitVec 2} {ea : Word}
    (h : Completed s t code fold hwx ghcnt ea) (hcode : code ≠ .internalCryptoFailure)
    (hea : code ≠ .busError → ea = 0#32) (hcount : ghcnt ≠ 3#2) (hfold : fold = false → ghcnt = 0#2) :
    StatusNamed t := by
  obtain ⟨hstatus, herrAddr, -⟩ := h
  rw [StatusNamed, hstatus, herrAddr]
  exact ⟨hcode, hea, hcount, hfold⟩

theorem raise_statusNamed {code : ErrCode} (hcode : code ≠ .internalCryptoFailure) (s : State) :
    StatusNamed (raise code s) := .of_completed (raise_raised code s) hcode (fun _ => rfl) nofun fun _ => rfl

theorem raiseBus_statusNamed (a : Word) (s : State) : StatusNamed (raiseBus a s) :=
  ⟨nofun, fun herr => absurd rfl herr, nofun, fun _ => rfl⟩

theorem completeOk_statusNamed (s : State) : StatusNamed (completeOk s) := raise_statusNamed (code := .ok) nofun s

/-- One GHASH pass where the AAD is present, and none without the fold path. -/
theorem EncCompleted.statusNamed {s t : State} (h : EncCompleted s t) : StatusNamed t := by
  refine .of_completed h nofun (fun _ => rfl) ?_ fun hfold => if_neg (of_decide_eq_false hfold)
  split
  · decide
  · decide

/-- Two GHASH passes where the AAD is present, and none without the fold path. -/
theorem DecCompleted.statusNamed {code : ErrCode} {s t : State} (hcode : code ≠ .internalCryptoFailure)
    (h : DecCompleted code s t) : StatusNamed t := by
  refine .of_completed h hcode (fun _ => rfl) ?_ fun hfold => if_neg (of_decide_eq_false hfold)
  split
  · decide
  · decide

/-- A command has completed, and STATUS and ERR_ADDR hold what a command can leave. -/
def EndsNamed (t : State) : Prop := t.status.busy = false ∧ StatusNamed t

theorem raise_endsNamed {code : ErrCode} (hcode : code ≠ .internalCryptoFailure) (s : State) :
    EndsNamed (raise code s) := ⟨rfl, raise_statusNamed hcode s⟩

theorem completeOk_endsNamed (s : State) : EndsNamed (completeOk s) := ⟨rfl, completeOk_statusNamed s⟩

theorem execInstallKey_endsNamed {k : Fin 16} {s t : State} (h : execInstallKey k s = .next t) : EndsNamed t := by
  obtain ⟨-, rfl⟩ | ⟨-, -, rfl⟩ | ⟨-, -, -, rfl⟩ | ⟨-, -, -, -, rfl⟩ | ⟨-, -, -, -, rfl⟩ := execInstallKey_cases h
  · exact raise_endsNamed (by decide) _
  · exact raise_endsNamed (by decide) _
  · exact raise_endsNamed (by decide) _
  · exact ⟨rfl, raiseBus_statusNamed _ _⟩
  · exact completeOk_endsNamed _

theorem exec_encrypt_statusNamed {k : Fin 16} {s t : State} (h : exec (.encrypt k) s = .next t)
    (hidle : t.status.busy = false) : StatusNamed t := by
  obtain ⟨-, rfl⟩ | ⟨-, -, rfl⟩ | ⟨-, -, a, -, rfl⟩ | ⟨-, -, completed⟩ := encrypt_completed_cases h hidle
  · exact raise_statusNamed (by decide) s
  · exact raise_statusNamed (by decide) s
  · exact raiseBus_statusNamed a s
  · exact completed.statusNamed

theorem exec_decrypt_statusNamed {k : Fin 16} {s t : State} (h : exec (.decrypt k) s = .next t)
    (hidle : t.status.busy = false) : StatusNamed t := by
  obtain ⟨-, rfl⟩ | ⟨-, a, -, rfl⟩ | ⟨-, -, accepted | failed⟩ := decrypt_completed_cases h hidle
  · exact raise_statusNamed (by decide) s
  · exact raiseBus_statusNamed a s
  · exact accepted.statusNamed (by decide)
  · exact failed.statusNamed (by decide)

/-- A command completes with what it can leave in STATUS and ERR_ADDR; only an AEAD command can end busy (R261). -/
theorem exec_endsNamed_or_busy {i : Instr} {s t : State} (h : exec i s = .next t) :
    EndsNamed t ∨ (t.status.busy = true ∧ ∃ k, i = .encrypt k ∨ i = .decrypt k) := by
  cases i with
  | nop k =>
    injection h with h
    exact .inl (h ▸ completeOk_endsNamed s)
  | installKey k => exact .inl (execInstallKey_endsNamed h)
  | releaseKey k =>
    injection h with h
    exact .inl (h ▸ completeOk_endsNamed (unbindSlot k s))
  | encrypt k =>
    cases hbusy : t.status.busy with
    | false => exact .inl ⟨hbusy, exec_encrypt_statusNamed h hbusy⟩
    | true => exact .inr ⟨rfl, k, .inl rfl⟩
  | decrypt k =>
    cases hbusy : t.status.busy with
    | false => exact .inl ⟨hbusy, exec_decrypt_statusNamed h hbusy⟩
    | true => exact .inr ⟨rfl, k, .inr rfl⟩

/-- A completion writes what a command can leave, and a hang changes nothing that `StatusNamed` speaks of. -/
theorem exec_statusNamed {i : Instr} {s t : State} (hs : StatusNamed s) (h : exec i s = .next t) : StatusNamed t := by
  obtain ⟨-, named⟩ | ⟨hbusy, -⟩ := exec_endsNamed_or_busy h
  · exact named
  · obtain ⟨_, _, _, _, _, hstatus, -⟩ | ⟨-, hstatus, herrAddr⟩ := exec_completesOrHangs h
    · simp [hstatus] at hbusy
    · rw [StatusNamed, hstatus, herrAddr]
      exact hs

/-- Acceptance and reset clear the fields; the other host operations write none of them. -/
theorem hostAct_statusNamed {op : HostOp} {s t : State} (hs : StatusNamed s) (h : hostAct op s = .next t) :
    StatusNamed t := by
  obtain ⟨_, _, _, -, write⟩ | ⟨_, _, -, rfl⟩ | ⟨_, _, -, rfl, -⟩ | ⟨_, _, -, rfl, -⟩ | ⟨-, rfl⟩ | ⟨-, rfl⟩ :=
    hostAct_cases h
  · obtain ⟨-, rfl⟩ | ⟨-, -, rfl⟩ | ⟨-, -, rfl⟩ := write
    · exact hs
    · exact ⟨nofun, fun _ => rfl, nofun, fun _ => rfl⟩
    · exact hs
  · exact hs
  · exact hs
  · exact hs
  · exact resetOf_statusNamed s.params [] [] Draws.free
  · exact hs

/-- Settles O59: a step is a host operation, Exec of a command, IllegalCommand, or nothing. -/
theorem stepKeepsStatusNamed : Obligations.StepKeepsStatusNamed := by
  intro s t hs h
  obtain ⟨op, rest, -, -, host⟩ | ⟨rest, -, ⟨-, -, i, -, command⟩ | ⟨-, -, -, rfl⟩ | ⟨-, rfl⟩⟩ := step_cases h
  · exact hostAct_statusNamed (s := { s with inputs := rest }) hs host
  · exact exec_statusNamed (s := { s with inputs := rest }) hs command
  · exact raise_statusNamed (by decide) _
  · exact hs

/-- Settles O48: a command that ends busy is an AEAD command and has hung; a completion has the ERR_ADDR of
`StatusNamed`. -/
theorem everyCommandCompletesOrHangs : Obligations.EveryCommandCompletesOrHangs := by
  intro s t i h
  obtain ⟨hovr, -⟩ := exec_ends h
  refine ⟨hovr, (exec_endsNamed_or_busy h).imp (fun ⟨hidle, named⟩ => ?_) fun ⟨hbusy, haead⟩ => ?_⟩
  · obtain ⟨_, _, _, _, _, -, -, htrans, hhung⟩ | ⟨-, hstatus, -⟩ := exec_completesOrHangs h
    · obtain ⟨-, herrAddr, -⟩ := named
      exact ⟨hidle, hhung, htrans, herrAddr⟩
    · simp [hstatus] at hidle
  · obtain ⟨_, _, _, _, _, hstatus, -⟩ | ⟨hhung, -⟩ := exec_completesOrHangs h
    · simp [hstatus] at hbusy
    · exact ⟨hbusy, hhung, haead⟩

end Sys2Proof.Machine
end

section
/-! The turn of a TFO whose latched word is illegal (60_exceptions.md R220). -/

namespace Sys2Proof.Machine

/-- The words that `decode` rejects, on the raw fields (30_encoding.md R72). -/
theorem decode_ne_ok_of_illegal {n : Nat} {w : Word} (h : w.extractLsb' 12 20 ≠ 0#20
    ∨ w.extractLsb' 0 8 ∉ [0x00#8, 0x01#8, 0x02#8, 0x10#8, 0x11#8] ∨ n ≤ (w.extractLsb' 8 4).toNat) (i : Instr) :
    decode n w ≠ .ok i := by
  intro hdecode
  obtain ⟨hrsvd, hop, hslot⟩ := (legalWordsAreExactly n w).mp ⟨i, hdecode⟩
  obtain hrsvd' | hop' | hslot' := h
  · exact hrsvd' hrsvd
  · exact hop' hop
  · exact absurd hslot (not_lt.mpr hslot')

theorem tfoTurn_illegal {s : State} (hbusy : s.status.busy = true) (hrun : s.hung = false)
    (hillegal : ∀ i, decode s.params.nSlots s.cmdLatch ≠ .ok i) : tfoTurn s = .next (raise .illegalCommand s) := by
  rw [tfoTurn, if_pos (by simp [hbusy, hrun]), execLatched]
  cases hdecode : decode s.params.nSlots s.cmdLatch with
  | ok i => exact absurd hdecode (hillegal i)
  | error e => rfl

/-- Where ERR_ADDR is 0 already, an error changes STATUS and the transients alone. -/
theorem raise_of_errAddr_zero {s : State} (h : s.errAddr = 0#32) (code : ErrCode) : raise code s = { s with
    status := { busy := false, ovr := s.status.ovr, fold := false, hwx := false, ghcnt := 0#2, err := code }
    trans := Transients.zero } := by
  rw [h]
  rfl

/-- Settles O7: the turn raises IllegalCommand, and in flight ERR_ADDR is 0. -/
theorem illegalWordRaisesIllegalCommand : Obligations.IllegalWordRaisesIllegalCommand := by
  rintro s ⟨hclear, -⟩ hbusy hrun hword
  obtain ⟨-, -, -, -, herrAddr⟩ := hclear hbusy
  have hillegal := decode_ne_ok_of_illegal hword
  refine ⟨fun hnone => ?_, fun rest hidle => ?_⟩
  · rw [step_of_no_input hnone, tfoTurn_illegal hbusy hrun hillegal, raise_of_errAddr_zero herrAddr]
  · rw [step_of_idle hidle, tfoTurn_illegal (s := { s with inputs := rest }) hbusy hrun hillegal,
      raise_of_errAddr_zero (s := { s with inputs := rest }) herrAddr]

end Sys2Proof.Machine
end

section
/-! What is handed over and taken back (70_reset_and_hazards.md R244, R245; log 10). -/

namespace Sys2Proof.Machine

theorem exists_decode_error_of_ne_ok {n : Nat} {w : Word} (h : ∀ i, decode n w ≠ .ok i) :
    ∃ e, decode n w = .error e := by
  cases hdecode : decode n w with
  | ok i => exact absurd hdecode (h i)
  | error e => exact ⟨e, rfl⟩

theorem wordRanges_of_ok {p : Params} {w : Word} {i : Instr} (h : decode p.nSlots w = .ok i) (r : OperandRegs) :
    wordRanges p w r = commandInputs i r ++ commandOutputs i r := by
  unfold wordRanges
  rw [h]

theorem wordRanges_of_illegal {p : Params} {w : Word} (h : ∀ i, decode p.nSlots w ≠ .ok i) (r : OperandRegs) :
    wordRanges p w r = [] := by
  obtain ⟨e, herror⟩ := exists_decode_error_of_ne_ok h
  unfold wordRanges
  rw [herror]

theorem handedAfterRead_eq (off : BitVec 8) (s : State) :
    handedAfterRead off s = if off = 0x08#8 ∧ s.status.busy = false then [] else s.handed := by
  simp [handedAfterRead]

/-- Settles O9: acceptance hands over the ranges of `wordRanges`, an overrun and an operand write hand over nothing, and a
read leaves what `handedAfterRead` says. -/
theorem handedRangesFollowTheDuty : Obligations.HandedRangesFollowTheDuty := by
  refine ⟨fun s w hidle => ⟨accept w s, hostAct_regWrite_cmd hidle w, fun i hlegal => ?_, fun hillegal => ?_⟩,
    fun s off v haligned hcase => ?_,
    fun s off haligned => ⟨hostRead off s, hostAct_regRead haligned s, handedAfterRead_eq off s⟩⟩
  · rw [accept_handed, wordRanges_of_ok hlegal]
  · rw [accept_handed, wordRanges_of_illegal hillegal, List.nil_append]
  · cases hbusy : s.status.busy with
    | true => exact ⟨overrun s, hostAct_regWrite_busy haligned hbusy v, rfl⟩
    | false =>
      have hcmd : off ≠ 0x04#8 := hcase.resolve_left (by simp [hbusy])
      exact ⟨_, hostAct_regWrite_idle haligned hcmd hbusy v, rfl⟩

end Sys2Proof.Machine
end

section
/-! The reset event: what it leaves in system memory (70_reset_and_hazards.md R240, R241; log 14). -/

namespace Sys2Proof.Machine

theorem wordOutputs_of_ok {p : Params} {w : Word} {i : Instr} (h : decode p.nSlots w = .ok i) (r : OperandRegs) :
    wordOutputs p w r = commandOutputs i r := by
  unfold wordOutputs
  rw [h]

theorem wordOutputs_of_illegal {p : Params} {w : Word} (h : ∀ i, decode p.nSlots w ≠ .ok i) (r : OperandRegs) :
    wordOutputs p w r = [] := by
  obtain ⟨e, herror⟩ := exists_decode_error_of_ne_ok h
  unfold wordOutputs
  rw [herror]

theorem cutByReset_of_idle {s : State} (hidle : s.status.busy = false) : cutByReset s = s := by
  unfold cutByReset
  rw [hidle, if_neg (by simp)]

/-- An illegal word has no output range. -/
theorem cutByReset_of_illegal {s : State} (hillegal : ∀ i, decode s.params.nSlots s.cmdLatch ≠ .ok i) :
    cutByReset s = s := by
  unfold cutByReset
  rw [wordOutputs_of_illegal hillegal, havoc, ite_self]

theorem havoc_writesWithin (rs : List Range) (s : State) : WritesWithin (rs.map Range.span) s (havoc rs s) :=
  fun hm => ⟨havoc_wf rs s hm, fun a ha => readByte_havoc rs s a hm fun r hr => ha r.span (List.mem_map_of_mem hr)⟩

/-- Whether it is in flight or not, of the latched command a reset writes the output ranges at most. -/
theorem cutByReset_writesWithin {s : State} {i : Instr} (hlegal : decode s.params.nSlots s.cmdLatch = .ok i) :
    WritesWithin ((commandOutputs i s.regs).map Range.span) s (cutByReset s) := by
  unfold cutByReset
  rw [wordOutputs_of_ok hlegal]
  split
  · exact havoc_writesWithin _ s
  · exact .of_mem rfl

/-- Settles O53: the registers are those of `resetOf` by definition, and memory is that of `cutByReset`. -/
theorem resetEventEverywhere : Obligations.ResetEventEverywhere := by
  intro s hm
  refine ⟨resetEvent s, rfl, rfl, cutByReset_memCanonical hm, fun hidle => ?_, fun i hlegal => ?_, fun hillegal => ?_⟩
  · rw [resetEvent_mem, cutByReset_of_idle hidle]
  · obtain ⟨-, hsame⟩ := cutByReset_writesWithin hlegal hm
    exact hsame
  · rw [resetEvent_mem, cutByReset_of_illegal hillegal]

end Sys2Proof.Machine
end
